-- ==== Sys2Proof/Word.lean ====
section
/-! DEFINITION. The values HVC is made of: host words, buffer bytes and bit strings (00_scope.md R7 to R9). -/

namespace Sys2Proof

/-- A 32-bit pattern: a host word, a register, a `u32` or an `i32` (R8). -/
abbrev Word := BitVec 32

/-- One byte; bit 7 is its most significant bit (R7). -/
abbrev Byte := BitVec 8

/-- A bit string, first element first (R9); `true` is 1. -/
abbrev Bits := List Bool

end Sys2Proof
end

