-- ==== Sys2Proof/Syntax.lean ====
section
/-! DEFINITION. The commands of 30_encoding.md R72, one constructor per row of spec/opcode_table.json, and the one word format of R70. -/

namespace Sys2Proof

/-- Field T of HINIT (R73): T = 0 selects DEFAULT_FREQ, T = 1 selects FREQ. -/
inductive TableSel where
  | builtin
  | freq
  deriving DecidableEq, Repr

/-- The commands. A command word carries no operand but T; the rest comes from ARG (R71). -/
inductive Instr where
  | vpack
  | vunpack
  | vclear
  | vgrow
  | vsize
  | vpushb
  | hinit (t : TableSel)
  | hcomp
  | hdecomp
  deriving DecidableEq, Repr

/-- The fields of a command word (R70): OP in bits 3:0, T in bit 4, RSV in bits 31:5. -/
structure CmdWord where
  op : BitVec 4
  t : BitVec 1
  rsv : BitVec 27
  deriving DecidableEq, Repr

/-- Why a word is no command: the three cases (a), (b), (c) of R74. Where several hold the decoder names one (DESIGN CHOICE, log 12). -/
inductive IllegalWord where
  /-- (a) bits 31:5 are not 0. -/
  | rsvNotZero
  /-- (b) OP is one of the reserved operations. -/
  | opReserved
  /-- (c) T = 1 with an OP other than HINIT's. -/
  | tNotHinit
  deriving DecidableEq, Repr

end Sys2Proof
end

