-- ==== Sys2Proof/WellFormed.lean ====
section
/-! DEFINITION. Which words are commands (30_encoding.md R74), check by check, and the well-formedness of an instruction. -/

namespace Sys2Proof

/-- R74 (a): RSV must be 0. -/
def CmdWord.rsvOk (c : CmdWord) : Bool := c.rsv = 0

/-- R74 (b): OP must not be one of the reserved operations. -/
def CmdWord.opOk (c : CmdWord) : Bool := c.op ∉ [0x0#4, 0x7#4, 0xB#4, 0xC#4, 0xD#4, 0xE#4, 0xF#4]

/-- R74 (c), R73: T = 1 only with OP = 0x8. -/
def CmdWord.tOk (c : CmdWord) : Bool := c.t = 0 ∨ c.op = 0x8#4

/-- A word is legal when none of R74's three cases holds. -/
def CmdWord.legal (c : CmdWord) : Bool := c.rsvOk && c.opOk && c.tOk

/-- The fields of each command (R72). -/
def Instr.fields : Instr → CmdWord
  | .vpack => ⟨0x1, 0, 0⟩
  | .vunpack => ⟨0x2, 0, 0⟩
  | .vclear => ⟨0x3, 0, 0⟩
  | .vgrow => ⟨0x4, 0, 0⟩
  | .vsize => ⟨0x5, 0, 0⟩
  | .vpushb => ⟨0x6, 0, 0⟩
  | .hinit .builtin => ⟨0x8, 0, 0⟩
  | .hinit .freq => ⟨0x8, 1, 0⟩
  | .hcomp => ⟨0x9, 0, 0⟩
  | .hdecomp => ⟨0xA, 0, 0⟩

/-- An instruction is well formed when its fields make a legal word. T is HINIT's alone by its type, so every instruction is. -/
def Instr.wellFormed (i : Instr) : Bool := i.fields.legal

end Sys2Proof
end

