-- ==== Sys2Proof/Decode.lean ====
section
/-! DEFINITION. The decoder of 30_encoding.md R75, total on every 32-bit word and naming its rejections, and after it the encoder. -/

namespace Sys2Proof

/-- The fields of a word (R70). -/
def CmdWord.ofWord (w : Word) : CmdWord where
  op := w.extractLsb' 0 4
  t := w.extractLsb' 4 1
  rsv := w.extractLsb' 5 27

/-- The word of given fields (R70). -/
def CmdWord.toWord (c : CmdWord) : Word := c.rsv ++ c.t ++ c.op

/-- R75 on the fields: the table over (T, OP) for a word whose RSV is 0. Which words are rejected is R75's; which of R74's cases names one that
meets several is the model's (DESIGN CHOICE, log 12): (a) before the others, and (c) before (b), so T = 1 with a reserved OP is `tNotHinit`. -/
def decodeFields (c : CmdWord) : Except IllegalWord Instr :=
  if c.rsv ≠ 0 then .error .rsvNotZero
  else match c.t.toNat, c.op.toNat with
    | 0, 0x1 => .ok .vpack
    | 0, 0x2 => .ok .vunpack
    | 0, 0x3 => .ok .vclear
    | 0, 0x4 => .ok .vgrow
    | 0, 0x5 => .ok .vsize
    | 0, 0x6 => .ok .vpushb
    | 0, 0x8 => .ok (.hinit .builtin)
    | 1, 0x8 => .ok (.hinit .freq)
    | 0, 0x9 => .ok .hcomp
    | 0, 0xA => .ok .hdecomp
    | 0, _ => .error .opReserved
    | _, _ => .error .tNotHinit

/-- R75: the decoder. -/
def decode (w : Word) : Except IllegalWord Instr := decodeFields (CmdWord.ofWord w)

/-- R72: the word of a command. -/
def encode (i : Instr) : Word := i.fields.toWord

/-- The command word that `nbits` bits with the value `w` stand for: bits above `nbits` are 0. A command is one 32-bit word written
whole, so no byte order enters (R66, R76). -/
def tableWord (nbits w : Nat) : Word := BitVec.ofNat 32 (w % 2 ^ nbits)

/-- The instruction the decoder reads from a word numbered as spec/opcode_table.json numbers it; a value wider than the one word
every command is (R76) is no command. -/
def decodeTableWord (nbits w : Nat) : Option Instr :=
  if w % 2 ^ nbits < 2 ^ 32 then
    match decode (tableWord nbits w) with
    | .ok i => some i
    | .error _ => none
  else none

end Sys2Proof
end

