-- ==== Sys2Proof/Config.lean ====
section
/-! DEFINITION. The parameters of 00_scope.md R5, the fixed constants beside them, and the free values. A `Config` is an argument
of the machine: State carries one, nothing ever changes it, and a statement about every state is about every configuration. -/

namespace Sys2Proof

/-- `HUFF_BIT_ORDER` (R5, R63). -/
inductive BitOrder where
  | msbFirst
  | lsbFirst
  deriving DecidableEq, Repr

/-- `VARINT_OVERLONG` (R5, R102). -/
inductive Overlong where
  | fault
  | wrap
  deriving DecidableEq, Repr

/-- The parameters of R5, under the spec's names. -/
structure Config where
  /-- `VQ_CAP`, capacity of VQ in bytes. -/
  vqCap : Nat
  /-- `HIN_CAP`, size of the Huffman input buffer in bytes. -/
  hinCap : Nat
  /-- `HOUT_CAP`, size of the Huffman output buffer in bytes. -/
  houtCap : Nat
  /-- `DEFAULT_FREQ`, the built-in table HINIT with T = 0 installs. -/
  defaultFreq : Vector Word 256
  /-- `SENTINEL_FREQ`, the weight of symbol 256. -/
  sentinelFreq : Word
  /-- `HUFF_BIT_ORDER`. -/
  bitOrder : BitOrder
  /-- `VARINT_OVERLONG`. -/
  overlong : Overlong
  /-- `HVC_BASE`, the host bus address of offset 0. The block itself sees offsets only (R50). -/
  hvcBase : Nat
  deriving DecidableEq, Repr

/-- `NSYM`: 256 byte values and one sentinel (R5). -/
def nsym : Nat := 257

/-- `NNODE`: the number of tree nodes (R5). -/
def nnode : Nat := 513

/-- `MAX_CODE_LEN` (R5, R138). -/
def maxCodeLen : Nat := 256

/-- `VARINT_MAX_BYTES` (R5). -/
def varintMaxBytes : Nat := 5

/-- The sentinel's symbol number (R130). -/
def sentinelSym : Nat := 256

/-- The root's node number (R31, R135). -/
def rootNode : Nat := 512

/-- The largest value of a u32: the bound on a sum of weights (R132). -/
def u32Max : Nat := 2 ^ 32 - 1

/-- The constraint column of R5. -/
abbrev Config.Legal (c : Config) : Prop :=
  (5 ≤ c.vqCap ∧ c.vqCap ≤ 2 ^ 26) ∧ (1 ≤ c.hinCap ∧ c.hinCap ≤ 2 ^ 26) ∧ (1 ≤ c.houtCap ∧ c.houtCap ≤ 2 ^ 26) ∧
    1 ≤ c.sentinelFreq.toNat ∧ (c.defaultFreq.toList.map BitVec.toNat).sum + c.sentinelFreq.toNat ≤ u32Max

/-- The reference configuration RC (R6), for a given `DEFAULT_FREQ`, which RC leaves open. -/
def Config.reference (defaultFreq : Vector Word 256) : Config where
  vqCap := 256
  hinCap := 1024
  houtCap := 8192
  defaultFreq := defaultFreq
  sentinelFreq := 1
  bitOrder := .msbFirst
  overlong := .fault
  hvcBase := 0

/-! The parameters R5 marks OPEN, as constants without a body: nothing in Lean can find their values. -/

opaque Config.openVqCap : Nat
opaque Config.openHinCap : Nat
opaque Config.openHoutCap : Nat
opaque Config.openDefaultFreq : Nat → Word
opaque Config.openSentinelFreq : Word
opaque Config.openHvcBase : Nat

/-- The open parameters together, with the defaults R5 gives for the other two (MSB_FIRST, FAULT). -/
def Config.given : Config where
  vqCap := openVqCap
  hinCap := openHinCap
  houtCap := openHoutCap
  defaultFreq := Vector.ofFn fun i => openDefaultFreq i.val
  sentinelFreq := openSentinelFreq
  bitOrder := .msbFirst
  overlong := .fault
  hvcBase := openHvcBase

/-- The configuration of the machine that `State.reset` starts: any legal one. Where the open constants do not meet R5's constraints
they stand for no HVC at all, and RC with an all-zero table stands in, itself one of the legal configurations (DESIGN CHOICE, log 1). -/
def Config.chosen : Config :=
  if Config.given.Legal then Config.given else Config.reference (Vector.replicate 256 0)

/-! Draws (R11, R193): what FREQ, HIN and HOUT hold after a reset at an entry nothing has written. The first argument counts the
resets, so that another reset draws anew; the second is the entry. Free values: no body. That a draw depends on these two alone is the model's choice
(DESIGN CHOICE, log 2): it is not indexed by the instance, so two instances with the same count of resets read equal draws at entries nothing
has written, where R11 and R181 relate them by no law. -/

opaque Config.freqDraw : Nat → Nat → Word
opaque Config.hinDraw : Nat → Nat → Byte
opaque Config.houtDraw : Nat → Nat → Byte

/-- The host bus address of a block offset: R50, `HVC_BASE` plus the offset. -/
def Config.busAddress (c : Config) (off : Word) : Nat := c.hvcBase + off.toNat

/-- The offset a host bus address selects in this block, if it selects one (R50: offsets are 32 bits). -/
def Config.offsetOfBusAddress (c : Config) (addr : Nat) : Option Word :=
  if c.hvcBase ≤ addr ∧ addr < c.hvcBase + 2 ^ 32 then some (BitVec.ofNat 32 (addr - c.hvcBase)) else none

end Sys2Proof
end

