-- ==== Sys2Proof/Machine/State.lean ====
section
/-! DEFINITION. The state of one HVC instance (10_state.md R20), the host port in front of it, the ways a step stops, and reset. -/

namespace Sys2Proof.Machine

/-- The status codes of 60_exceptions.md R171, 0 to 9 in the table's order. Codes 10 to 15 do not exist. -/
inductive StatusCode where
  | ok
  | insufficientData
  /-- Reserved for the out-of-scope Unpacker, never raised (R4, R171). -/
  | malformedText
  /-- Reserved for the out-of-scope Packer, never raised (R4, R171). -/
  | unsupportedFieldKind
  | truncatedStream
  | notInitialized
  | capacityExceeded
  | illegalCommand
  | varIntOverflow
  | freqOverflow
  deriving DecidableEq, Repr

/-- HSTATE (R30). -/
inductive HState where
  | uninit
  | ready
  deriving DecidableEq, Repr

/-- One entry of the tree store (R31). Weights are exact naturals; R132 keeps them below 2^32. -/
inductive Node where
  | leaf (sym freq : Nat)
  | internal (child0 child1 freq : Nat)
  deriving DecidableEq, Repr

/-- A store of `n`-bit entries by number: the entries something has written since reset, numbers strictly rising. -/
abbrev Store (n : Nat) := List (Nat × BitVec n)

/-- A byte buffer; its entries are the host's cells. -/
abbrev Memory := List Host.Cell

/-- What a host access does (R10: MemRead, MemWrite). -/
inductive HostOp where
  | read
  | write (w : Word)
  deriving DecidableEq, Repr

/-- One host access: who makes it (R181), its size in bytes, its offset (R50), and what it does. -/
structure HostAccess where
  agent : Nat
  size : Nat
  off : Word
  op : HostOp
  deriving DecidableEq, Repr

/-- What can arrive from outside: the platform's reset (R190), or a host access. -/
inductive HostEvent where
  | reset
  | access (a : HostAccess)
  deriving DecidableEq, Repr

/-- What the host receives for an access (R20, R61). -/
inductive Reply where
  | readData (w : Word)
  | writeDone
  /-- The error response of a bus error, with its read data. -/
  | error (w : Word)
  deriving DecidableEq, Repr

/-- Why an access is a bus error. -/
inductive BusErrorCause where
  /-- The size is not 4 bytes (R59). -/
  | wrongSize
  /-- Bits 1:0 of the offset are not 0 (R59). -/
  | misaligned
  /-- No location has this offset (R58). -/
  | unmapped
  /-- A write to a read-only location (R60). -/
  | readOnly
  deriving DecidableEq, Repr

/-- How a step stops with a fault. -/
inductive Fault where
  /-- A bus error, a fault of the host program (R61, U6). Raised by `serve` and `writeLoc`, never by a command. Safe: the model stops where
  a platform may go on. -/
  | busError (c : BusErrorCause)
  deriving DecidableEq, Repr

/-- How a step is refused. -/
inductive Refusal where
  /-- A command without a meaning yet. Raised by exec's arms only; no arm of this model does. Safe: nothing is claimed. -/
  | notModelled (mnemonic : String)
  /-- A second host agent drives the instance (R181, R197: a model refuses such a program). Raised by `step`. Safe: nothing is claimed. -/
  | secondAgent
  deriving DecidableEq, Repr

/-- The state. `arg` to `hout` are R20's tuple, STATUS being `err` and the mirror of `hstate` (R23); `cfg` is R5's parameters, which
never change; the last four are the model's own: the host port and the draws. -/
structure State where
  /-- The parameters (R5). -/
  cfg : Config
  /-- ARG (R21). -/
  arg : Word
  /-- RESULT (R22). -/
  result : Word
  /-- STATUS.ERR (R23). STATUS.HREADY is `hstate` seen again (R30). -/
  err : StatusCode
  /-- VQ, front first (R27). -/
  vq : List Byte
  /-- FREQ (R29): the entries written since reset; the others are draws. -/
  freq : Store 32
  /-- HSTATE (R30). -/
  hstate : HState
  /-- NODE (R31): node k is element k. Undefined, and holding nothing, until an HINIT succeeds. -/
  node : List Node
  /-- CODE (R32): the code of symbol s is element s. Undefined, and holding nothing, until an HINIT succeeds. -/
  code : List Bits
  /-- HIN (R34): the bytes written since reset; the others are draws. -/
  hin : Memory
  /-- HOUT (R35): the bytes written since reset; the others are draws. -/
  hout : Memory
  /-- What has arrived at the host port and is not served yet, in issue order (R67). -/
  port : List HostEvent
  /-- The reply to the last access served, if there is one since reset. -/
  reply : Option Reply
  /-- The host agent that drives the instance, once one has (R181). -/
  driver : Option Nat
  /-- How many resets came before: the argument that makes each reset's draws its own (R11, R38). -/
  epoch : Nat
  deriving DecidableEq, Repr

/-- R38, R190: the state right after a reset of an instance with parameters `c`, the `epoch`-th one. -/
def State.resetWith (c : Config) (epoch : Nat) : State where
  cfg := c
  arg := 0
  result := 0
  err := .ok
  vq := []
  freq := []
  hstate := .uninit
  node := []
  code := []
  hin := []
  hout := []
  port := []
  reply := none
  driver := none
  epoch := epoch

/-- The machine right after reset, under whatever parameters the platform chose. -/
def State.reset : State := State.resetWith Config.chosen 0

end Sys2Proof.Machine
end

