-- ==== Sys2Proof/Machine/Ops.lean ====
section
/-! DEFINITION. The named operations over the buffers and registers, and the two ways a command ends (00_scope.md R10: `ok` and `raise`). -/

namespace Sys2Proof.Machine

/-! ### Stores -/

/-- The canonical form of a store: numbers strictly rising. An unlisted entry holds no value of the model's (it reads as a draw), so no
listed entry can equal it, and equal stores are equal lists. -/
abbrev Store.wf {n : Nat} (m : Store n) : Prop := m.Pairwise fun c d => c.1 < d.1

/-- The canonical form of a byte buffer. -/
abbrev Memory.wf (m : Memory) : Prop := Store.wf m

/-- Every listed entry lies below `cap`. -/
abbrev Store.Below {n : Nat} (cap : Nat) (m : Store n) : Prop := ∀ c ∈ m, c.1 < cap

/-- What a store lists at entry `i`. -/
def Store.find {n : Nat} : Store n → Nat → Option (BitVec n)
  | [], _ => none
  | (j, v) :: m, i => if i = j then some v else Store.find m i

/-- Writes one entry, keeping the order. -/
def Store.put {n : Nat} : Store n → Nat → BitVec n → Store n
  | [], i, v => [(i, v)]
  | (j, u) :: m, i, v => if i < j then (i, v) :: (j, u) :: m else if i = j then (i, v) :: m else (j, u) :: Store.put m i v

/-- Writes entries `0 ..< |bs|` and leaves the others as they are. -/
def Store.putFront {n : Nat} (m : Store n) (bs : List (BitVec n)) : Store n :=
  (bs.zipIdx.map fun p => (p.2, p.1)) ++ m.filter fun c => bs.length ≤ c.1

/-! ### Reads and writes of the buffers -/

/-- `FREQ[i]` (R29): a draw where nothing has written since reset (R193), by `epoch` and entry and not by instance (DESIGN CHOICE, log 2). -/
def State.freqAt (s : State) (i : Nat) : Word := (Store.find s.freq i).getD (Config.freqDraw s.epoch i)

/-- `HIN[i]` (R34): a draw where nothing has written since reset (R193), by `epoch` and entry and not by instance (DESIGN CHOICE, log 2). -/
def State.hinAt (s : State) (i : Nat) : Byte := (Store.find s.hin i).getD (Config.hinDraw s.epoch i)

/-- `HOUT[i]` (R35): a draw where nothing has written since reset (R193), by `epoch` and entry and not by instance (DESIGN CHOICE, log 2). -/
def State.houtAt (s : State) (i : Nat) : Byte := (Store.find s.hout i).getD (Config.houtDraw s.epoch i)

/-- `FREQ[i] <- w` (R53). -/
def State.setFreq (s : State) (i : Nat) (w : Word) : State := { s with freq := Store.put s.freq i w }

/-- `HIN[i] <- b` (R56). -/
def State.setHin (s : State) (i : Nat) (b : Byte) : State := { s with hin := Store.put s.hin i b }

/-- `HOUT[0 ..< |bs|] <- bs` (R35). -/
def State.setHout (s : State) (bs : List Byte) : State := { s with hout := Store.putFront s.hout bs }

/-! ### How a command ends -/

/-- The end of a command (R10, R170): `ok`, with the state it computed and the value for RESULT, or `raise E`. -/
inductive CmdEnd where
  | ok (t : State) (result : Word)
  | raise (e : StatusCode)
  deriving DecidableEq, Repr

/-- R172 and R173: a success commits what the command computed, writes RESULT and sets ERR to 0; an error writes ERR and nothing else. -/
def finish (s : State) : CmdEnd → State
  | .ok t r => { t with result := r, err := .ok }
  | .raise e => { s with err := e }

/-- A command completes, whichever way it ends (R170: none traps or halts). -/
def complete (s : State) (e : CmdEnd) : Host.Outcome State Fault Refusal := .next (finish s e)

/-- What a write of an illegal word to CMD does (R74). -/
def illegalCommand (s : State) : Host.Outcome State Fault Refusal := complete s (.raise .illegalCommand)

end Sys2Proof.Machine
end

