-- ==== Sys2Proof/Machine/Operands.lean ====
section
/-! DEFINITION. The operands of the commands: the readings of ARG (30_encoding.md R71) and the weights T selects (41_huffman.md R131). -/

namespace Sys2Proof.Machine

/-- `as_i32(ARG)`: the whole pattern, which `varintEncode` reads as two's complement. -/
def State.argI32 (s : State) : Word := s.arg

/-- `as_u32(ARG)`. -/
def State.argU32 (s : State) : Nat := s.arg.toNat

/-- `ARG[7:0]`; bits 31:8 are ignored. -/
def State.argByte (s : State) : Byte := s.arg.extractLsb' 0 8

/-- `zext_32` of a length or count. -/
def ofLength (n : Nat) : Word := BitVec.ofNat 32 n

/-- R131: the weights `w[0..256]` of an HINIT, the sentinel's last. -/
def weights (t : TableSel) (s : State) : List Nat :=
  (match t with
    | .builtin => s.cfg.defaultFreq.toList.map BitVec.toNat
    | .freq => (List.range 256).map fun i => (s.freqAt i).toNat) ++ [s.cfg.sentinelFreq.toNat]

/-- `HIN[0 ..< n]`, the input of HCOMP and HDECOMP. -/
def State.hinBytes (s : State) (n : Nat) : List Byte := (List.range n).map s.hinAt

end Sys2Proof.Machine
end

