-- ==== Sys2Proof/Machine/Huffman.lean ====
section
/-! DEFINITION. The Huffman family: tree construction and codes (41_huffman.md R130 to R138), the stream's bit order (20_memory.md R63),
and the meanings of HINIT, HCOMP and HDECOMP (R139 to R144). -/

namespace Sys2Proof.Machine

/-! ### Tree construction -/

/-- A construction node (R12, R36): a node number and its weight. It lives inside one HINIT. -/
structure CNode where
  id : Nat
  freq : Nat
  deriving DecidableEq, Repr

/-- Puts `x`, which stood before every element of the sorted list, in its place: before the first element no heavier than it. -/
def insertDesc {α : Type} (f : α → Nat) (x : α) : List α → List α
  | [] => [x]
  | y :: ys => if f y ≤ f x then x :: y :: ys else y :: insertDesc f x ys

/-- R133: `stable_sort_desc`, non-increasing by weight with ties in their input order. -/
def stableSortDesc {α : Type} (f : α → Nat) : List α → List α
  | [] => []
  | x :: xs => insertDesc f x (stableSortDesc f xs)

/-- R134's loop: sort; merge the last node (child0) and the one before it (child1) into node `k`, which goes to the tail. It returns the
internal nodes in the order of their numbers. Each pass shortens the list by one, so as many passes as nodes suffice. -/
def mergeLoop : (passes k : Nat) → List CNode → List Node
  | 0, _, _ => []
  | p + 1, k, l =>
    match (stableSortDesc CNode.freq l).reverse with
    | a :: b :: rest => .internal a.id b.id (a.freq + b.freq) :: mergeLoop p (k + 1) (rest.reverse ++ [⟨k, a.freq + b.freq⟩])
    | _ => []

/-- The leaves of R134: node s is symbol s with weight `w[s]`. -/
def leafNodes (w : List Nat) : List Node := w.zipIdx.map fun p => .leaf p.2 p.1

/-- The first construction list of R134: the leaves in symbol order, the sentinel last. -/
def leafList (w : List Nat) : List CNode := w.zipIdx.map fun p => ⟨p.2, p.1⟩

/-- R134: `build_tree`. -/
def buildTree (w : List Nat) : List Node := leafNodes w ++ mergeLoop w.length w.length (leafList w)

/-- R136: where the newest node goes, behind every node at least as heavy. -/
def insertNewest (x : CNode) : List CNode → List CNode
  | [] => [x]
  | y :: ys => if x.freq ≤ y.freq then y :: insertNewest x ys else x :: y :: ys

/-- The loop of R134 in the insertion form of R136, on a list already in order. -/
def insertionLoop : (passes k : Nat) → List CNode → List Node
  | 0, _, _ => []
  | p + 1, k, l =>
    match l.reverse with
    | a :: b :: rest =>
      .internal a.id b.id (a.freq + b.freq) :: insertionLoop p (k + 1) (insertNewest ⟨k, a.freq + b.freq⟩ rest.reverse)
    | _ => []

/-- R136: the tree by one full sort and then insertions. HINIT uses `buildTree`; that the two agree is a claim. -/
def insertionTree (w : List Nat) : List Node :=
  leafNodes w ++ insertionLoop w.length w.length (stableSortDesc CNode.freq (leafList w))

/-! ### Codes -/

/-- R137's walk: the symbols below node `n` with their codes, `path` being the code of `n`, last bit first. -/
def walkCodes (node : List Node) : (depth n : Nat) → (path : Bits) → List (Nat × Bits)
  | 0, _, _ => []
  | d + 1, n, path =>
    match node[n]? with
    | none => []
    | some (.leaf sym _) => [(sym, path.reverse)]
    | some (.internal a b _) => walkCodes node d a (false :: path) ++ walkCodes node d b (true :: path)

/-- R137: `CODE'`, the code of symbol s at place s. -/
def codesOf (node : List Node) : List Bits :=
  let found := walkCodes node nnode rootNode []
  (List.range nsym).map fun s => (found.lookup s).getD []

/-- `CODE[s]`. -/
def codeAt (code : List Bits) (s : Nat) : Bits := code.getD s []

/-- `max over s of |CODE[s]|`, the RESULT of HINIT (R139). -/
def longestCode (code : List Bits) : Nat := (code.map List.length).foldl max 0

/-! ### Bit order (R63) -/

/-- Stream bit `i` of one byte, `i` below 8. -/
def byteStreamBit (o : BitOrder) (b : Byte) (i : Nat) : Bool :=
  match o with
  | .msbFirst => b.getLsbD (7 - i)
  | .lsbFirst => b.getLsbD i

/-- R63: `stream_bit(B, j)`, for `j` below `8*|B|`. -/
def streamBit (o : BitOrder) (bs : List Byte) (j : Nat) : Bool :=
  match bs[j / 8]? with
  | some b => byteStreamBit o b (j % 8)
  | none => false

/-- The stream bits of a byte sequence, in order. -/
def streamBits (o : BitOrder) (bs : List Byte) : Bits := bs.flatMap fun b => (List.range 8).map (byteStreamBit o b)

/-- The byte whose stream bits are the given ones. -/
def byteOfBits (o : BitOrder) (bits : Bits) : Byte :=
  match o with
  | .msbFirst => BitVec.ofNat 8 (bits.foldl (fun n b => 2 * n + b.toNat) 0)
  | .lsbFirst => BitVec.ofNat 8 (bits.foldr (fun b n => 2 * n + b.toNat) 0)

/-- R63: `pack_bits(S)`, for a bit string of whole bytes. -/
def packBits (o : BitOrder) : Bits → List Byte
  | b0 :: b1 :: b2 :: b3 :: b4 :: b5 :: b6 :: b7 :: rest => byteOfBits o [b0, b1, b2, b3, b4, b5, b6, b7] :: packBits o rest
  | _ => []

/-! ### Compression and decompression -/

/-- `ceil(n / 8)`. -/
def bytesFor (n : Nat) : Nat := (n + 7) / 8

/-- R141: pads with zero bits to whole bytes. -/
def padBits (s : Bits) : Bits := s ++ List.replicate (8 * bytesFor s.length - s.length) false

/-- The stream of R141: the codes of the data, then the sentinel's. -/
def codeStream (code : List Bits) (d : List Byte) : Bits := (d.flatMap fun b => codeAt code b.toNat) ++ codeAt code sentinelSym

/-- R141: `huff_encode`. -/
def huffEncode (o : BitOrder) (code : List Bits) (d : List Byte) : List Byte := packBits o (padBits (codeStream code d))

/-- What `huff_decode` returns (R143). -/
inductive HuffResult where
  | ok (out : List Byte)
  | truncatedStream
  | capacityExceeded
  deriving DecidableEq, Repr

/-- Puts a byte in front of what the rest of the stream gives. -/
def HuffResult.emit (b : Byte) : HuffResult → HuffResult
  | .ok out => .ok (b :: out)
  | r => r

/-- The child a bit selects (R143). Only an internal node has children, and a walk stands on no other when HSTATE = READY (R31); at any other
number it stays (DESIGN CHOICE, log 4). -/
def child (node : List Node) (cur : Nat) (bit : Bool) : Nat :=
  match node[cur]? with
  | some (.internal a b _) => if bit then b else a
  | _ => cur

/-- The loop of R143 from node `cur`, with `room` bytes of output left. Its errors come where R143 checks for them (R174); log 10 says where R146
differs. -/
def huffWalk (node : List Node) : Bits → (cur room : Nat) → HuffResult
  | [], _, _ => .truncatedStream
  | bit :: bits, cur, room =>
    let next := child node cur bit
    if next ≤ sentinelSym then
      if next = sentinelSym then .ok []
      else match room with
        | 0 => .capacityExceeded
        | r + 1 => (huffWalk node bits rootNode r).emit (BitVec.ofNat 8 next)
    else huffWalk node bits next room

/-- R143: `huff_decode`. -/
def huffDecode (o : BitOrder) (node : List Node) (bs : List Byte) (cap : Nat) : HuffResult := huffWalk node (streamBits o bs) rootNode cap

/-! ### The commands -/

/-- R139: HINIT builds the tree and the codes from a table. -/
def hinitEnd (t : TableSel) (s : State) : CmdEnd :=
  let w := weights t s
  if u32Max < w.sum then .raise .freqOverflow
  else
    let node := buildTree w
    let code := codesOf node
    .ok { s with node := node, code := code, hstate := .ready } (ofLength (longestCode code))

/-- The checks HCOMP and HDECOMP begin with, in the order of R174: NotInitialized, then CapacityExceeded on the input length. -/
def withInput (s : State) (body : State → List Byte → CmdEnd) : CmdEnd :=
  match s.hstate with
  | .uninit => .raise .notInitialized
  | .ready => if s.cfg.hinCap < s.argU32 then .raise .capacityExceeded else body s (s.hinBytes s.argU32)

/-- R142: HCOMP compresses its input into HOUT. -/
def hcompBody (s : State) (input : List Byte) : CmdEnd :=
  let b := huffEncode s.cfg.bitOrder s.code input
  if s.cfg.houtCap < b.length then .raise .capacityExceeded else .ok (s.setHout b) (ofLength b.length)

/-- R144: HDECOMP decompresses its input into HOUT. -/
def hdecompBody (s : State) (input : List Byte) : CmdEnd :=
  match huffDecode s.cfg.bitOrder s.node input s.cfg.houtCap with
  | .truncatedStream => .raise .truncatedStream
  | .capacityExceeded => .raise .capacityExceeded
  | .ok out => .ok (s.setHout out) (ofLength out.length)

/-! The meanings: each command completes with its end. -/

def execHinit (t : TableSel) (s : State) : Host.Outcome State Fault Refusal := complete s (hinitEnd t s)

def execHcomp (s : State) : Host.Outcome State Fault Refusal := complete s (withInput s hcompBody)

def execHdecomp (s : State) : Host.Outcome State Fault Refusal := complete s (withInput s hdecompBody)

end Sys2Proof.Machine
end

