-- ==== Sys2Proof/Machine/VarInt.lean ====
section
/-! DEFINITION. The VarInt family: the format of 40_varint.md R100 to R103 and the meanings of its six commands, R105 to R110. -/

namespace Sys2Proof.Machine

/-! ### The format -/

/-- The magnitude of an i32 (R100): itself, or its bitwise NOT if it is negative. -/
def varintMagnitude (v : Word) : Nat := if v.msb then (~~~v).toNat else v.toNat

/-- The continuation flag as a byte takes it: bit 7 when magnitude bits remain. -/
def contFlag (rest : Nat) : Nat := if rest = 0 then 0 else 0x80

/-- Bytes 1 to 4 (R100): one per 7 magnitude bits while some are left. Four passes are the most a 25-bit remainder takes. -/
def varintChunks : (passes m : Nat) → List Byte
  | 0, _ => []
  | k + 1, m => if m = 0 then [] else BitVec.ofNat 8 ((m &&& 0x7F) ||| contFlag (m >>> 7)) :: varintChunks k (m >>> 7)

/-- R100: `varint_encode`. -/
def varintEncode (v : Word) : List Byte :=
  let sign := if v.msb then 1 else 0
  let m := varintMagnitude v
  BitVec.ofNat 8 ((sign <<< 6) ||| (m &&& 0x3F) ||| contFlag (m >>> 6)) :: varintChunks 4 (m >>> 6)

/-- What `varint_decode` returns (R102). -/
inductive VarIntResult where
  | ok (v : Word) (k : Nat)
  | insufficientData
  | varIntOverflow
  deriving DecidableEq, Repr

/-- The loop of R102 over the bytes after those read: `k` bytes read, magnitude `m` so far, continuation bit `cont` of the last one.
It ends after the 5th byte whatever that byte's continuation bit holds; `none` is a chain that runs past the end. -/
def varintWalk : (passes : Nat) → List Byte → (k m : Nat) → (cont : Bool) → Option (Nat × Nat)
  | 0, _, k, m, _ => some (m, k)
  | _ + 1, _, k, m, false => some (m, k)
  | _ + 1, [], _, _, true => none
  | p + 1, b :: q, k, m, true => varintWalk p q (k + 1) (m ||| ((b.toNat &&& 0x7F) <<< (6 + 7 * (k - 1)))) (b.getLsbD 7)

/-- The sign fold: NOT of the magnitude's pattern when the sign flag is set (R102). -/
def signFold (sign : Bool) (m : Nat) : Word := if sign then ~~~(BitVec.ofNat 32 m) else BitVec.ofNat 32 m

/-- The end of R102, from what the loop found: a magnitude of 2^31 or more is VarIntOverflow, or keeps its bits 31:0 in WRAP. -/
def varintResult (mode : Overlong) (sign : Bool) : Option (Nat × Nat) → VarIntResult
  | none => .insufficientData
  | some (m, k) => if 2 ^ 31 ≤ m ∧ mode = .fault then .varIntOverflow else .ok (signFold sign m) k

/-- R102: `varint_decode`. -/
def varintDecode (mode : Overlong) : List Byte → VarIntResult
  | [] => .insufficientData
  | b :: q => varintResult mode (b.getLsbD 6) (varintWalk 4 q 1 (b.toNat &&& 0x3F) (b.getLsbD 7))

/-! ### The commands -/

/-- R105: VPACK appends the encoding of one integer. -/
def vpackEnd (s : State) : CmdEnd :=
  let e := varintEncode s.argI32
  if s.cfg.vqCap < s.vq.length + e.length then .raise .capacityExceeded
  else .ok { s with vq := s.vq ++ e } (ofLength e.length)

/-- R106: VUNPACK decodes and removes one integer from the front. -/
def vunpackEnd (s : State) : CmdEnd :=
  match varintDecode s.cfg.overlong s.vq with
  | .insufficientData => .raise .insufficientData
  | .varIntOverflow => .raise .varIntOverflow
  | .ok v k => .ok { s with vq := s.vq.drop k } v

/-- R107: VCLEAR empties the queue. -/
def vclearEnd (s : State) : CmdEnd := .ok { s with vq := [] } 0

/-- R108: VGROW checks that room for `n` more bytes exists. -/
def vgrowEnd (s : State) : CmdEnd :=
  if s.cfg.vqCap < max (s.vq.length + s.argU32) varintMaxBytes then .raise .capacityExceeded
  else .ok s (ofLength (s.cfg.vqCap - s.vq.length))

/-- R109: VSIZE returns the queue length. -/
def vsizeEnd (s : State) : CmdEnd := .ok s (ofLength s.vq.length)

/-- R110: VPUSHB appends one raw byte. -/
def vpushbEnd (s : State) : CmdEnd :=
  if s.vq.length = s.cfg.vqCap then .raise .capacityExceeded
  else .ok { s with vq := s.vq ++ [s.argByte] } (ofLength (s.vq.length + 1))

/-! The meanings: each command completes with its end. -/

def execVpack (s : State) : Host.Outcome State Fault Refusal := complete s (vpackEnd s)

def execVunpack (s : State) : Host.Outcome State Fault Refusal := complete s (vunpackEnd s)

def execVclear (s : State) : Host.Outcome State Fault Refusal := complete s (vclearEnd s)

def execVgrow (s : State) : Host.Outcome State Fault Refusal := complete s (vgrowEnd s)

def execVsize (s : State) : Host.Outcome State Fault Refusal := complete s (vsizeEnd s)

def execVpushb (s : State) : Host.Outcome State Fault Refusal := complete s (vpushbEnd s)

end Sys2Proof.Machine
end

