-- ==== Sys2Proof/Machine/Dispatch.lean ====
section
/-! DEFINITION. Which meaning each command has: one arm per constructor. -/

namespace Sys2Proof.Machine

def exec (i : Instr) (s : State) : Host.Outcome State Fault Refusal :=
  match i with
  -- VarInt (40_varint.md)
  | .vpack => Sys2Proof.Machine.execVpack s
  | .vunpack => Sys2Proof.Machine.execVunpack s
  | .vclear => Sys2Proof.Machine.execVclear s
  | .vgrow => Sys2Proof.Machine.execVgrow s
  | .vsize => Sys2Proof.Machine.execVsize s
  | .vpushb => Sys2Proof.Machine.execVpushb s
  -- Huffman (41_huffman.md)
  | .hinit t => Sys2Proof.Machine.execHinit t s
  | .hcomp => Sys2Proof.Machine.execHcomp s
  | .hdecomp => Sys2Proof.Machine.execHdecomp s

end Sys2Proof.Machine
end

