-- ==== Sys2Proof/Machine/Flags.lean ====
section
/-! DEFINITION. STATUS, the block's only flags (10_state.md R23): the status codes as numbers and the register as a word. -/

namespace Sys2Proof.Machine

/-- R171: the number of a status code. -/
def StatusCode.code : StatusCode → BitVec 4
  | .ok => 0
  | .insufficientData => 1
  | .malformedText => 2
  | .unsupportedFieldKind => 3
  | .truncatedStream => 4
  | .notInitialized => 5
  | .capacityExceeded => 6
  | .illegalCommand => 7
  | .varIntOverflow => 8
  | .freqOverflow => 9

/-- STATUS.HREADY: 1 exactly when HSTATE = READY (R30). -/
def HState.ready? : HState → BitVec 1
  | .uninit => 0
  | .ready => 1

/-- R23: STATUS as a read returns it, ERR in bits 3:0, HREADY in bit 4, 31:5 hardwired 0. -/
def statusWord (s : State) : Word := (0 : BitVec 27) ++ s.hstate.ready? ++ s.err.code

end Sys2Proof.Machine
end

