-- ==== Sys2Proof/Machine/Bus.lean ====
section
/-! DEFINITION. The host's accesses: the address map of 20_memory.md R50 to R62, reads and writes of every location, commands (R64), and
reset (70_reset_and_hazards.md R190). -/

namespace Sys2Proof.Machine

/-! ### The address map -/

/-- The locations of R51 and R52. -/
inductive Loc where
  | cmd
  | arg
  | result
  | status
  | vqlen
  | capVq
  | capHin
  | capHout
  | id
  | freq (i : Nat)
  | codelen (i : Nat)
  | vqData (i : Nat)
  | hin (i : Nat)
  | hout (i : Nat)
  deriving DecidableEq, Repr

/-- REGION, bits 31:28 of an offset (R50). -/
def region (off : Word) : Nat := (off.extractLsb' 28 4).toNat

/-- INDEX, bits 27:2 of an offset (R50). -/
def index (off : Word) : Nat := (off.extractLsb' 2 26).toNat

/-- The control registers by INDEX (R52). -/
def ctrlLoc : Nat → Option Loc
  | 0 => some .cmd
  | 1 => some .arg
  | 2 => some .result
  | 3 => some .status
  | 4 => some .vqlen
  | 5 => some .capVq
  | 6 => some .capHin
  | 7 => some .capHout
  | 8 => some .id
  | _ => none

/-- The location at an aligned offset (R51), or none where R58 says there is none. -/
def locAt (c : Config) (off : Word) : Option Loc :=
  match region off with
  | 0 => ctrlLoc (index off)
  | 1 => if index off < 256 then some (.freq (index off)) else none
  | 2 => if index off < nsym then some (.codelen (index off)) else none
  | 3 => if index off < c.vqCap then some (.vqData (index off)) else none
  | 4 => if index off < c.hinCap then some (.hin (index off)) else none
  | 5 => if index off < c.houtCap then some (.hout (index off)) else none
  | _ => none

/-- The offset of entry `i` of region `r` (R51). -/
def offsetAt (r i : Nat) : Word := BitVec.ofNat 32 ((r <<< 28) ||| (i <<< 2))

/-- `offset(loc)` (R77, R51, R52). -/
def Loc.offset : Loc → Word
  | .cmd => offsetAt 0 0
  | .arg => offsetAt 0 1
  | .result => offsetAt 0 2
  | .status => offsetAt 0 3
  | .vqlen => offsetAt 0 4
  | .capVq => offsetAt 0 5
  | .capHin => offsetAt 0 6
  | .capHout => offsetAt 0 7
  | .id => offsetAt 0 8
  | .freq i => offsetAt 1 i
  | .codelen i => offsetAt 2 i
  | .vqData i => offsetAt 3 i
  | .hin i => offsetAt 4 i
  | .hout i => offsetAt 5 i

/-- No location at an offset is a bus error (R58). -/
def mapped : Option Loc → Except BusErrorCause Loc
  | some l => .ok l
  | none => .error .unmapped

/-- The location an access selects, or why it is a bus error: its size, its alignment (R59), then the map (R58). -/
def select (c : Config) (a : HostAccess) : Except BusErrorCause Loc :=
  if a.size ≠ 4 then .error .wrongSize
  else if a.off.extractLsb' 0 2 ≠ 0 then .error .misaligned
  else mapped (locAt c a.off)

/-! ### Reads -/

/-- ID: the bytes "HVC1" from the most significant down (R26). -/
def idWord : Word := 0x48564331

/-- What a read of a location returns. It changes nothing (R65). -/
def readLoc (s : State) : Loc → Word
  | .cmd => 0
  | .arg => s.arg
  | .result => s.result
  | .status => statusWord s
  | .vqlen => ofLength s.vq.length
  | .capVq => ofLength s.cfg.vqCap
  | .capHin => ofLength s.cfg.hinCap
  | .capHout => ofLength s.cfg.houtCap
  | .id => idWord
  | .freq i => s.freqAt i
  | .codelen i =>
    match s.hstate with
    | .uninit => 0
    | .ready => ofLength (codeAt s.code i).length
  | .vqData i => (s.vq.getD i 0).zeroExtend 32
  | .hin i => (s.hinAt i).zeroExtend 32
  | .hout i => (s.houtAt i).zeroExtend 32

/-! ### Writes and commands -/

/-- A write of `w` to CMD: the whole command, or IllegalCommand (R24, R64, R74). -/
def execWord (w : Word) (s : State) : Host.Outcome State Fault Refusal :=
  match decode w with
  | .ok i => exec i s
  | .error _ => illegalCommand s

/-- A write to a location; to a read-only one it is a bus error (R60). -/
def writeLoc (s : State) (w : Word) : Loc → Host.Outcome State Fault Refusal
  | .cmd => execWord w s
  | .arg => .next { s with arg := w }
  | .freq i => .next (s.setFreq i w)
  | .hin i => .next (s.setHin i (w.extractLsb' 0 8))
  | .result => .fault (.busError .readOnly)
  | .status => .fault (.busError .readOnly)
  | .vqlen => .fault (.busError .readOnly)
  | .capVq => .fault (.busError .readOnly)
  | .capHin => .fault (.busError .readOnly)
  | .capHout => .fault (.busError .readOnly)
  | .id => .fault (.busError .readOnly)
  | .codelen _ => .fault (.busError .readOnly)
  | .vqData _ => .fault (.busError .readOnly)
  | .hout _ => .fault (.busError .readOnly)

/-! ### Events at the host port -/

/-- Whether an agent may drive the instance: anyone first, then only the same one (R181, R197). -/
def admits (driver : Option Nat) (agent : Nat) : Bool :=
  match driver with
  | none => true
  | some d => d = agent

/-- The state in which an access of `agent` is served, the rest of the port behind it. -/
def State.accept (s : State) (agent : Nat) (rest : List HostEvent) : State := { s with port := rest, driver := some agent }

/-- Serves one access on the state it is accepted in, whole (R64). A bus error is a fault of the host (R61). -/
def serve (a : HostAccess) (s : State) : Host.Outcome State Fault Refusal :=
  match select s.cfg a with
  | .error c => .fault (.busError c)
  | .ok l =>
    match a.op with
    | .read => .next { s with reply := some (.readData (readLoc s l)) }
    | .write w => writeLoc { s with reply := some .writeDone } w l

/-- A platform reset (R190): every state at its reset value, and the draws drawn anew. -/
def State.resetNow (s : State) (rest : List HostEvent) : State := { State.resetWith s.cfg (s.epoch + 1) with port := rest }

/-- Takes the first event at the port. -/
def takeEvent (e : HostEvent) (rest : List HostEvent) (s : State) : Host.Outcome State Fault Refusal :=
  match e with
  | .reset => .next (s.resetNow rest)
  | .access a => if admits s.driver a.agent then serve a (s.accept a.agent rest) else .refused .secondAgent

/-- What the block itself does at a bus error, which `step` reports as a fault of the host (R61): the access is dropped, nothing else
changes, and the host receives an error response, with read data 0. -/
def State.busErrorView (s : State) : State := { s with port := s.port.tail, reply := some (.error 0) }

/-- A host write of a command word to CMD, put first at the port by the agent that drives the instance. -/
def State.withCommand (s : State) (w : Word) : State :=
  { s with port := .access ⟨s.driver.getD 0, 4, Loc.cmd.offset, .write w⟩ :: s.port }

end Sys2Proof.Machine
end

