-- ==== Sys2Proof/Machine/Step.lean ====
section
/-! DEFINITION. One step: the first event at the host port, whole (20_memory.md R64, R67). -/

namespace Sys2Proof.Machine

/-- A step serves the first event at the port; with none the block waits and nothing changes (R65 (d), R191). -/
def step (s : State) : Host.Outcome State Fault Refusal :=
  match s.port with
  | [] => .next s
  | e :: rest => takeEvent e rest s

/-- The state whose next step runs the command word `w` of `nbits` bits: the host's write of it to CMD comes next. -/
def State.withFetchWord (s : State) (nbits w : Nat) : State := s.withCommand (tableWord nbits w)

end Sys2Proof.Machine
end

