-- ==== Sys2Proof/Machine/HostProgram.lean ====
section
/-! DEFINITION. Host programs in the form of 30_encoding.md R77 and R78: what a host outside the block does to its port. The block has no
control flow (R37); branches, labels and variables are the host's, and nothing here is part of State or of its step. -/

namespace Sys2Proof.Machine

/-- `<expr>`: the forms the spec's programs use (R77; DESIGN CHOICE, log 9). -/
inductive HostExpr where
  | lit (w : Word)
  | var (h : String)
  | add (a b : HostExpr)
  /-- `ERR(h)`, which is `h[3:0]`. -/
  | err (h : HostExpr)
  /-- `HREADY(h)`, which is `h[4]`. -/
  | hready (h : HostExpr)
  deriving DecidableEq, Repr

/-- `<loc>`: a register's name, or an entry of a window by its region (R51). -/
inductive HostLoc where
  | reg (l : Loc)
  | entry (region : Nat) (e : HostExpr)
  deriving DecidableEq, Repr

/-- The host operations of R77. -/
inductive HostCode where
  | cmd (i : Instr)
  | wr (l : HostLoc) (e : HostExpr)
  | rd (l : HostLoc) (h : String)
  | set (h : String) (e : HostExpr)
  | label (name : String)
  | jmp (name : String)
  | beq (a b : HostExpr) (name : String)
  | bne (a b : HostExpr) (name : String)
  | bltu (a b : HostExpr) (name : String)
  | assertEq (a b : HostExpr)
  deriving DecidableEq, Repr

/-- A host and the block it drives: its agent number, its variables, latest first, and its position in its program (R77). -/
structure HostState where
  block : State
  agent : Nat
  vars : List (String × Word)
  pos : Nat
  deriving DecidableEq, Repr

/-- How one host operation ends. -/
inductive HostEnd where
  | running (h : HostState)
  /-- No operation is left. -/
  | finished (h : HostState)
  /-- An ASSERT does not hold. -/
  | assertFailed (h : HostState)
  /-- The block reported a bus error. -/
  | busFault (f : Fault)
  /-- The block refused the access. -/
  | refused (r : Refusal)
  /-- A variable without a value, or a label the program does not hold: the text is no program (DESIGN CHOICE, log 9). -/
  | noProgram

/-- The value of an expression. -/
def HostExpr.eval (vars : List (String × Word)) : HostExpr → Option Word
  | .lit w => some w
  | .var h => vars.lookup h
  | .add a b => do return (← a.eval vars) + (← b.eval vars)
  | .err h => do return (← h.eval vars) &&& 0xF
  | .hready h => do return ((← h.eval vars) >>> 4) &&& 1

/-- `offset(loc)` (R77). -/
def HostLoc.offset (vars : List (String × Word)) : HostLoc → Option Word
  | .reg l => some l.offset
  | .entry r e => do return offsetAt r (← e.eval vars).toNat

/-- One access of the host, served at once; `k` goes on from the block's next state. -/
def hostAccess (h : HostState) (off : Word) (op : HostOp) (k : State → HostEnd) : HostEnd :=
  match step { h.block with port := [.access ⟨h.agent, 4, off, op⟩] } with
  | .next t => k t
  | .fault f => .busFault f
  | .refused r => .refused r

/-- Goes on at the operation after a label: the first of that name where a program has it twice (DESIGN CHOICE, log 9). -/
def hostJump (prog : List HostCode) (h : HostState) (name : String) : HostEnd :=
  match prog.findIdx? (fun c => c = .label name) with
  | some i => .running { h with pos := i }
  | none => .noProgram

/-- A branch on a comparison of two expressions. -/
def hostBranch (prog : List HostCode) (h : HostState) (a b : HostExpr) (test : Word → Word → Bool) (name : String) : HostEnd :=
  match a.eval h.vars, b.eval h.vars with
  | some x, some y => if test x y then hostJump prog h name else .running { h with pos := h.pos + 1 }
  | _, _ => .noProgram

/-- One host operation (R77). -/
def hostStep (prog : List HostCode) (h : HostState) : HostEnd :=
  match prog[h.pos]? with
  | none => .finished h
  | some (.cmd i) => hostAccess h Loc.cmd.offset (.write (encode i)) fun t => .running { h with block := t, pos := h.pos + 1 }
  | some (.wr l e) =>
    match l.offset h.vars, e.eval h.vars with
    | some off, some v => hostAccess h off (.write v) fun t => .running { h with block := t, pos := h.pos + 1 }
    | _, _ => .noProgram
  | some (.rd l x) =>
    match l.offset h.vars with
    | some off => hostAccess h off .read fun t =>
      match t.reply with
      | some (.readData v) => .running { h with block := t, vars := (x, v) :: h.vars, pos := h.pos + 1 }
      | _ => .noProgram
    | none => .noProgram
  | some (.set x e) =>
    match e.eval h.vars with
    | some v => .running { h with vars := (x, v) :: h.vars, pos := h.pos + 1 }
    | none => .noProgram
  | some (.label _) => .running { h with pos := h.pos + 1 }
  | some (.jmp name) => hostJump prog h name
  | some (.beq a b name) => hostBranch prog h a b (fun x y => x = y) name
  | some (.bne a b name) => hostBranch prog h a b (fun x y => x ≠ y) name
  | some (.bltu a b name) => hostBranch prog h a b (fun x y => x.toNat < y.toNat) name
  | some (.assertEq a b) =>
    match a.eval h.vars, b.eval h.vars with
    | some x, some y => if x = y then .running { h with pos := h.pos + 1 } else .assertFailed h
    | _, _ => .noProgram

/-- Up to `k` host operations. -/
def hostRun (prog : List HostCode) : Nat → HostState → HostEnd
  | 0, h => .running h
  | k + 1, h =>
    match hostStep prog h with
    | .running h' => hostRun prog k h'
    | other => other

/-! ### Pseudo-instructions (R78) -/

/-- `VPACK #v`. -/
def pseudoVpack (v : Word) : List HostCode := [.wr (.reg .arg) (.lit v), .cmd .vpack]

/-- `VGROW #n`. -/
def pseudoVgrow (n : Word) : List HostCode := [.wr (.reg .arg) (.lit n), .cmd .vgrow]

/-- `VPUSHB #b`. -/
def pseudoVpushb (b : Word) : List HostCode := [.wr (.reg .arg) (.lit b), .cmd .vpushb]

/-- `HCOMP #n`. -/
def pseudoHcomp (n : Word) : List HostCode := [.wr (.reg .arg) (.lit n), .cmd .hcomp]

/-- `HDECOMP #n`. -/
def pseudoHdecomp (n : Word) : List HostCode := [.wr (.reg .arg) (.lit n), .cmd .hdecomp]

/-- `LOADFREQ t`: 256 writes in ascending order. -/
def pseudoLoadFreq (t : Vector Word 256) : List HostCode :=
  t.toList.zipIdx.map fun p => .wr (.reg (.freq p.2)) (.lit p.1)

/-- `LOADHIN b0, ..., bk-1`. -/
def pseudoLoadHin (bs : List Byte) : List HostCode :=
  bs.zipIdx.map fun p => .wr (.reg (.hin p.2)) (.lit (p.1.zeroExtend 32))

/-- `CHECK e`, with a host variable of its own. -/
def pseudoCheck (h : String) (e : Word) : List HostCode := [.rd (.reg .status) h, .assertEq (.err (.var h)) (.lit e)]

end Sys2Proof.Machine
end

