-- ==== Sys2Proof/Safety.lean ====
section
/-! DEFINITION. What claims call a good state and a safe run. -/

namespace Sys2Proof.Machine

/-- Weights an HINIT may install under parameters `c` (41_huffman.md R131, R132): 257 of them, the sentinel's last, no overflow. -/
abbrev InstalledWeights (c : Config) (w : List Nat) : Prop := w.length = nsym ∧ w[sentinelSym]? = some c.sentinelFreq.toNat ∧ w.sum ≤ u32Max

/-- What NODE and CODE hold when HSTATE = READY (R31, R32): the tree of installed weights and its codes. -/
def State.TreeReady (s : State) : Prop :=
  s.hstate = .ready → ∃ w, InstalledWeights s.cfg w ∧ s.node = buildTree w ∧ s.code = codesOf s.node

/-- The invariant of the machine: legal parameters, VQ within its capacity (R27), every buffer canonical and within its size, no reserved
status code (R171), and the tree of R31 when READY. -/
structure State.Inv (s : State) : Prop where
  cfg : s.cfg.Legal
  vq : s.vq.length ≤ s.cfg.vqCap
  freq : Store.wf s.freq ∧ Store.Below 256 s.freq
  hin : Memory.wf s.hin ∧ Store.Below s.cfg.hinCap s.hin
  hout : Memory.wf s.hout ∧ Store.Below s.cfg.houtCap s.hout
  err : s.err ≠ .malformedText ∧ s.err ≠ .unsupportedFieldKind
  tree : s.TreeReady

/-- A run of `k` steps that no bus error and no second agent ends. -/
def SafeRun (k : Nat) (s : State) : Prop := ∃ t, Sys2Proof.core.run k s = .next t

/-- An access no rule makes a bus error: mapped, aligned, 32 bits wide, and no write to a read-only location (H-4). -/
def HostAccess.Allowed (c : Config) (a : HostAccess) : Prop :=
  ∃ l, select c a = .ok l ∧ (a.op = .read ∨ l = .cmd ∨ l = .arg ∨ (∃ i, l = .freq i) ∨ ∃ i, l = .hin i)

/-- The states a host sees that writes ARG and then CMD, once per entry: the state after each command. -/
def commandRun : List (Word × Instr) → State → List State
  | [], _ => []
  | (v, i) :: rest, s =>
    match exec i { s with arg := v } with
    | .next t => t :: commandRun rest t
    | _ => []

/-- The weight a node of a tree carries. -/
def nodeFreq (node : List Node) (n : Nat) : Nat :=
  match node[n]? with
  | some (.leaf _ f) => f
  | some (.internal _ _ f) => f
  | none => 0

/-- Node `n` is internal with the two given children. -/
def IsInternal (node : List Node) (n a b : Nat) : Prop := ∃ f, node[n]? = some (.internal a b f)

end Sys2Proof.Machine
end

