-- ==== Sys2Proof/Certificates/Slice0/Obligations.lean ====
section
/-! DEFINITION. The statements about HVC, each from the numbered rules its docstring names. They hold for every configuration, since State
carries it; `s.cfg.Legal` stands where a statement needs the constraints of R5. -/

open Sys2Proof Sys2Proof.Machine

/-! ### Command words -/

/-- R72: each word of the opcode map decodes to its command; and every command, which is well formed, is what its own word decodes to. -/
def Obligations.OpcodeMapDecodesAndRoundTrips : Prop :=
  (decode 0x00000001 = .ok .vpack ∧ decode 0x00000002 = .ok .vunpack ∧ decode 0x00000003 = .ok .vclear ∧
    decode 0x00000004 = .ok .vgrow ∧ decode 0x00000005 = .ok .vsize ∧ decode 0x00000006 = .ok .vpushb ∧
    decode 0x00000008 = .ok (.hinit .builtin) ∧ decode 0x00000018 = .ok (.hinit .freq) ∧
    decode 0x00000009 = .ok .hcomp ∧ decode 0x0000000A = .ok .hdecomp) ∧
  ∀ i : Instr, i.wellFormed = true ∧ decode (encode i) = .ok i

/-- R74, R75: over all 2^32 words, the decoder rejects exactly the words with one of R74's three faults, and accepts exactly ten,
each a command's own word. -/
def Obligations.DecoderAcceptsExactlyTheLegalWords : Prop :=
  (∀ w : Word, (∃ r, decode w = .error r) ↔
    w.extractLsb' 5 27 ≠ 0 ∨ w.extractLsb' 0 4 ∈ [0x0#4, 0x7#4, 0xB#4, 0xC#4, 0xD#4, 0xE#4, 0xF#4] ∨
      (w.getLsbD 4 = true ∧ w.extractLsb' 0 4 ≠ 0x8#4)) ∧
  (∀ w : Word, (∃ i, decode w = .ok i) ↔ w ∈ [0x01#32, 0x02#32, 0x03#32, 0x04#32, 0x05#32, 0x06#32, 0x08#32, 0x09#32, 0x0A#32, 0x18#32]) ∧
  ∀ (w : Word) (i : Instr), decode w = .ok i ↔ w = encode i

/-! ### The VarInt format -/

/-- R101: the length of an encoding by the value's range, and what a 5th byte holds. -/
def Obligations.VarintEncodedLengthByRange : Prop :=
  ∀ v : Word,
    ((varintEncode v).length = 1 ↔ -64 ≤ v.toInt ∧ v.toInt < 64) ∧
    ((varintEncode v).length = 2 ↔ (-8192 ≤ v.toInt ∧ v.toInt < 8192) ∧ ¬(-64 ≤ v.toInt ∧ v.toInt < 64)) ∧
    ((varintEncode v).length = 3 ↔ (-1048576 ≤ v.toInt ∧ v.toInt < 1048576) ∧ ¬(-8192 ≤ v.toInt ∧ v.toInt < 8192)) ∧
    ((varintEncode v).length = 4 ↔ (-134217728 ≤ v.toInt ∧ v.toInt < 134217728) ∧ ¬(-1048576 ≤ v.toInt ∧ v.toInt < 1048576)) ∧
    ((varintEncode v).length = 5 ↔ ¬(-134217728 ≤ v.toInt ∧ v.toInt < 134217728)) ∧
    ∀ b, (varintEncode v)[4]? = some b → b.getLsbD 7 = false ∧ b.extractLsb' 4 3 = 0

/-- R104: the round trip, in both modes, whatever bytes follow. -/
def Obligations.VarintDecodeOfEncode : Prop :=
  ∀ (mode : Overlong) (v : Word) (q : List Byte), varintDecode mode (varintEncode v ++ q) = .ok v (varintEncode v).length

/-- R102: a decoding takes 1 to 5 bytes that are there, and the bytes after them do not matter. -/
def Obligations.VarintDecodeReadsOnlyWhatItConsumes : Prop :=
  ∀ (mode : Overlong) (q : List Byte) (v : Word) (k : Nat), varintDecode mode q = .ok v k →
    1 ≤ k ∧ k ≤ 5 ∧ k ≤ q.length ∧ ∀ r, varintDecode mode (q.take k ++ r) = .ok v k

/-- R102: the value decoded is the sum of the chunks, 6 bits and then 7 bits each, modulo 2^32, and its NOT when the sign flag is set. -/
def Obligations.VarintDecodedValueIsTheSumOfChunks : Prop :=
  ∀ (mode : Overlong) (b : Byte) (q : List Byte) (v : Word) (k : Nat), varintDecode mode (b :: q) = .ok v k →
    v = signFold (b.getLsbD 6)
      (b.toNat % 64 + (((q.take (k - 1)).zipIdx.map fun p => p.1.toNat % 128 * 2 ^ (6 + 7 * p.2)).sum))

/-- R102: exactly when each error arises. -/
def Obligations.VarintDecodeErrorsExactlyWhen : Prop :=
  ∀ (mode : Overlong) (q : List Byte),
    (varintDecode mode q = .insufficientData ↔ q.length < 5 ∧ ∀ b ∈ q, b.getLsbD 7 = true) ∧
    (varintDecode mode q = .varIntOverflow ↔
      mode = .fault ∧ (∀ b ∈ q.take 4, b.getLsbD 7 = true) ∧ ∃ b, q[4]? = some b ∧ b.extractLsb' 4 3 ≠ 0)

/-! ### The VarInt commands -/

/-- R105. -/
def Obligations.VpackAppendsTheEncoding : Prop :=
  (∀ s : State, s.vq.length + (varintEncode s.arg).length ≤ s.cfg.vqCap →
    exec .vpack s = .next { s with
      vq := s.vq ++ varintEncode s.arg, result := BitVec.ofNat 32 (varintEncode s.arg).length, err := .ok }) ∧
  (∀ s : State, s.cfg.vqCap < s.vq.length + (varintEncode s.arg).length → exec .vpack s = .next { s with err := .capacityExceeded }) ∧
  varintEncode 0x00000000 = [0x00] ∧ varintEncode 0xFFFFFFFF = [0x40] ∧
  varintEncode 0x80000000 = [0xFF, 0xFF, 0xFF, 0xFF, 0x0F] ∧ varintEncode 64 = [0x80, 0x01] ∧ encode .vpack = 0x00000001

/-- R106. -/
def Obligations.VunpackRemovesTheFrontValue : Prop :=
  (∀ (s : State) (v : Word) (k : Nat), varintDecode s.cfg.overlong s.vq = .ok v k →
    exec .vunpack s = .next { s with vq := s.vq.drop k, result := v, err := .ok }) ∧
  (∀ s : State, varintDecode s.cfg.overlong s.vq = .insufficientData → exec .vunpack s = .next { s with err := .insufficientData }) ∧
  (∀ s : State, varintDecode s.cfg.overlong s.vq = .varIntOverflow → exec .vunpack s = .next { s with err := .varIntOverflow }) ∧
  encode .vunpack = 0x00000002

/-- R104 and R106 together: VUNPACK returns the value whose encoding stands at the front, and leaves what stands behind it. -/
def Obligations.VunpackReturnsTheEncodedValue : Prop :=
  ∀ (s : State) (v : Word) (rest : List Byte), s.vq = varintEncode v ++ rest →
    exec .vunpack s = .next { s with vq := rest, result := v, err := .ok }

/-- The source's sequential concatenation (R104, V3): values packed in sequence into an empty queue that holds them all come back in order,
each command succeeding. -/
def Obligations.PackedSequenceUnpacksInOrder : Prop :=
  ∀ (s : State) (vs : List Word), s.vq = [] → (vs.map fun v => (varintEncode v).length).sum ≤ s.cfg.vqCap →
    ∀ t, (s :: commandRun (vs.map fun v => (v, .vpack)) s).getLast? = some t →
      (commandRun (vs.map fun _ => (0, .vunpack)) t).map (fun u => (u.err, u.result)) = vs.map fun v => (.ok, v)

/-- R107, R109. -/
def Obligations.VclearEmptiesAndVsizeReturnsTheLength : Prop :=
  (∀ s : State, exec .vclear s = .next { s with vq := [], result := 0, err := .ok }) ∧
  (∀ s : State, exec .vsize s = .next { s with result := BitVec.ofNat 32 s.vq.length, err := .ok }) ∧
  encode .vclear = 0x00000003 ∧ encode .vsize = 0x00000005

/-- R108: the check; the empty queue with n = 0; and what a success guarantees: an append that keeps the bytes appended since then within n does not
raise CapacityExceeded. -/
def Obligations.VgrowChecksTheFreeSpace : Prop :=
  (∀ s : State, max (s.vq.length + s.arg.toNat) 5 ≤ s.cfg.vqCap →
    exec .vgrow s = .next { s with result := BitVec.ofNat 32 (s.cfg.vqCap - s.vq.length), err := .ok }) ∧
  (∀ s : State, s.cfg.vqCap < max (s.vq.length + s.arg.toNat) 5 → exec .vgrow s = .next { s with err := .capacityExceeded }) ∧
  (∀ s : State, s.cfg.Legal → s.vq = [] → s.arg = 0 → ∃ t, exec .vgrow s = .next t ∧ t.err = .ok) ∧
  (∀ s t u : State, exec .vgrow s = .next t → t.err = .ok → u.cfg = t.cfg →
    (u.vq.length + (varintEncode u.arg).length ≤ t.vq.length + s.arg.toNat → ∃ u', exec .vpack u = .next u' ∧ u'.err = .ok) ∧
    (u.vq.length + 1 ≤ t.vq.length + s.arg.toNat → ∃ u', exec .vpushb u = .next u' ∧ u'.err = .ok)) ∧
  encode .vgrow = 0x00000004

/-- R110. -/
def Obligations.VpushbAppendsOneByte : Prop :=
  (∀ s : State, s.vq.length < s.cfg.vqCap →
    exec .vpushb s = .next { s with
      vq := s.vq ++ [s.arg.extractLsb' 0 8], result := BitVec.ofNat 32 (s.vq.length + 1), err := .ok }) ∧
  (∀ s : State, s.vq.length = s.cfg.vqCap → exec .vpushb s = .next { s with err := .capacityExceeded }) ∧
  encode .vpushb = 0x00000006

/-- R195, R55: the VQ_DATA window counts from the current front. After a VUNPACK that consumes k bytes, entry i reads what entry i + k read; after a
VCLEAR every entry reads 0. -/
def Obligations.VqWindowFollowsTheFront : Prop :=
  (∀ (s t : State) (v : Word) (k : Nat), varintDecode s.cfg.overlong s.vq = .ok v k → exec .vunpack s = .next t →
    ∀ i, readLoc t (.vqData i) = readLoc s (.vqData (i + k))) ∧
  ∀ (s t : State), exec .vclear s = .next t → ∀ i, readLoc t (.vqData i) = 0

/-! ### How commands end -/

/-- R170, R177: every command completes, and what STATUS.ERR held before does not matter to it. -/
def Obligations.EveryCommandCompletesWhateverErrHeld : Prop :=
  ∀ (i : Instr) (s : State), (∃ t, exec i s = .next t) ∧ ∀ e, exec i { s with err := e } = exec i s

/-- R172: a command that ends in an error has changed STATUS.ERR and nothing else. -/
def Obligations.ErrorChangesOnlyErr : Prop :=
  ∀ (i : Instr) (s t : State), exec i s = .next t → t.err ≠ .ok → t = { s with err := t.err }

/-- R173: what RESULT holds after each command that succeeds. The counts are those of the bytes appended, free, held and written. -/
def Obligations.SuccessWritesResult : Prop :=
  ∀ (s t : State), s.Inv → ∀ i, exec i s = .next t → t.err = .ok →
    (i = .vpack → t.result.toNat = t.vq.length - s.vq.length ∧ 1 ≤ t.result.toNat ∧ t.result.toNat ≤ 5) ∧
    (i = .vunpack → ∃ k, varintDecode s.cfg.overlong s.vq = .ok t.result k) ∧
    (i = .vclear → t.result = 0) ∧
    (i = .vgrow → t.result.toNat = s.cfg.vqCap - s.vq.length) ∧
    (i = .vsize → t.result.toNat = s.vq.length) ∧
    (i = .vpushb → t.result.toNat = t.vq.length) ∧
    (∀ sel, i = .hinit sel → (∀ x, x < 257 → (codeAt t.code x).length ≤ t.result.toNat) ∧
      (∃ x, x < 257 ∧ (codeAt t.code x).length = t.result.toNat) ∧ 1 ≤ t.result.toNat ∧ t.result.toNat ≤ 256) ∧
    (i = .hcomp → t.result.toNat = (huffEncode s.cfg.bitOrder s.code (s.hinBytes s.arg.toNat)).length ∧ 1 ≤ t.result.toNat) ∧
    (i = .hdecomp → ∃ out, huffDecode s.cfg.bitOrder s.node (s.hinBytes s.arg.toNat) s.cfg.houtCap = .ok out ∧ t.result.toNat = out.length)

/-- R175: the status codes each command, and an illegal word, can leave. -/
def Obligations.PossibleStatusOfEachCommand : Prop :=
  (∀ (i : Instr) (s t : State), exec i s = .next t →
    match i with
    | .vpack => t.err ∈ [.ok, .capacityExceeded]
    | .vunpack => t.err ∈ [.ok, .insufficientData] ∨ (t.err = .varIntOverflow ∧ s.cfg.overlong = .fault)
    | .vclear => t.err = .ok
    | .vgrow => t.err ∈ [.ok, .capacityExceeded]
    | .vsize => t.err = .ok
    | .vpushb => t.err ∈ [.ok, .capacityExceeded]
    | .hinit _ => t.err ∈ [.ok, .freqOverflow]
    | .hcomp => t.err ∈ [.ok, .notInitialized, .capacityExceeded]
    | .hdecomp => t.err ∈ [.ok, .truncatedStream, .notInitialized, .capacityExceeded]) ∧
  ∀ (w : Word) (r : IllegalWord) (s t : State), decode w = .error r → execWord w s = .next t → t.err = .illegalCommand

/-- R23, R171: the fields of STATUS and the numbers of the status codes. -/
def Obligations.StatusFieldsAndCodes : Prop :=
  (∀ s : State, (statusWord s).extractLsb' 0 4 = s.err.code ∧ ((statusWord s).getLsbD 4 = true ↔ s.hstate = .ready) ∧
    (statusWord s).extractLsb' 5 27 = 0) ∧
  StatusCode.ok.code = 0 ∧ StatusCode.insufficientData.code = 1 ∧ StatusCode.malformedText.code = 2 ∧
    StatusCode.unsupportedFieldKind.code = 3 ∧ StatusCode.truncatedStream.code = 4 ∧ StatusCode.notInitialized.code = 5 ∧
    StatusCode.capacityExceeded.code = 6 ∧ StatusCode.illegalCommand.code = 7 ∧ StatusCode.varIntOverflow.code = 8 ∧
    StatusCode.freqOverflow.code = 9

/-! ### Frames -/

/-- R21, R27, R29, R34 and the command rules: what a VarInt command leaves as it was. VGROW and VSIZE leave VQ too. -/
def Obligations.VarintCommandsLeaveTheRest : Prop :=
  ∀ (i : Instr) (s t : State), i ∈ [.vpack, .vunpack, .vclear, .vgrow, .vsize, .vpushb] → exec i s = .next t →
    t.cfg = s.cfg ∧ t.arg = s.arg ∧ t.hstate = s.hstate ∧ t.node = s.node ∧ t.code = s.code ∧ t.freq = s.freq ∧
    (∀ a, t.hinAt a = s.hinAt a) ∧ (∀ a, t.houtAt a = s.houtAt a) ∧ t.hin = s.hin ∧ t.hout = s.hout ∧
    t.port = s.port ∧ t.reply = s.reply ∧ t.driver = s.driver ∧ t.epoch = s.epoch ∧
    (i = .vgrow ∨ i = .vsize → t.vq = s.vq)

/-- R21, R27, R29, R33, R34, R35 and the command rules: what a Huffman command leaves as it was. HINIT leaves all but ERR, RESULT, HSTATE, NODE and
CODE; HCOMP and HDECOMP leave all but ERR, RESULT and `HOUT[0 ..< RESULT]`, and on an error HOUT too. -/
def Obligations.HuffmanCommandsLeaveTheRest : Prop :=
  (∀ (i : Instr) (s t : State), i ∈ [.hinit .builtin, .hinit .freq, .hcomp, .hdecomp] → exec i s = .next t →
    t.cfg = s.cfg ∧ t.arg = s.arg ∧ t.vq = s.vq ∧ t.freq = s.freq ∧ t.hin = s.hin ∧
    (∀ a, t.freqAt a = s.freqAt a) ∧ (∀ a, t.hinAt a = s.hinAt a) ∧
    t.port = s.port ∧ t.reply = s.reply ∧ t.driver = s.driver ∧ t.epoch = s.epoch) ∧
  (∀ (sel : TableSel) (s t : State), exec (.hinit sel) s = .next t → t.hout = s.hout ∧ ∀ a, t.houtAt a = s.houtAt a) ∧
  ∀ (i : Instr) (s t : State), s.cfg.Legal → i ∈ [.hcomp, .hdecomp] → exec i s = .next t →
    t.hstate = s.hstate ∧ t.node = s.node ∧ t.code = s.code ∧
    (t.err = .ok → ∀ a, t.result.toNat ≤ a → t.houtAt a = s.houtAt a) ∧
    (t.err ≠ .ok → t.hout = s.hout ∧ ∀ a, t.houtAt a = s.houtAt a)

/-- R13: the VarInt queue and the Huffman unit share no state. A VarInt command does the same, to the queue and the registers, whatever the
Huffman unit holds; and a Huffman command does the same, to the Huffman unit and the registers, whatever the queue holds. -/
def Obligations.CodecsShareNoState : Prop :=
  (∀ (i : Instr) (s t : State) (f : Store 32) (h : HState) (n : List Node) (c : List Bits) (bi bo : Memory),
    i ∈ [.vpack, .vunpack, .vclear, .vgrow, .vsize, .vpushb] → exec i s = .next t →
      exec i { s with freq := f, hstate := h, node := n, code := c, hin := bi, hout := bo } =
        .next { t with freq := f, hstate := h, node := n, code := c, hin := bi, hout := bo }) ∧
  ∀ (i : Instr) (s t : State) (q : List Byte), i ∈ [.hinit .builtin, .hinit .freq, .hcomp, .hdecomp] → exec i s = .next t →
    exec i { s with vq := q } = .next { t with vq := q }

/-! ### Tree and codes -/

/-- R133: the sort returns the one permutation that is non-increasing by weight and keeps ties in their order. -/
def Obligations.StableSortIsTheUniqueStablePermutation : Prop :=
  ∀ (f : CNode → Nat) (l : List CNode),
    (stableSortDesc f l).Perm l ∧ (stableSortDesc f l).Pairwise (fun x y => f y ≤ f x) ∧
    (∀ n, (stableSortDesc f l).filter (fun x => f x = n) = l.filter (fun x => f x = n)) ∧
    ∀ p : List CNode, p.Perm l → p.Pairwise (fun x y => f y ≤ f x) →
      (∀ n, p.filter (fun x => f x = n) = l.filter (fun x => f x = n)) → p = stableSortDesc f l

/-- R135, R31, R132: 257 leaves in symbol order with their weights; 256 internal nodes, each with two lower-numbered children and the sum of their
weights; every node but the root a child of exactly one; and when the weights pass HINIT's check, every node's fits in 32 bits. -/
def Obligations.TreeHasItsShape : Prop :=
  ∀ w : List Nat, w.length = 257 →
    (buildTree w).length = 513 ∧
    (∀ x (h : x < w.length), (buildTree w)[x]? = some (.leaf x w[x])) ∧
    (∀ n, 257 ≤ n → n ≤ 512 → ∃ a b, a < n ∧ b < n ∧ a ≠ b ∧
      (buildTree w)[n]? = some (.internal a b (nodeFreq (buildTree w) a + nodeFreq (buildTree w) b))) ∧
    (∀ m, m < 512 → ∃ n, (∃ a b, IsInternal (buildTree w) n a b ∧ (m = a ∨ m = b)) ∧
      ∀ n', (∃ a b, IsInternal (buildTree w) n' a b ∧ (m = a ∨ m = b)) → n' = n) ∧
    (w.sum ≤ u32Max → (∀ n, nodeFreq (buildTree w) n < 2 ^ 32) ∧ nodeFreq (buildTree w) 512 = w.sum)

/-- R134: nodes 0 to 256 are the leaves; the construction list begins as the leaves in symbol order with their weights; each of the 256 passes sorts it, makes the last element child0
and the one before it child1 of the next node, with the sum of their weights, and puts that node at the tail; one element, the root, is left. -/
def Obligations.TreeMergesTheTwoLast : Prop :=
  ∀ w : List Nat, w.length = 257 → (∀ x (h : x < w.length), (buildTree w)[x]? = some (.leaf x w[x])) ∧ (buildTree w).length = 513 ∧
    ∃ l : Nat → List CNode, (l 0).map CNode.id = List.range 257 ∧ (l 0).map CNode.freq = w ∧
    (∀ i, i < 256 → ∃ rest a b, stableSortDesc CNode.freq (l i) = rest ++ [b, a] ∧
      (buildTree w)[257 + i]? = some (.internal a.id b.id (a.freq + b.freq)) ∧
      l (i + 1) = rest ++ [⟨257 + i, a.freq + b.freq⟩]) ∧
    (l 256).map CNode.id = [512]

/-- R136: one full sort and then insertions build the same tree as a full sort in every pass. -/
def Obligations.InsertionFormBuildsTheSameTree : Prop :=
  ∀ w : List Nat, insertionTree w = buildTree w

/-- R137: the codes are the paths from the root: some assignment of bit strings to the nodes gives the root the empty one, extends a node's by
0 to child0 and by 1 to child1, and gives every symbol its code. -/
def Obligations.CodesAreTheTreePaths : Prop :=
  ∀ w : List Nat, w.length = 257 → ∃ path : Nat → Bits, path 512 = [] ∧
    (∀ n a b, IsInternal (buildTree w) n a b → path a = path n ++ [false] ∧ path b = path n ++ [true]) ∧
    (codesOf (buildTree w)).length = 257 ∧ ∀ x, x < 257 → codeAt (codesOf (buildTree w)) x = path x

/-- R138 (a): no code is a prefix of another symbol's. -/
def Obligations.CodesArePrefixFree : Prop :=
  ∀ w : List Nat, w.length = 257 → ∀ x y, x < 257 → y < 257 → x ≠ y →
    ¬ codeAt (codesOf (buildTree w)) x <+: codeAt (codesOf (buildTree w)) y

/-- R138 (b) and (c): codes have 1 to 256 bits, and are complete: the powers 2^(-length) sum to 1, here multiplied by 2^256. -/
def Obligations.CodesAreBoundedAndComplete : Prop :=
  ∀ w : List Nat, w.length = 257 →
    (∀ x, x < 257 → 1 ≤ (codeAt (codesOf (buildTree w)) x).length ∧ (codeAt (codesOf (buildTree w)) x).length ≤ 256) ∧
    ((codesOf (buildTree w)).map fun c => 2 ^ (256 - c.length)).sum = 2 ^ 256

/-! ### The Huffman stream -/

/-- R63: packed bytes hold the given stream bits, and no other bytes of that number do; the two orders of a byte's bits. -/
def Obligations.PackBitsHoldsTheStream : Prop :=
  (∀ (o : BitOrder) (bits : Bits) (n : Nat), bits.length = 8 * n →
    (packBits o bits).length = n ∧ (∀ j (h : j < bits.length), streamBit o (packBits o bits) j = bits[j]) ∧
    ∀ bs : List Byte, bs.length = n → (∀ j (h : j < bits.length), streamBit o bs j = bits[j]) → bs = packBits o bits) ∧
  ∀ (bs : List Byte) (j : Nat) (b : Byte), bs[j / 8]? = some b →
    streamBit .msbFirst bs j = b.getLsbD (7 - j % 8) ∧ streamBit .lsbFirst bs j = b.getLsbD (j % 8)

/-- R145, the pure law, with what R143 adds: bytes after the sentinel's do not matter. -/
def Obligations.HuffDecodeOfEncode : Prop :=
  ∀ (w : List Nat) (o : BitOrder) (d extra : List Byte) (cap : Nat), w.length = 257 → d.length ≤ cap →
    huffDecode o (buildTree w) (huffEncode o (codesOf (buildTree w)) d ++ extra) cap = .ok d

/-- R143: a decoding that has an outcome before the bits run out has it whatever bytes follow. -/
def Obligations.HuffDecodeIgnoresWhatFollows : Prop :=
  ∀ (o : BitOrder) (node : List Node) (bs extra : List Byte) (cap : Nat), huffDecode o node bs cap ≠ .truncatedStream →
    huffDecode o node (bs ++ extra) cap = huffDecode o node bs cap

/-- R146: how long a compression is, `ceil` written as the least whole number of bytes. -/
def Obligations.CompressedSizeBounds : Prop :=
  ∀ (w : List Nat) (o : BitOrder) (d : List Byte), w.length = 257 →
    1 ≤ (huffEncode o (codesOf (buildTree w)) d).length ∧
    (huffEncode o (codesOf (buildTree w)) d).length ≤ (longestCode (codesOf (buildTree w)) * (d.length + 1) + 7) / 8 ∧
    (longestCode (codesOf (buildTree w)) * (d.length + 1) + 7) / 8 ≤ 32 * (d.length + 1)

/-- R146: how much a decompression can give, and capacities under which neither codec command runs out of HOUT, in general and under RC
(R6). For HDECOMP the general capacity is one byte above the one R146 names; at R146's own, the room can run out only on a stream of nothing but
one-bit codes of data symbols (log 10; `DecompressionFitsAtTheBoundOfR146` states that it never does). -/
def Obligations.DecompressedSizeBounds : Prop :=
  (∀ (o : BitOrder) (node : List Node) (bs out : List Byte) (cap : Nat), huffDecode o node bs cap = .ok out →
    out.length ≤ 8 * bs.length - 1 ∧ out.length ≤ cap) ∧
  (∀ s t : State, s.Inv → 8 * s.cfg.hinCap ≤ s.cfg.houtCap → exec .hdecomp s = .next t → t.err = .capacityExceeded →
    s.cfg.hinCap < s.arg.toNat) ∧
  (∀ s t : State, s.Inv → 32 * (s.cfg.hinCap + 1) ≤ s.cfg.houtCap → exec .hcomp s = .next t → t.err = .capacityExceeded →
    s.cfg.hinCap < s.arg.toNat) ∧
  (∀ (w : List Nat) (o : BitOrder) (bs : List Byte) (cap : Nat), w.length = 257 → 8 * bs.length - 1 ≤ cap →
    huffDecode o (buildTree w) bs cap = .capacityExceeded →
    ∀ j, j < 8 * bs.length → ∃ x, x < 256 ∧ codeAt (codesOf (buildTree w)) x = [streamBit o bs j]) ∧
  (∀ s t : State, s.Inv → s.cfg.hinCap = 1024 → s.cfg.houtCap = 8192 → exec .hdecomp s = .next t → t.err = .capacityExceeded →
    1024 < s.arg.toNat) ∧
  ∀ s t : State, s.Inv → s.cfg.hinCap = 1024 → s.cfg.houtCap = 8192 → exec .hcomp s = .next t → t.err = .capacityExceeded →
    1024 < s.arg.toNat ∨ 63 < longestCode s.code

/-- R146's own bound for HDECOMP, `8n - 1` bytes of output room for `n` bytes of input. By the pseudocode of R143 it is one byte short: a stream
of `8n` one-bit data codes raises CapacityExceeded at its last bit (log 10). Expected to fail. -/
def Obligations.DecompressionFitsAtTheBoundOfR146 : Prop :=
  ∀ (w : List Nat) (o : BitOrder) (bs : List Byte) (cap : Nat), w.length = 257 → 8 * bs.length - 1 ≤ cap →
    huffDecode o (buildTree w) bs cap ≠ .capacityExceeded

/-! ### The Huffman commands -/

/-- R131, R132, R139: the weights T selects; HINIT installs their tree and codes, or raises FreqOverflow and changes nothing else. -/
def Obligations.HinitInstallsTheTree : Prop :=
  (∀ (s : State) (sel : TableSel), (weights sel s).length = 257 ∧ (weights sel s)[256]? = some s.cfg.sentinelFreq.toNat ∧
    ∀ i (h : i < 256), (weights .freq s)[i]? = some (s.freqAt i).toNat ∧ (weights .builtin s)[i]? = some (s.cfg.defaultFreq[i]).toNat) ∧
  (∀ (sel : TableSel) (s : State), (weights sel s).sum ≤ 2 ^ 32 - 1 →
    exec (.hinit sel) s = .next { s with
      node := buildTree (weights sel s), code := codesOf (buildTree (weights sel s)), hstate := .ready,
      result := BitVec.ofNat 32 (longestCode (codesOf (buildTree (weights sel s)))), err := .ok }) ∧
  (∀ (sel : TableSel) (s : State), 2 ^ 32 - 1 < (weights sel s).sum → exec (.hinit sel) s = .next { s with err := .freqOverflow }) ∧
  encode (.hinit .builtin) = 0x00000008 ∧ encode (.hinit .freq) = 0x00000018

/-- R140: equal weights give equal trees and codes whatever came before, and a repeated HINIT changes nothing. -/
def Obligations.HinitIsDeterminedByItsWeights : Prop :=
  (∀ (sel sel' : TableSel) (s s' t t' : State), weights sel s = weights sel' s' → exec (.hinit sel) s = .next t →
    exec (.hinit sel') s' = .next t' → t.err = .ok → t'.err = .ok ∧ t'.node = t.node ∧ t'.code = t.code ∧ t'.result = t.result) ∧
  ∀ (sel : TableSel) (s t : State), exec (.hinit sel) s = .next t → t.err = .ok → exec (.hinit sel) t = .next t

/-- R33, R194: FREQ is a staging table. HCOMP, HDECOMP and HINIT with T = 0 do the same whatever it holds. -/
def Obligations.OnlyHinitWithTableReadsFreq : Prop :=
  ∀ (i : Instr) (s t : State) (f : Store 32), i ∈ [.hcomp, .hdecomp, .hinit .builtin] → exec i s = .next t →
    exec i { s with freq := f } = .next { t with freq := f }

/-- R142, and of R141 the bytes themselves: the encoding has as many bytes as the codes of the data and of the sentinel take, and those codes
are its stream bits, with zero bits after them. -/
def Obligations.HcompWritesTheEncoding : Prop :=
  (∀ s : State, s.hstate = .ready → s.arg.toNat ≤ s.cfg.hinCap →
    (huffEncode s.cfg.bitOrder s.code (s.hinBytes s.arg.toNat)).length ≤ s.cfg.houtCap →
    ∃ t, exec .hcomp s = .next t ∧ t.err = .ok ∧
      t.result = BitVec.ofNat 32 (huffEncode s.cfg.bitOrder s.code (s.hinBytes s.arg.toNat)).length ∧
      (∀ a, t.houtAt a = ((huffEncode s.cfg.bitOrder s.code (s.hinBytes s.arg.toNat))[a]?).getD (s.houtAt a)) ∧
      t = { s with hout := t.hout, result := t.result, err := .ok }) ∧
  (∀ s : State, s.hstate = .uninit → exec .hcomp s = .next { s with err := .notInitialized }) ∧
  (∀ s : State, s.hstate = .ready → s.cfg.hinCap < s.arg.toNat → exec .hcomp s = .next { s with err := .capacityExceeded }) ∧
  (∀ s : State, s.hstate = .ready → s.arg.toNat ≤ s.cfg.hinCap →
    s.cfg.houtCap < (huffEncode s.cfg.bitOrder s.code (s.hinBytes s.arg.toNat)).length →
    exec .hcomp s = .next { s with err := .capacityExceeded }) ∧
  (∀ s t : State, s.Inv → exec .hcomp s = .next t → t.err = .ok → 1 ≤ t.result.toNat) ∧ encode .hcomp = 0x00000009 ∧
  ∀ (o : BitOrder) (code : List Bits) (d : List Byte) (stream : Bits),
    stream = (d.flatMap fun b => codeAt code b.toNat) ++ codeAt code 256 →
    (huffEncode o code d).length = (stream.length + 7) / 8 ∧
    ∀ j, j < 8 * (huffEncode o code d).length → streamBit o (huffEncode o code d) j = stream.getD j false

/-- R144, and of R143 when a decoding under the tree of 257 weights has each outcome, `stream` being the bits of the input in order: it gives
`out` where the codes of `out` and the sentinel's come first and there is room; CapacityExceeded where the codes of one byte more than there is
room for come first, whatever follows; TruncatedStream where the codes of no more than there is room for come first and the stream then ends
inside a symbol's code, or before one. -/
def Obligations.HdecompWritesTheDecoding : Prop :=
  (∀ (s : State) (out : List Byte), s.hstate = .ready → s.arg.toNat ≤ s.cfg.hinCap →
    huffDecode s.cfg.bitOrder s.node (s.hinBytes s.arg.toNat) s.cfg.houtCap = .ok out →
    ∃ t, exec .hdecomp s = .next t ∧ t.err = .ok ∧ t.result = BitVec.ofNat 32 out.length ∧
      (∀ a, t.houtAt a = (out[a]?).getD (s.houtAt a)) ∧ t = { s with hout := t.hout, result := t.result, err := .ok }) ∧
  (∀ s : State, s.hstate = .uninit → exec .hdecomp s = .next { s with err := .notInitialized }) ∧
  (∀ s : State, s.hstate = .ready → s.cfg.hinCap < s.arg.toNat → exec .hdecomp s = .next { s with err := .capacityExceeded }) ∧
  (∀ s : State, s.hstate = .ready → s.arg.toNat ≤ s.cfg.hinCap →
    huffDecode s.cfg.bitOrder s.node (s.hinBytes s.arg.toNat) s.cfg.houtCap = .truncatedStream →
    exec .hdecomp s = .next { s with err := .truncatedStream }) ∧
  (∀ s : State, s.hstate = .ready → s.arg.toNat ≤ s.cfg.hinCap →
    huffDecode s.cfg.bitOrder s.node (s.hinBytes s.arg.toNat) s.cfg.houtCap = .capacityExceeded →
    exec .hdecomp s = .next { s with err := .capacityExceeded }) ∧
  (∀ s : State, s.hstate = .ready → s.arg = 0 → exec .hdecomp s = .next { s with err := .truncatedStream }) ∧
  encode .hdecomp = 0x0000000A ∧
  ∀ (w : List Nat) (o : BitOrder) (bs : List Byte) (cap : Nat) (code : List Bits) (stream : Bits), w.length = 257 →
    code = codesOf (buildTree w) → stream = (List.range (8 * bs.length)).map (streamBit o bs) →
    (∀ out, huffDecode o (buildTree w) bs cap = .ok out ↔
      out.length ≤ cap ∧ ∃ tail, stream = (out.flatMap fun b => codeAt code b.toNat) ++ codeAt code 256 ++ tail) ∧
    (huffDecode o (buildTree w) bs cap = .capacityExceeded ↔
      ∃ (d : List Byte) (tail : Bits), d.length = cap + 1 ∧ stream = (d.flatMap fun b => codeAt code b.toNat) ++ tail) ∧
    (huffDecode o (buildTree w) bs cap = .truncatedStream ↔
      ∃ (d : List Byte) (tail : Bits) (x : Nat), d.length ≤ cap ∧ stream = (d.flatMap fun b => codeAt code b.toNat) ++ tail ∧
        x < 257 ∧ tail <+: codeAt code x ∧ tail ≠ codeAt code x)

/-- R145 through the commands: what an HCOMP wrote, copied to HIN and decompressed under the same tree, is the input again. -/
def Obligations.CompressCopyDecompressReturnsTheInput : Prop :=
  ∀ s t u : State, s.Inv → s.hstate = .ready → exec .hcomp s = .next t → t.err = .ok →
    u.cfg = s.cfg → u.hstate = .ready → u.node = s.node → u.arg = t.result →
    (∀ a, a < t.result.toNat → u.hinAt a = t.houtAt a) → t.result.toNat ≤ s.cfg.hinCap → s.arg.toNat ≤ s.cfg.houtCap →
    ∃ v, exec .hdecomp u = .next v ∧ v.err = .ok ∧ v.result = s.arg ∧ ∀ a, a < s.arg.toNat → v.houtAt a = s.hinAt a

/-! ### The host port -/

/-- R24, R64, R75: when the host's write of a command's word to CMD comes next, a step is that command, run in the state in which the access
is accepted: the port without it, the driving agent and the reply noted (the model's own fields, log 5 and 7). -/
def Obligations.StepRunsTheDecodedCommand : Prop :=
  ∀ (s : State) (agent : Nat) (rest : List HostEvent) (w : Word) (i : Instr),
    s.port = .access ⟨agent, 4, 0, .write w⟩ :: rest → (s.driver = none ∨ s.driver = some agent) → decode w = .ok i →
    step s = exec i { s with port := rest, driver := some agent, reply := some .writeDone }

/-- R74, R171: a write of an illegal word to CMD sets ERR to IllegalCommand and changes no other state of the block. -/
def Obligations.IllegalWordSetsErrOnly : Prop :=
  ∀ (s : State) (agent : Nat) (rest : List HostEvent) (w : Word) (r : IllegalWord),
    s.port = .access ⟨agent, 4, 0, .write w⟩ :: rest → (s.driver = none ∨ s.driver = some agent) → decode w = .error r →
    step s = .next { s with port := rest, driver := some agent, reply := some .writeDone, err := .illegalCommand }

/-- R65 (a) and (d), R191, R193: with nothing at the port a step changes nothing; a read that is no bus error changes no state of the block, and
repeated at once gives the same data. -/
def Obligations.IdleStepsAndReadsChangeNothing : Prop :=
  (∀ s : State, s.port = [] → step s = .next s) ∧
  ∀ (s t : State) (a : HostAccess) (rest : List HostEvent), s.port = .access a :: rest → a.op = .read → step s = .next t →
    (∃ d, t.reply = some (.readData d)) ∧ t = { s with port := rest, driver := some a.agent, reply := t.reply } ∧
    step { t with port := .access a :: rest } = .next t

/-- R21 to R26, R52: what a read of each control register returns. -/
def Obligations.ControlRegisterReads : Prop :=
  ∀ (s : State) (agent : Nat) (rest : List HostEvent) (off v : Word),
    (off, v) ∈ [(0x00, 0), (0x04, s.arg), (0x08, s.result), (0x0C, statusWord s), (0x10, BitVec.ofNat 32 s.vq.length),
      (0x14, BitVec.ofNat 32 s.cfg.vqCap), (0x18, BitVec.ofNat 32 s.cfg.hinCap), (0x1C, BitVec.ofNat 32 s.cfg.houtCap),
      (0x20, 0x48564331)] →
    s.port = .access ⟨agent, 4, off, .read⟩ :: rest → (s.driver = none ∨ s.driver = some agent) →
    step s = .next { s with port := rest, driver := some agent, reply := some (.readData v) }

/-- R53 to R57, R62: what a read of each window returns, `r` being the region and `i` the entry. -/
def Obligations.WindowReads : Prop :=
  ∀ (s : State) (agent : Nat) (rest : List HostEvent) (r i : Nat), s.cfg.Legal →
    s.port = .access ⟨agent, 4, BitVec.ofNat 32 (r * 2 ^ 28 + i * 4), .read⟩ :: rest → (s.driver = none ∨ s.driver = some agent) →
    (r = 1 → i < 256 → step s = .next { s with port := rest, driver := some agent, reply := some (.readData (s.freqAt i)) }) ∧
    (r = 2 → i < 257 → s.hstate = .ready →
      step s = .next { s with port := rest, driver := some agent, reply := some (.readData (BitVec.ofNat 32 (codeAt s.code i).length)) }) ∧
    (r = 2 → i < 257 → s.hstate = .uninit →
      step s = .next { s with port := rest, driver := some agent, reply := some (.readData 0) }) ∧
    (r = 3 → ∀ h : i < s.vq.length, i < s.cfg.vqCap →
      step s = .next { s with port := rest, driver := some agent, reply := some (.readData (BitVec.ofNat 32 (s.vq[i]).toNat)) }) ∧
    (r = 3 → s.vq.length ≤ i → i < s.cfg.vqCap →
      step s = .next { s with port := rest, driver := some agent, reply := some (.readData 0) }) ∧
    (r = 4 → i < s.cfg.hinCap →
      step s = .next { s with port := rest, driver := some agent, reply := some (.readData (BitVec.ofNat 32 (s.hinAt i).toNat)) }) ∧
    (r = 5 → i < s.cfg.houtCap →
      step s = .next { s with port := rest, driver := some agent, reply := some (.readData (BitVec.ofNat 32 (s.houtAt i).toNat)) })

/-- R21, R53, R56, R65 (b): a write to ARG, FREQ or HIN stores its value and changes no other state of the block. -/
def Obligations.WritesStoreTheirValue : Prop :=
  ∀ (s : State) (agent : Nat) (rest : List HostEvent) (w : Word) (r i : Nat), s.cfg.Legal →
    s.port = .access ⟨agent, 4, BitVec.ofNat 32 (r * 2 ^ 28 + i * 4), .write w⟩ :: rest → (s.driver = none ∨ s.driver = some agent) →
    (r = 0 → i = 1 → step s = .next { s with port := rest, driver := some agent, reply := some .writeDone, arg := w }) ∧
    (r = 1 → i < 256 → ∃ t, step s = .next t ∧ (∀ j, t.freqAt j = if j = i then w else s.freqAt j) ∧
      t = { s with port := rest, driver := some agent, reply := some .writeDone, freq := t.freq }) ∧
    (r = 4 → i < s.cfg.hinCap → ∃ t, step s = .next t ∧ (∀ j, t.hinAt j = if j = i then w.extractLsb' 0 8 else s.hinAt j) ∧
      t = { s with port := rest, driver := some agent, reply := some .writeDone, hin := t.hin })

/-- R58, R59, R60: exactly which accesses are bus errors, in the fields of R50 read as numbers. That no other access is one is an inference from
R51 to R60. -/
def Obligations.BusErrorsExactlyWhen : Prop :=
  ∀ (s : State) (a : HostAccess) (rest : List HostEvent), s.port = .access a :: rest → (s.driver = none ∨ s.driver = some a.agent) →
    ((∃ c, step s = .fault (.busError c)) ↔
      a.size ≠ 4 ∨ a.off.toNat % 4 ≠ 0 ∨
      (6 ≤ a.off.toNat / 2 ^ 28) ∨
      (a.off.toNat / 2 ^ 28 = 0 ∧ 8 < a.off.toNat / 4 % 2 ^ 26) ∨
      (a.off.toNat / 2 ^ 28 = 1 ∧ 255 < a.off.toNat / 4 % 2 ^ 26) ∨
      (a.off.toNat / 2 ^ 28 = 2 ∧ 256 < a.off.toNat / 4 % 2 ^ 26) ∨
      (a.off.toNat / 2 ^ 28 = 3 ∧ s.cfg.vqCap ≤ a.off.toNat / 4 % 2 ^ 26) ∨
      (a.off.toNat / 2 ^ 28 = 4 ∧ s.cfg.hinCap ≤ a.off.toNat / 4 % 2 ^ 26) ∨
      (a.off.toNat / 2 ^ 28 = 5 ∧ s.cfg.houtCap ≤ a.off.toNat / 4 % 2 ^ 26) ∨
      ((∃ w, a.op = .write w) ∧
        ((a.off.toNat / 2 ^ 28 = 0 ∧ 2 ≤ a.off.toNat / 4 % 2 ^ 26) ∨ a.off.toNat / 2 ^ 28 = 2 ∨ a.off.toNat / 2 ^ 28 = 3 ∨
          a.off.toNat / 2 ^ 28 = 5)))

/-- R61: what the block does at a bus error: the access is gone, the host has an error response with data 0, and no state of the block changed. That
`step` itself ends in a fault there, and `busErrorView` shows the block, is the model's choice of form (log 6). -/
def Obligations.BusErrorChangesNoState : Prop :=
  ∀ (s : State) (e : HostEvent) (rest : List HostEvent) (c : BusErrorCause), s.port = e :: rest → step s = .fault (.busError c) →
    s.busErrorView = { s with port := rest, reply := some (.error 0) } ∧ ∃ a, e = .access a

/-- H-4: an access the map allows, from the agent that drives the instance, completes. -/
def Obligations.AllowedAccessesComplete : Prop :=
  ∀ (s : State) (a : HostAccess) (rest : List HostEvent), s.port = .access a :: rest → (s.driver = none ∨ s.driver = some a.agent) →
    a.Allowed s.cfg → ∃ t, step s = .next t ∧ t.port = rest

/-- R181, R197: an access by a second agent is refused. That the first agent to access the instance is the one that drives it until a reset is the
model's choice (log 7). -/
def Obligations.SecondAgentIsRefused : Prop :=
  ∀ (s : State) (a : HostAccess) (rest : List HostEvent) (d : Nat), s.port = .access a :: rest → s.driver = some d → d ≠ a.agent →
    step s = .refused .secondAgent

/-- R51, R52: the map sends the offset of every location that exists back to it. -/
def Obligations.OffsetsSelectTheirLocations : Prop :=
  ∀ (c : Config) (l : Loc), c.Legal →
    (match l with
      | .freq i => i < 256
      | .codelen i => i < 257
      | .vqData i => i < c.vqCap
      | .hin i => i < c.hinCap
      | .hout i => i < c.houtCap
      | _ => True) →
    locAt c l.offset = some l ∧ l.offset.extractLsb' 0 2 = 0

/-- R78: `VPACK #v` on a host at the start of it writes ARG and runs VPACK, in the model's form of a host program (log 9). -/
def Obligations.PseudoVpackWritesArgAndPacks : Prop :=
  ∀ (h : HostState) (v : Word) (t : State), h.pos = 0 → (h.block.driver = none ∨ h.block.driver = some h.agent) →
    exec .vpack { h.block with port := [], driver := some h.agent, reply := some .writeDone, arg := v } = .next t →
    hostRun (pseudoVpack v) 2 h = .running { h with block := t, pos := 2 }

/-! ### Reset and invariants -/

/-- R38, R190: what a reset leaves, whatever state it came in. The draws, the count of resets and the port are the model's own (log 2, 5 and 8). -/
def Obligations.ResetLeavesTheResetState : Prop :=
  ∀ (s : State) (rest : List HostEvent), s.port = .reset :: rest → ∃ t, step s = .next t ∧
    t.cfg = s.cfg ∧ t.arg = 0 ∧ t.result = 0 ∧ statusWord t = 0 ∧ t.vq = [] ∧ t.hstate = .uninit ∧
    (∀ i, readLoc t (.codelen i) = 0) ∧
    (∀ i, t.freqAt i = Config.freqDraw t.epoch i ∧ t.hinAt i = Config.hinDraw t.epoch i ∧ t.houtAt i = Config.houtDraw t.epoch i) ∧
    t.epoch = s.epoch + 1 ∧ t.port = rest

/-- The invariant holds right after reset, under every legal configuration and under the one `State.reset` has (the model's choice, log 1). -/
def Obligations.ResetStateIsGood : Prop :=
  (∀ (c : Config) (n : Nat), c.Legal → (State.resetWith c n).Inv) ∧ State.reset.Inv

/-- R27, R31, R32, R58, R171: a step from a state in which the invariant holds ends in one in which it holds. -/
def Obligations.StepKeepsTheInvariant : Prop :=
  ∀ s t : State, s.Inv → step s = .next t → t.Inv

/-- R5, R26: no step changes the parameters. -/
def Obligations.StepKeepsTheConfiguration : Prop :=
  ∀ s t : State, step s = .next t → t.cfg = s.cfg

/-- R30: the only way out of READY is a reset, and the only way into it a HINIT that succeeds. -/
def Obligations.HstateChangesOnlyByHinitAndReset : Prop :=
  ∀ s t : State, step s = .next t →
    (s.hstate = .ready → t.hstate = .uninit → ∃ rest, s.port = .reset :: rest) ∧
    (s.hstate = .uninit → t.hstate = .ready →
      t.err = .ok ∧ ∃ agent rest sel, s.port = .access ⟨agent, 4, 0, .write (encode (.hinit sel))⟩ :: rest)

/-- R33: between resets, only a HINIT that succeeds changes the tree or the codes. -/
def Obligations.TreeChangesOnlyByHinit : Prop :=
  ∀ s t : State, step s = .next t → (t.node ≠ s.node ∨ t.code ≠ s.code) → (∀ rest, s.port ≠ .reset :: rest) →
    t.err = .ok ∧ ∃ agent rest sel, s.port = .access ⟨agent, 4, 0, .write (encode (.hinit sel))⟩ :: rest
end

