-- ==== Sys2Proof/Laws/Decode.lean ====
section
/-! SUPPORT. The laws of the command word: its fields and the word they make determine each other. -/

namespace Sys2Proof

theorem CmdWord.toWord_toNat (c : CmdWord) : c.toWord.toNat = c.rsv.toNat * 32 + c.t.toNat * 16 + c.op.toNat := by
  have h : c.toWord.toNat = (c.rsv ++ c.t ++ c.op).toNat := rfl
  rw [h, BitVec.toNat_append, BitVec.toNat_append, ← Nat.shiftLeft_add_eq_or_of_lt c.op.isLt,
    ← Nat.shiftLeft_add_eq_or_of_lt c.t.isLt, Nat.shiftLeft_eq, Nat.shiftLeft_eq]
  omega

theorem CmdWord.ofWord_toNat (w : Word) :
    (CmdWord.ofWord w).op.toNat = w.toNat % 16 ∧ (CmdWord.ofWord w).t.toNat = w.toNat / 16 % 2 ∧
      (CmdWord.ofWord w).rsv.toNat = w.toNat / 32 := by
  have := w.isLt
  simp only [CmdWord.ofWord, BitVec.extractLsb'_toNat, Nat.shiftRight_eq_div_pow]
  norm_num
  omega

theorem CmdWord.toWord_ofWord (w : Word) : (CmdWord.ofWord w).toWord = w := by
  obtain ⟨h1, h2, h3⟩ := CmdWord.ofWord_toNat w
  apply BitVec.eq_of_toNat_eq
  rw [CmdWord.toWord_toNat, h1, h2, h3]
  omega

theorem CmdWord.ofWord_toWord (c : CmdWord) : CmdWord.ofWord c.toWord = c := by
  obtain ⟨h1, h2, h3⟩ := CmdWord.ofWord_toNat c.toWord
  rw [CmdWord.toWord_toNat] at h1 h2 h3
  have := c.op.isLt
  have := c.t.isLt
  have := c.rsv.isLt
  obtain ⟨op, t, rsv⟩ := c
  simp only at *
  generalize CmdWord.ofWord _ = d at *
  obtain ⟨op', t', rsv'⟩ := d
  simp only [CmdWord.mk.injEq, ← BitVec.toNat_inj] at *
  omega

theorem CmdWord.toWord_injective {c d : CmdWord} (h : c.toWord = d.toWord) : c = d := by
  rw [← CmdWord.ofWord_toWord c, h, CmdWord.ofWord_toWord]

theorem CmdWord.ofWord_injective {v w : Word} (h : CmdWord.ofWord v = CmdWord.ofWord w) : v = w := by
  rw [← CmdWord.toWord_ofWord v, h, CmdWord.toWord_ofWord]

end Sys2Proof
end

