-- ==== Sys2Proof/Laws/State.lean ====
section
/-! SUPPORT. What each named update of State does to each field, one lemma each, so that no later proof unfolds a record update. -/

namespace Sys2Proof.Machine

variable (s t : State)

@[simp] theorem setFreq_cfg (i : Nat) (w : Word) : (State.setFreq s i w).cfg = s.cfg := rfl
@[simp] theorem setFreq_arg (i : Nat) (w : Word) : (State.setFreq s i w).arg = s.arg := rfl
@[simp] theorem setFreq_result (i : Nat) (w : Word) : (State.setFreq s i w).result = s.result := rfl
@[simp] theorem setFreq_err (i : Nat) (w : Word) : (State.setFreq s i w).err = s.err := rfl
@[simp] theorem setFreq_vq (i : Nat) (w : Word) : (State.setFreq s i w).vq = s.vq := rfl
@[simp] theorem setFreq_freq (i : Nat) (w : Word) : (State.setFreq s i w).freq = Store.put s.freq i w := rfl
@[simp] theorem setFreq_hstate (i : Nat) (w : Word) : (State.setFreq s i w).hstate = s.hstate := rfl
@[simp] theorem setFreq_node (i : Nat) (w : Word) : (State.setFreq s i w).node = s.node := rfl
@[simp] theorem setFreq_code (i : Nat) (w : Word) : (State.setFreq s i w).code = s.code := rfl
@[simp] theorem setFreq_hin (i : Nat) (w : Word) : (State.setFreq s i w).hin = s.hin := rfl
@[simp] theorem setFreq_hout (i : Nat) (w : Word) : (State.setFreq s i w).hout = s.hout := rfl
@[simp] theorem setFreq_port (i : Nat) (w : Word) : (State.setFreq s i w).port = s.port := rfl
@[simp] theorem setFreq_reply (i : Nat) (w : Word) : (State.setFreq s i w).reply = s.reply := rfl
@[simp] theorem setFreq_driver (i : Nat) (w : Word) : (State.setFreq s i w).driver = s.driver := rfl
@[simp] theorem setFreq_epoch (i : Nat) (w : Word) : (State.setFreq s i w).epoch = s.epoch := rfl

@[simp] theorem setHin_cfg (i : Nat) (b : Byte) : (State.setHin s i b).cfg = s.cfg := rfl
@[simp] theorem setHin_arg (i : Nat) (b : Byte) : (State.setHin s i b).arg = s.arg := rfl
@[simp] theorem setHin_result (i : Nat) (b : Byte) : (State.setHin s i b).result = s.result := rfl
@[simp] theorem setHin_err (i : Nat) (b : Byte) : (State.setHin s i b).err = s.err := rfl
@[simp] theorem setHin_vq (i : Nat) (b : Byte) : (State.setHin s i b).vq = s.vq := rfl
@[simp] theorem setHin_freq (i : Nat) (b : Byte) : (State.setHin s i b).freq = s.freq := rfl
@[simp] theorem setHin_hstate (i : Nat) (b : Byte) : (State.setHin s i b).hstate = s.hstate := rfl
@[simp] theorem setHin_node (i : Nat) (b : Byte) : (State.setHin s i b).node = s.node := rfl
@[simp] theorem setHin_code (i : Nat) (b : Byte) : (State.setHin s i b).code = s.code := rfl
@[simp] theorem setHin_hin (i : Nat) (b : Byte) : (State.setHin s i b).hin = Store.put s.hin i b := rfl
@[simp] theorem setHin_hout (i : Nat) (b : Byte) : (State.setHin s i b).hout = s.hout := rfl
@[simp] theorem setHin_port (i : Nat) (b : Byte) : (State.setHin s i b).port = s.port := rfl
@[simp] theorem setHin_reply (i : Nat) (b : Byte) : (State.setHin s i b).reply = s.reply := rfl
@[simp] theorem setHin_driver (i : Nat) (b : Byte) : (State.setHin s i b).driver = s.driver := rfl
@[simp] theorem setHin_epoch (i : Nat) (b : Byte) : (State.setHin s i b).epoch = s.epoch := rfl

@[simp] theorem setHout_cfg (bs : List Byte) : (State.setHout s bs).cfg = s.cfg := rfl
@[simp] theorem setHout_arg (bs : List Byte) : (State.setHout s bs).arg = s.arg := rfl
@[simp] theorem setHout_result (bs : List Byte) : (State.setHout s bs).result = s.result := rfl
@[simp] theorem setHout_err (bs : List Byte) : (State.setHout s bs).err = s.err := rfl
@[simp] theorem setHout_vq (bs : List Byte) : (State.setHout s bs).vq = s.vq := rfl
@[simp] theorem setHout_freq (bs : List Byte) : (State.setHout s bs).freq = s.freq := rfl
@[simp] theorem setHout_hstate (bs : List Byte) : (State.setHout s bs).hstate = s.hstate := rfl
@[simp] theorem setHout_node (bs : List Byte) : (State.setHout s bs).node = s.node := rfl
@[simp] theorem setHout_code (bs : List Byte) : (State.setHout s bs).code = s.code := rfl
@[simp] theorem setHout_hin (bs : List Byte) : (State.setHout s bs).hin = s.hin := rfl
@[simp] theorem setHout_hout (bs : List Byte) : (State.setHout s bs).hout = Store.putFront s.hout bs := rfl
@[simp] theorem setHout_port (bs : List Byte) : (State.setHout s bs).port = s.port := rfl
@[simp] theorem setHout_reply (bs : List Byte) : (State.setHout s bs).reply = s.reply := rfl
@[simp] theorem setHout_driver (bs : List Byte) : (State.setHout s bs).driver = s.driver := rfl
@[simp] theorem setHout_epoch (bs : List Byte) : (State.setHout s bs).epoch = s.epoch := rfl

@[simp] theorem accept_cfg (a : Nat) (rest : List HostEvent) : (State.accept s a rest).cfg = s.cfg := rfl
@[simp] theorem accept_arg (a : Nat) (rest : List HostEvent) : (State.accept s a rest).arg = s.arg := rfl
@[simp] theorem accept_result (a : Nat) (rest : List HostEvent) : (State.accept s a rest).result = s.result := rfl
@[simp] theorem accept_err (a : Nat) (rest : List HostEvent) : (State.accept s a rest).err = s.err := rfl
@[simp] theorem accept_vq (a : Nat) (rest : List HostEvent) : (State.accept s a rest).vq = s.vq := rfl
@[simp] theorem accept_freq (a : Nat) (rest : List HostEvent) : (State.accept s a rest).freq = s.freq := rfl
@[simp] theorem accept_hstate (a : Nat) (rest : List HostEvent) : (State.accept s a rest).hstate = s.hstate := rfl
@[simp] theorem accept_node (a : Nat) (rest : List HostEvent) : (State.accept s a rest).node = s.node := rfl
@[simp] theorem accept_code (a : Nat) (rest : List HostEvent) : (State.accept s a rest).code = s.code := rfl
@[simp] theorem accept_hin (a : Nat) (rest : List HostEvent) : (State.accept s a rest).hin = s.hin := rfl
@[simp] theorem accept_hout (a : Nat) (rest : List HostEvent) : (State.accept s a rest).hout = s.hout := rfl
@[simp] theorem accept_port (a : Nat) (rest : List HostEvent) : (State.accept s a rest).port = rest := rfl
@[simp] theorem accept_reply (a : Nat) (rest : List HostEvent) : (State.accept s a rest).reply = s.reply := rfl
@[simp] theorem accept_driver (a : Nat) (rest : List HostEvent) : (State.accept s a rest).driver = some a := rfl
@[simp] theorem accept_epoch (a : Nat) (rest : List HostEvent) : (State.accept s a rest).epoch = s.epoch := rfl

@[simp] theorem busErrorView_cfg : (State.busErrorView s).cfg = s.cfg := rfl
@[simp] theorem busErrorView_arg : (State.busErrorView s).arg = s.arg := rfl
@[simp] theorem busErrorView_result : (State.busErrorView s).result = s.result := rfl
@[simp] theorem busErrorView_err : (State.busErrorView s).err = s.err := rfl
@[simp] theorem busErrorView_vq : (State.busErrorView s).vq = s.vq := rfl
@[simp] theorem busErrorView_freq : (State.busErrorView s).freq = s.freq := rfl
@[simp] theorem busErrorView_hstate : (State.busErrorView s).hstate = s.hstate := rfl
@[simp] theorem busErrorView_node : (State.busErrorView s).node = s.node := rfl
@[simp] theorem busErrorView_code : (State.busErrorView s).code = s.code := rfl
@[simp] theorem busErrorView_hin : (State.busErrorView s).hin = s.hin := rfl
@[simp] theorem busErrorView_hout : (State.busErrorView s).hout = s.hout := rfl
@[simp] theorem busErrorView_port : (State.busErrorView s).port = s.port.tail := rfl
@[simp] theorem busErrorView_reply : (State.busErrorView s).reply = some (.error 0) := rfl
@[simp] theorem busErrorView_driver : (State.busErrorView s).driver = s.driver := rfl
@[simp] theorem busErrorView_epoch : (State.busErrorView s).epoch = s.epoch := rfl

@[simp] theorem withCommand_cfg (w : Word) : (State.withCommand s w).cfg = s.cfg := rfl
@[simp] theorem withCommand_arg (w : Word) : (State.withCommand s w).arg = s.arg := rfl
@[simp] theorem withCommand_result (w : Word) : (State.withCommand s w).result = s.result := rfl
@[simp] theorem withCommand_err (w : Word) : (State.withCommand s w).err = s.err := rfl
@[simp] theorem withCommand_vq (w : Word) : (State.withCommand s w).vq = s.vq := rfl
@[simp] theorem withCommand_freq (w : Word) : (State.withCommand s w).freq = s.freq := rfl
@[simp] theorem withCommand_hstate (w : Word) : (State.withCommand s w).hstate = s.hstate := rfl
@[simp] theorem withCommand_node (w : Word) : (State.withCommand s w).node = s.node := rfl
@[simp] theorem withCommand_code (w : Word) : (State.withCommand s w).code = s.code := rfl
@[simp] theorem withCommand_hin (w : Word) : (State.withCommand s w).hin = s.hin := rfl
@[simp] theorem withCommand_hout (w : Word) : (State.withCommand s w).hout = s.hout := rfl
@[simp] theorem withCommand_port (w : Word) : (State.withCommand s w).port = .access ⟨s.driver.getD 0, 4, Loc.cmd.offset, .write w⟩ :: s.port := rfl
@[simp] theorem withCommand_reply (w : Word) : (State.withCommand s w).reply = s.reply := rfl
@[simp] theorem withCommand_driver (w : Word) : (State.withCommand s w).driver = s.driver := rfl
@[simp] theorem withCommand_epoch (w : Word) : (State.withCommand s w).epoch = s.epoch := rfl

@[simp] theorem resetNow_cfg (rest : List HostEvent) : (State.resetNow s rest).cfg = s.cfg := rfl
@[simp] theorem resetNow_arg (rest : List HostEvent) : (State.resetNow s rest).arg = 0 := rfl
@[simp] theorem resetNow_result (rest : List HostEvent) : (State.resetNow s rest).result = 0 := rfl
@[simp] theorem resetNow_err (rest : List HostEvent) : (State.resetNow s rest).err = .ok := rfl
@[simp] theorem resetNow_vq (rest : List HostEvent) : (State.resetNow s rest).vq = [] := rfl
@[simp] theorem resetNow_freq (rest : List HostEvent) : (State.resetNow s rest).freq = [] := rfl
@[simp] theorem resetNow_hstate (rest : List HostEvent) : (State.resetNow s rest).hstate = .uninit := rfl
@[simp] theorem resetNow_node (rest : List HostEvent) : (State.resetNow s rest).node = [] := rfl
@[simp] theorem resetNow_code (rest : List HostEvent) : (State.resetNow s rest).code = [] := rfl
@[simp] theorem resetNow_hin (rest : List HostEvent) : (State.resetNow s rest).hin = [] := rfl
@[simp] theorem resetNow_hout (rest : List HostEvent) : (State.resetNow s rest).hout = [] := rfl
@[simp] theorem resetNow_port (rest : List HostEvent) : (State.resetNow s rest).port = rest := rfl
@[simp] theorem resetNow_reply (rest : List HostEvent) : (State.resetNow s rest).reply = none := rfl
@[simp] theorem resetNow_driver (rest : List HostEvent) : (State.resetNow s rest).driver = none := rfl
@[simp] theorem resetNow_epoch (rest : List HostEvent) : (State.resetNow s rest).epoch = s.epoch + 1 := rfl

/-! How a command ends, field by field. -/

@[simp] theorem finish_raise_cfg (e : StatusCode) : (finish s (.raise e)).cfg = s.cfg := rfl
@[simp] theorem finish_raise_arg (e : StatusCode) : (finish s (.raise e)).arg = s.arg := rfl
@[simp] theorem finish_raise_result (e : StatusCode) : (finish s (.raise e)).result = s.result := rfl
@[simp] theorem finish_raise_err (e : StatusCode) : (finish s (.raise e)).err = e := rfl
@[simp] theorem finish_raise_vq (e : StatusCode) : (finish s (.raise e)).vq = s.vq := rfl
@[simp] theorem finish_raise_freq (e : StatusCode) : (finish s (.raise e)).freq = s.freq := rfl
@[simp] theorem finish_raise_hstate (e : StatusCode) : (finish s (.raise e)).hstate = s.hstate := rfl
@[simp] theorem finish_raise_node (e : StatusCode) : (finish s (.raise e)).node = s.node := rfl
@[simp] theorem finish_raise_code (e : StatusCode) : (finish s (.raise e)).code = s.code := rfl
@[simp] theorem finish_raise_hin (e : StatusCode) : (finish s (.raise e)).hin = s.hin := rfl
@[simp] theorem finish_raise_hout (e : StatusCode) : (finish s (.raise e)).hout = s.hout := rfl
@[simp] theorem finish_raise_port (e : StatusCode) : (finish s (.raise e)).port = s.port := rfl
@[simp] theorem finish_raise_reply (e : StatusCode) : (finish s (.raise e)).reply = s.reply := rfl
@[simp] theorem finish_raise_driver (e : StatusCode) : (finish s (.raise e)).driver = s.driver := rfl
@[simp] theorem finish_raise_epoch (e : StatusCode) : (finish s (.raise e)).epoch = s.epoch := rfl

@[simp] theorem finish_ok_cfg (r : Word) : (finish s (.ok t r)).cfg = t.cfg := rfl
@[simp] theorem finish_ok_arg (r : Word) : (finish s (.ok t r)).arg = t.arg := rfl
@[simp] theorem finish_ok_result (r : Word) : (finish s (.ok t r)).result = r := rfl
@[simp] theorem finish_ok_err (r : Word) : (finish s (.ok t r)).err = .ok := rfl
@[simp] theorem finish_ok_vq (r : Word) : (finish s (.ok t r)).vq = t.vq := rfl
@[simp] theorem finish_ok_freq (r : Word) : (finish s (.ok t r)).freq = t.freq := rfl
@[simp] theorem finish_ok_hstate (r : Word) : (finish s (.ok t r)).hstate = t.hstate := rfl
@[simp] theorem finish_ok_node (r : Word) : (finish s (.ok t r)).node = t.node := rfl
@[simp] theorem finish_ok_code (r : Word) : (finish s (.ok t r)).code = t.code := rfl
@[simp] theorem finish_ok_hin (r : Word) : (finish s (.ok t r)).hin = t.hin := rfl
@[simp] theorem finish_ok_hout (r : Word) : (finish s (.ok t r)).hout = t.hout := rfl
@[simp] theorem finish_ok_port (r : Word) : (finish s (.ok t r)).port = t.port := rfl
@[simp] theorem finish_ok_reply (r : Word) : (finish s (.ok t r)).reply = t.reply := rfl
@[simp] theorem finish_ok_driver (r : Word) : (finish s (.ok t r)).driver = t.driver := rfl
@[simp] theorem finish_ok_epoch (r : Word) : (finish s (.ok t r)).epoch = t.epoch := rfl

/-! What the buffers read as depends on their own field and on `epoch` alone. -/

theorem freqAt_congr {s t : State} (hf : t.freq = s.freq) (he : t.epoch = s.epoch) (i : Nat) : t.freqAt i = s.freqAt i := by
  simp [State.freqAt, hf, he]

theorem hinAt_congr {s t : State} (hf : t.hin = s.hin) (he : t.epoch = s.epoch) (i : Nat) : t.hinAt i = s.hinAt i := by
  simp [State.hinAt, hf, he]

theorem houtAt_congr {s t : State} (hf : t.hout = s.hout) (he : t.epoch = s.epoch) (i : Nat) : t.houtAt i = s.houtAt i := by
  simp [State.houtAt, hf, he]

end Sys2Proof.Machine
end

