-- ==== Sys2Proof/Laws/Store.lean ====
section
/-! SUPPORT. The laws of the stores: a read after a write, the canonical form and the bound on entry numbers, for every operation. -/

namespace Sys2Proof.Machine

variable {n : Nat}

/-! ### Reads after writes -/

theorem Store.find_put (m : Store n) (i j : Nat) (v : BitVec n) :
    Store.find (Store.put m i v) j = if j = i then some v else Store.find m j := by
  induction m with
  | nil => simp [Store.put, Store.find]
  | cons c m ih =>
    obtain ⟨k, u⟩ := c
    simp only [Store.put]
    split
    · simp [Store.find]
    split
    · subst_vars; simp only [Store.find]; split <;> simp_all
    · simp only [Store.find, ih]
      split <;> split <;> simp_all

theorem Store.find_eq_none (m : Store n) (i : Nat) (h : ∀ c ∈ m, c.1 ≠ i) : Store.find m i = none := by
  induction m with
  | nil => rfl
  | cons c m ih =>
    obtain ⟨k, u⟩ := c
    have hk : k ≠ i := h (k, u) (by simp)
    simp [Store.find, Ne.symm hk, ih fun c hc => h c (List.mem_cons_of_mem _ hc)]

theorem Store.find_append (m m' : Store n) (i : Nat) :
    Store.find (m ++ m') i = (Store.find m i).or (Store.find m' i) := by
  induction m with
  | nil => simp [Store.find]
  | cons c m ih => obtain ⟨k, u⟩ := c; simp only [List.cons_append, Store.find, ih]; split <;> simp

theorem Store.find_filter_ge (m : Store n) (k i : Nat) :
    Store.find (m.filter fun c => k ≤ c.1) i = if k ≤ i then Store.find m i else none := by
  induction m with
  | nil => simp [Store.find]
  | cons c m ih =>
    obtain ⟨j, u⟩ := c
    by_cases hk : k ≤ j <;> by_cases hi : k ≤ i <;> simp [hk, hi, Store.find, ih]
    · intro h; omega
    · intro h; omega

theorem Store.find_zipIdx (bs : List (BitVec n)) (k i : Nat) :
    Store.find ((bs.zipIdx k).map fun p => (p.2, p.1)) i = if k ≤ i then bs[i - k]? else none := by
  induction bs generalizing k with
  | nil => simp [Store.find]
  | cons b bs ih =>
    simp only [List.zipIdx_cons, List.map_cons, Store.find, ih]
    by_cases h : i = k
    · simp [h]
    · by_cases hk : k ≤ i
      · have : i - k = (i - (k + 1)) + 1 := by omega
        simp [h, hk, this, show k + 1 ≤ i by omega]
      · simp [h, hk, show ¬ k + 1 ≤ i by omega]

theorem Store.find_putFront (m : Store n) (bs : List (BitVec n)) (i : Nat) :
    Store.find (Store.putFront m bs) i = if h : i < bs.length then some bs[i] else Store.find m i := by
  simp only [Store.putFront, Store.find_append, Store.find_zipIdx, Store.find_filter_ge]
  by_cases h : i < bs.length
  · simp [h]
  · simp [h, Nat.not_lt.1 h]

/-! ### The canonical form -/

theorem Store.mem_put (m : Store n) (i : Nat) (v : BitVec n) {c : Nat × BitVec n} (h : c ∈ Store.put m i v) : c = (i, v) ∨ c ∈ m := by
  induction m with
  | nil => simpa [Store.put] using h
  | cons d m ih =>
    obtain ⟨k, u⟩ := d
    simp only [Store.put] at h
    split at h
    · simpa using h
    split at h
    · simp only [List.mem_cons] at h ⊢; tauto
    · simp only [List.mem_cons] at h ⊢
      rcases h with h | h
      · exact .inr (.inl h)
      · exact (ih h).imp_right .inr

theorem Store.wf_put (m : Store n) (hm : Store.wf m) (i : Nat) (v : BitVec n) : Store.wf (Store.put m i v) := by
  induction m with
  | nil => simp [Store.put, Store.wf]
  | cons d m ih =>
    obtain ⟨k, u⟩ := d
    obtain ⟨hk, hm'⟩ := List.pairwise_cons.1 hm
    simp only [Store.put]
    split
    · next h => exact List.pairwise_cons.2 ⟨fun c hc => by
        rcases List.mem_cons.1 hc with rfl | hc
        · exact h
        · exact Nat.lt_trans h (hk c hc), hm⟩
    split
    · next h => subst h; exact List.pairwise_cons.2 ⟨hk, hm'⟩
    · refine List.pairwise_cons.2 ⟨fun c hc => ?_, ih hm'⟩
      rcases Store.mem_put m i v hc with rfl | hc
      · simp only; omega
      · exact hk c hc

theorem Store.below_put (m : Store n) {cap i : Nat} (hm : Store.Below cap m) (hi : i < cap) (v : BitVec n) :
    Store.Below cap (Store.put m i v) := by
  intro c hc
  rcases Store.mem_put m i v hc with rfl | hc
  · exact hi
  · exact hm c hc

theorem Store.mem_front {bs : List (BitVec n)} {c : Nat × BitVec n} (h : c ∈ bs.zipIdx.map fun p => (p.2, p.1)) : c.1 < bs.length := by
  obtain ⟨p, hp, rfl⟩ := List.mem_map.1 h
  simpa using List.snd_lt_of_mem_zipIdx hp

theorem Store.wf_putFront (m : Store n) (hm : Store.wf m) (bs : List (BitVec n)) : Store.wf (Store.putFront m bs) := by
  refine List.pairwise_append.2 ⟨?_, hm.filter _, fun c hc d hd => ?_⟩
  · rw [List.pairwise_map, List.pairwise_iff_getElem]
    intro i j hi hj hij
    simpa using hij
  · have := (List.mem_filter.1 hd).2
    have := Store.mem_front hc
    simp_all
    omega

theorem Store.below_putFront (m : Store n) {cap : Nat} (hm : Store.Below cap m) (bs : List (BitVec n)) (hb : bs.length ≤ cap) :
    Store.Below cap (Store.putFront m bs) := by
  intro c hc
  rcases List.mem_append.1 hc with hc | hc
  · exact Nat.lt_of_lt_of_le (Store.mem_front hc) hb
  · exact hm c (List.mem_filter.1 hc).1

/-! ### The buffers of a state -/

theorem freqAt_setFreq (s : State) (i j : Nat) (w : Word) :
    (s.setFreq i w).freqAt j = if j = i then w else s.freqAt j := by
  simp only [State.freqAt, setFreq_freq, setFreq_epoch, Store.find_put]
  split <;> rfl

theorem hinAt_setHin (s : State) (i j : Nat) (b : Byte) :
    (s.setHin i b).hinAt j = if j = i then b else s.hinAt j := by
  simp only [State.hinAt, setHin_hin, setHin_epoch, Store.find_put]
  split <;> rfl

theorem houtAt_setHout (s : State) (bs : List Byte) (j : Nat) : (s.setHout bs).houtAt j = (bs[j]?).getD (s.houtAt j) := by
  simp only [State.houtAt, setHout_hout, setHout_epoch, Store.find_putFront]
  split
  · next h => simp [h]
  · next h => simp [h]

end Sys2Proof.Machine
end

