-- ==== Sys2Proof/Laws/Exec.lean ====
section
/-! SUPPORT. What a command can do, said once: how it ends (`complete`, `withInput`), and the frame of each family. -/

namespace Sys2Proof.Machine

/-- A command that completes answers the state its end gives, and no other. -/
@[simp] theorem complete_eq_next (s t : State) (e : CmdEnd) : complete s e = .next t ↔ finish s e = t := by
  simp [complete]

theorem eq_finish_of_next {s t : State} {e : CmdEnd} (h : complete s e = .next t) : t = finish s e := ((complete_eq_next s t e).1 h).symm

/-- An end is a success or an error by what it leaves in ERR, an error being one that is raised as such. -/
theorem finish_err (s : State) (e : CmdEnd) :
    (∃ t r, e = .ok t r ∧ finish s e = { t with result := r, err := .ok }) ∨ (∃ c, e = .raise c ∧ finish s e = { s with err := c }) := by
  cases e with
  | ok t r => exact .inl ⟨t, r, rfl, rfl⟩
  | raise c => exact .inr ⟨c, rfl, rfl⟩

/-- The input checks of HCOMP and HDECOMP (R174): not initialised, input too long, or the command's own work on the input. -/
theorem withInput_cases (s : State) (body : State → List Byte → CmdEnd) :
    (s.hstate = .uninit ∧ withInput s body = .raise .notInitialized) ∨
    (s.hstate = .ready ∧ s.cfg.hinCap < s.arg.toNat ∧ withInput s body = .raise .capacityExceeded) ∨
    (s.hstate = .ready ∧ s.arg.toNat ≤ s.cfg.hinCap ∧ withInput s body = body s (s.hinBytes s.arg.toNat)) := by
  unfold withInput State.argU32
  cases h : s.hstate with
  | uninit => simp
  | ready =>
    by_cases hn : s.cfg.hinCap < s.arg.toNat
    · simp [hn]
    · simp [hn, Nat.not_lt.1 hn]

/-! ### Each command by its outcomes -/

theorem execVpack_cases {s t : State} (h : exec .vpack s = .next t) :
    (s.cfg.vqCap < s.vq.length + (varintEncode s.arg).length ∧ t = { s with err := .capacityExceeded }) ∨
    (s.vq.length + (varintEncode s.arg).length ≤ s.cfg.vqCap ∧
      t = { s with vq := s.vq ++ varintEncode s.arg, result := ofLength (varintEncode s.arg).length, err := .ok }) := by
  obtain rfl := eq_finish_of_next h
  by_cases hc : s.cfg.vqCap < s.vq.length + (varintEncode s.arg).length
  · exact .inl ⟨hc, by simp [vpackEnd, State.argI32, hc, finish]⟩
  · exact .inr ⟨Nat.not_lt.1 hc, by simp [vpackEnd, State.argI32, hc, finish]⟩

theorem execVunpack_cases {s t : State} (h : exec .vunpack s = .next t) :
    (varintDecode s.cfg.overlong s.vq = .insufficientData ∧ t = { s with err := .insufficientData }) ∨
    (varintDecode s.cfg.overlong s.vq = .varIntOverflow ∧ t = { s with err := .varIntOverflow }) ∨
    (∃ v k, varintDecode s.cfg.overlong s.vq = .ok v k ∧ t = { s with vq := s.vq.drop k, result := v, err := .ok }) := by
  obtain rfl := eq_finish_of_next h
  cases hd : varintDecode s.cfg.overlong s.vq <;> simp [vunpackEnd, hd, finish]

theorem execVclear_eq (s : State) : exec .vclear s = .next { s with vq := [], result := 0, err := .ok } := rfl

theorem execVgrow_cases {s t : State} (h : exec .vgrow s = .next t) :
    (s.cfg.vqCap < max (s.vq.length + s.arg.toNat) 5 ∧ t = { s with err := .capacityExceeded }) ∨
    (max (s.vq.length + s.arg.toNat) 5 ≤ s.cfg.vqCap ∧ t = { s with result := ofLength (s.cfg.vqCap - s.vq.length), err := .ok }) := by
  obtain rfl := eq_finish_of_next h
  by_cases hc : s.cfg.vqCap < max (s.vq.length + s.arg.toNat) 5
  · exact .inl ⟨hc, by simp only [vgrowEnd, State.argU32, varintMaxBytes, hc, if_true, finish]⟩
  · exact .inr ⟨Nat.not_lt.1 hc, by simp only [vgrowEnd, State.argU32, varintMaxBytes, hc, if_false, finish]⟩

theorem execVsize_eq (s : State) : exec .vsize s = .next { s with result := ofLength s.vq.length, err := .ok } := rfl

theorem execVpushb_cases {s t : State} (h : exec .vpushb s = .next t) :
    (s.vq.length = s.cfg.vqCap ∧ t = { s with err := .capacityExceeded }) ∨
    (s.vq.length ≠ s.cfg.vqCap ∧ t = { s with vq := s.vq ++ [s.argByte], result := ofLength (s.vq.length + 1), err := .ok }) := by
  obtain rfl := eq_finish_of_next h
  by_cases hc : s.vq.length = s.cfg.vqCap
  · exact .inl ⟨hc, by simp [vpushbEnd, hc, finish]⟩
  · exact .inr ⟨hc, by simp [vpushbEnd, hc, finish]⟩

theorem execHinit_cases {sel : TableSel} {s t : State} (h : exec (.hinit sel) s = .next t) :
    (u32Max < (weights sel s).sum ∧ t = { s with err := .freqOverflow }) ∨
    ((weights sel s).sum ≤ u32Max ∧ t = { s with
      node := buildTree (weights sel s), code := codesOf (buildTree (weights sel s)), hstate := .ready,
      result := ofLength (longestCode (codesOf (buildTree (weights sel s)))), err := .ok }) := by
  obtain rfl := eq_finish_of_next h
  by_cases hc : u32Max < (weights sel s).sum
  · exact .inl ⟨hc, by simp only [hinitEnd, hc, if_true, finish]⟩
  · exact .inr ⟨Nat.not_lt.1 hc, by simp only [hinitEnd, hc, if_false, finish]⟩

/-- What HCOMP can do: set ERR alone, or write the front of HOUT, its length to RESULT, and 0 to ERR. -/
theorem execHcomp_cases {s t : State} (h : exec .hcomp s = .next t) :
    (s.hstate = .uninit ∧ t = { s with err := .notInitialized }) ∨
    (s.hstate = .ready ∧ s.cfg.hinCap < s.arg.toNat ∧ t = { s with err := .capacityExceeded }) ∨
    (s.hstate = .ready ∧ s.arg.toNat ≤ s.cfg.hinCap ∧
      s.cfg.houtCap < (huffEncode s.cfg.bitOrder s.code (s.hinBytes s.arg.toNat)).length ∧ t = { s with err := .capacityExceeded }) ∨
    (s.hstate = .ready ∧ s.arg.toNat ≤ s.cfg.hinCap ∧ ∃ b, b = huffEncode s.cfg.bitOrder s.code (s.hinBytes s.arg.toNat) ∧
      b.length ≤ s.cfg.houtCap ∧ t = { s.setHout b with result := ofLength b.length, err := .ok }) := by
  obtain rfl := eq_finish_of_next h
  rcases withInput_cases s hcompBody with ⟨hu, he⟩ | ⟨hr, hn, he⟩ | ⟨hr, hn, he⟩ <;> rw [he]
  · exact .inl ⟨hu, rfl⟩
  · exact .inr (.inl ⟨hr, hn, rfl⟩)
  · by_cases hc : s.cfg.houtCap < (huffEncode s.cfg.bitOrder s.code (s.hinBytes s.arg.toNat)).length
    · exact .inr (.inr (.inl ⟨hr, hn, hc, by simp only [hcompBody, hc, if_true, finish]⟩))
    · exact .inr (.inr (.inr ⟨hr, hn, _, rfl, Nat.not_lt.1 hc, by simp only [hcompBody, hc, if_false, finish]⟩))

/-- What HDECOMP can do: set ERR alone, or write the front of HOUT, its length to RESULT, and 0 to ERR. -/
theorem execHdecomp_cases {s t : State} (h : exec .hdecomp s = .next t) :
    (s.hstate = .uninit ∧ t = { s with err := .notInitialized }) ∨
    (s.hstate = .ready ∧ s.cfg.hinCap < s.arg.toNat ∧ t = { s with err := .capacityExceeded }) ∨
    (s.hstate = .ready ∧ s.arg.toNat ≤ s.cfg.hinCap ∧
      huffDecode s.cfg.bitOrder s.node (s.hinBytes s.arg.toNat) s.cfg.houtCap = .truncatedStream ∧ t = { s with err := .truncatedStream }) ∨
    (s.hstate = .ready ∧ s.arg.toNat ≤ s.cfg.hinCap ∧
      huffDecode s.cfg.bitOrder s.node (s.hinBytes s.arg.toNat) s.cfg.houtCap = .capacityExceeded ∧ t = { s with err := .capacityExceeded }) ∨
    (s.hstate = .ready ∧ s.arg.toNat ≤ s.cfg.hinCap ∧ ∃ out,
      huffDecode s.cfg.bitOrder s.node (s.hinBytes s.arg.toNat) s.cfg.houtCap = .ok out ∧
      t = { s.setHout out with result := ofLength out.length, err := .ok }) := by
  obtain rfl := eq_finish_of_next h
  rcases withInput_cases s hdecompBody with ⟨hu, he⟩ | ⟨hr, hn, he⟩ | ⟨hr, hn, he⟩ <;> rw [he]
  · exact .inl ⟨hu, rfl⟩
  · exact .inr (.inl ⟨hr, hn, rfl⟩)
  · refine .inr (.inr ?_)
    cases hd : huffDecode s.cfg.bitOrder s.node (s.hinBytes s.arg.toNat) s.cfg.houtCap <;> simp [hdecompBody, hd, hr, hn, finish]

/-- No command touches its parameters, its operand, the buffers the host writes, or the host port. -/
theorem exec_keeps {i : Instr} {s t : State} (h : exec i s = .next t) :
    t.cfg = s.cfg ∧ t.arg = s.arg ∧ t.freq = s.freq ∧ t.hin = s.hin ∧ t.port = s.port ∧ t.reply = s.reply ∧ t.driver = s.driver ∧
      t.epoch = s.epoch := by
  cases i with
  | vpack => rcases execVpack_cases h with ⟨_, rfl⟩ | ⟨_, rfl⟩ <;> simp
  | vunpack => rcases execVunpack_cases h with ⟨_, rfl⟩ | ⟨_, rfl⟩ | ⟨_, _, _, rfl⟩ <;> simp
  | vclear => rw [execVclear_eq, Host.Outcome.next.injEq] at h; subst h; simp
  | vgrow => rcases execVgrow_cases h with ⟨_, rfl⟩ | ⟨_, rfl⟩ <;> simp
  | vsize => rw [execVsize_eq, Host.Outcome.next.injEq] at h; subst h; simp
  | vpushb => rcases execVpushb_cases h with ⟨_, rfl⟩ | ⟨_, rfl⟩ <;> simp
  | hinit sel => rcases execHinit_cases h with ⟨_, rfl⟩ | ⟨_, rfl⟩ <;> simp
  | hcomp => rcases execHcomp_cases h with ⟨_, rfl⟩ | ⟨_, _, rfl⟩ | ⟨_, _, _, rfl⟩ | ⟨_, _, _, _, _, rfl⟩ <;> simp
  | hdecomp => rcases execHdecomp_cases h with ⟨_, rfl⟩ | ⟨_, _, rfl⟩ | ⟨_, _, _, rfl⟩ | ⟨_, _, _, rfl⟩ | ⟨_, _, _, _, rfl⟩ <;> simp

/-- Every command completes (`complete`), so `exec` always answers a next state. -/
theorem exec_eq_complete (i : Instr) (s : State) : ∃ e, exec i s = complete s e := by
  cases i <;> exact ⟨_, rfl⟩

end Sys2Proof.Machine
end

