-- ==== Sys2Proof/Laws/Bus.lean ====
section
/-! SUPPORT. The host port: the address map in numbers, what a write can do, and everything one step can do. -/

namespace Sys2Proof.Machine

/-! ### The address map -/

theorem region_eq (off : Word) : region off = off.toNat / 2 ^ 28 := by
  have := off.isLt
  simp only [region, BitVec.extractLsb'_toNat, Nat.shiftRight_eq_div_pow]
  omega

theorem index_eq (off : Word) : index off = off.toNat / 4 % 2 ^ 26 := by
  simp [index, BitVec.extractLsb'_toNat, Nat.shiftRight_eq_div_pow]

theorem low_bits_eq_zero_iff (off : Word) : off.extractLsb' 0 2 = 0 ↔ off.toNat % 4 = 0 := by
  rw [← BitVec.toNat_inj]
  simp [BitVec.extractLsb'_toNat]

/-- R51: an offset read back in its fields. -/
theorem region_index_ofNat (r i : Nat) (hr : r < 16) (hi : i < 2 ^ 26) :
    region (BitVec.ofNat 32 (r * 2 ^ 28 + i * 4)) = r ∧ index (BitVec.ofNat 32 (r * 2 ^ 28 + i * 4)) = i ∧
      (BitVec.ofNat 32 (r * 2 ^ 28 + i * 4)).extractLsb' 0 2 = 0 := by
  rw [low_bits_eq_zero_iff, region_eq, index_eq, BitVec.toNat_ofNat]
  omega

theorem offsetAt_eq (r i : Nat) (hi : i < 2 ^ 26) : offsetAt r i = BitVec.ofNat 32 (r * 2 ^ 28 + i * 4) := by
  have h : i <<< 2 < 2 ^ 28 := by rw [Nat.shiftLeft_eq]; omega
  rw [offsetAt, Nat.shiftLeft_eq r, Nat.mul_comm r, ← Nat.two_pow_add_eq_or_of_lt h, Nat.shiftLeft_eq, Nat.mul_comm (2 ^ 28) r]

/-- An access of the block's own size at an aligned offset selects what the map holds there. -/
theorem select_aligned (c : Config) (agent : Nat) (off : Word) (op : HostOp) (h : off.extractLsb' 0 2 = 0) :
    select c ⟨agent, 4, off, op⟩ = mapped (locAt c off) := by
  simp [select, h]

theorem select_ok_iff (c : Config) (a : HostAccess) (l : Loc) :
    select c a = .ok l ↔ a.size = 4 ∧ a.off.extractLsb' 0 2 = 0 ∧ locAt c a.off = some l := by
  by_cases h1 : a.size = 4
  · by_cases h2 : a.off.extractLsb' 0 2 = 0
    · cases h : locAt c a.off <;> simp [select, mapped, h1, h2, h]
    · have h3 : ¬ a.off.extractLsb' 0 2 = 0#2 := h2
      simp [select, h1, h3]
  · simp [select, h1]

/-- The map, region by region (R51). -/
theorem locAt_some_iff (c : Config) (off : Word) (l : Loc) :
    locAt c off = some l ↔
      (region off = 0 ∧ ctrlLoc (index off) = some l) ∨ (region off = 1 ∧ index off < 256 ∧ l = .freq (index off)) ∨
      (region off = 2 ∧ index off < 257 ∧ l = .codelen (index off)) ∨ (region off = 3 ∧ index off < c.vqCap ∧ l = .vqData (index off)) ∨
      (region off = 4 ∧ index off < c.hinCap ∧ l = .hin (index off)) ∨ (region off = 5 ∧ index off < c.houtCap ∧ l = .hout (index off)) := by
  unfold locAt nsym
  generalize region off = r
  generalize index off = i
  match r with
  | 0 => simp
  | 1 => simp [eq_comm (a := l)]
  | 2 => simp [eq_comm (a := l)]
  | 3 => simp [eq_comm (a := l)]
  | 4 => simp [eq_comm (a := l)]
  | 5 => simp [eq_comm (a := l)]
  | n + 6 => simp

/-- The control registers (R52) are none of the windows' entries, and CMD is the first of them. -/
theorem ctrlLoc_some {n : Nat} {l : Loc} (h : ctrlLoc n = some l) :
    n ≤ 8 ∧ (l = .cmd ↔ n = 0) ∧ (l = .arg ↔ n = 1) ∧ ∀ i, l ≠ .freq i ∧ l ≠ .codelen i ∧ l ≠ .vqData i ∧ l ≠ .hin i ∧ l ≠ .hout i := by
  unfold ctrlLoc at h
  split at h <;> simp only [Option.some.injEq, reduceCtorEq] at h <;> subst h <;> simp

theorem ctrlLoc_isSome_iff (n : Nat) : (ctrlLoc n).isSome ↔ n ≤ 8 := by
  constructor
  · intro h
    obtain ⟨l, hl⟩ := Option.isSome_iff_exists.1 h
    exact (ctrlLoc_some hl).1
  · intro h
    interval_cases n <;> rfl

/-- CMD is at offset 0 and nowhere else (R51, R52). -/
theorem locAt_eq_cmd {c : Config} {off : Word} (h : locAt c off = some .cmd) (h0 : off.extractLsb' 0 2 = 0) : off = 0 := by
  rcases (locAt_some_iff c off _).1 h with ⟨hr, hc⟩ | h | h | h | h | h
  · have hi := (ctrlLoc_some hc).2.1.1 rfl
    rw [region_eq] at hr
    rw [index_eq] at hi
    rw [low_bits_eq_zero_iff] at h0
    have := off.isLt
    exact BitVec.eq_of_toNat_eq (by simp; omega)
  all_goals simp at h

/-- Where an entry of a window exists, it lies within the window. -/
theorem locAt_bound {c : Config} {off : Word} {l : Loc} (h : locAt c off = some l) :
    (∀ i, l = .freq i → i < 256) ∧ (∀ i, l = .codelen i → i < 257) ∧ (∀ i, l = .vqData i → i < c.vqCap) ∧
      (∀ i, l = .hin i → i < c.hinCap) ∧ (∀ i, l = .hout i → i < c.houtCap) := by
  rcases (locAt_some_iff c off _).1 h with ⟨_, hc⟩ | ⟨_, hi, rfl⟩ | ⟨_, hi, rfl⟩ | ⟨_, hi, rfl⟩ | ⟨_, hi, rfl⟩ | ⟨_, hi, rfl⟩
  · obtain ⟨_, _, _, hw⟩ := ctrlLoc_some hc
    exact ⟨fun i h => absurd h (hw i).1, fun i h => absurd h (hw i).2.1, fun i h => absurd h (hw i).2.2.1,
      fun i h => absurd h (hw i).2.2.2.1, fun i h => absurd h (hw i).2.2.2.2⟩
  all_goals simp [hi]

/-! ### Writes -/

/-- Everything a write of a word to a location can do when it answers a next state. -/
theorem writeLoc_cases {s t : State} {w : Word} {l : Loc} (h : writeLoc s w l = .next t) :
    (l = .cmd ∧ execWord w s = .next t) ∨ (l = .arg ∧ t = { s with arg := w }) ∨ (∃ i, l = .freq i ∧ t = s.setFreq i w) ∨
      ∃ i, l = .hin i ∧ t = s.setHin i (w.extractLsb' 0 8) := by
  cases l <;> simp_all [writeLoc]

/-- Everything a command word can do: run the command it decodes to, or raise IllegalCommand. -/
theorem execWord_cases {s t : State} {w : Word} (h : execWord w s = .next t) :
    (∃ i, decode w = .ok i ∧ exec i s = .next t) ∨ (∃ r, decode w = .error r) ∧ t = { s with err := .illegalCommand } := by
  unfold execWord at h
  split at h
  · exact .inl ⟨_, ‹_›, h⟩
  · exact .inr ⟨⟨_, ‹_›⟩, eq_finish_of_next h⟩

/-! ### One step -/

theorem admits_iff (d : Option Nat) (agent : Nat) : admits d agent = true ↔ d = none ∨ d = some agent := by
  cases d <;> simp [admits]

/-- A step on an access the instance admits is the access served. -/
theorem step_access {s : State} {a : HostAccess} {rest : List HostEvent} (hp : s.port = .access a :: rest)
    (hd : s.driver = none ∨ s.driver = some a.agent) : step s = serve a (s.accept a.agent rest) := by
  simp [step, hp, takeEvent, (admits_iff s.driver a.agent).2 hd]

/-- Everything a step can do when it answers a next state: nothing, a reset, a read, or a write. -/
theorem step_cases {s t : State} (h : step s = .next t) :
    (s.port = [] ∧ t = s) ∨ (∃ rest, s.port = .reset :: rest ∧ t = s.resetNow rest) ∨
    ∃ a rest l, s.port = .access a :: rest ∧ (s.driver = none ∨ s.driver = some a.agent) ∧ select s.cfg a = .ok l ∧
      ((a.op = .read ∧ t = { s.accept a.agent rest with reply := some (.readData (readLoc (s.accept a.agent rest) l)) }) ∨
        ∃ w, a.op = .write w ∧ writeLoc { s.accept a.agent rest with reply := some .writeDone } w l = .next t) := by
  unfold step at h
  split at h
  · next hp => exact .inl ⟨hp, (Host.Outcome.next.inj h).symm⟩
  · next e rest hp =>
    cases e with
    | reset => exact .inr (.inl ⟨rest, hp, (Host.Outcome.next.inj h).symm⟩)
    | access a =>
      simp only [takeEvent] at h
      split at h
      · next ha =>
        unfold serve at h
        split at h
        · cases h
        · next l hl =>
          refine .inr (.inr ⟨a, rest, l, hp, (admits_iff _ _).1 ha, hl, ?_⟩)
          split at h
          · next hop => exact .inl ⟨hop, (Host.Outcome.next.inj h).symm⟩
          · next w hop => exact .inr ⟨w, hop, h⟩
      · cases h

end Sys2Proof.Machine
end

