-- ==== Sys2Proof/Laws/Sort.lean ====
section
/-! SUPPORT. The laws of `stableSortDesc` (41_huffman.md R133): what an insertion keeps, and that two lists with the properties of R133 are
one list, so that any other form of the sort can be compared with it. -/

namespace Sys2Proof.Machine

variable {α : Type} {f : α → Nat}

/-- The order of R133 (i). -/
abbrev SortedDesc (f : α → Nat) (l : List α) : Prop := l.Pairwise fun x y => f y ≤ f x

theorem insertDesc_perm (f : α → Nat) (x : α) (l : List α) : (insertDesc f x l).Perm (x :: l) := by
  induction l with
  | nil => exact .refl _
  | cons y l ih =>
    simp only [insertDesc]
    split
    · exact .refl _
    · exact (ih.cons y).trans (.swap x y l)

theorem insertDesc_sorted (x : α) (l : List α) (h : SortedDesc f l) : SortedDesc f (insertDesc f x l) := by
  induction l with
  | nil => simp [insertDesc]
  | cons y l ih =>
    obtain ⟨hy, hl⟩ := List.pairwise_cons.1 h
    simp only [insertDesc]
    split
    · next hle =>
      refine List.pairwise_cons.2 ⟨fun z hz => ?_, h⟩
      rcases List.mem_cons.1 hz with rfl | hz
      · exact hle
      · exact (hy z hz).trans hle
    · next hlt =>
      refine List.pairwise_cons.2 ⟨fun z hz => ?_, ih hl⟩
      rcases List.mem_cons.1 ((insertDesc_perm f x l).mem_iff.1 hz) with rfl | hz
      · omega
      · exact hy z hz

/-- An insertion passes only heavier elements, so it keeps the order among those of one weight. -/
theorem insertDesc_filter (f : α → Nat) (x : α) (l : List α) (n : Nat) :
    (insertDesc f x l).filter (fun y => f y = n) = (x :: l).filter fun y => f y = n := by
  induction l with
  | nil => rfl
  | cons y l ih =>
    simp only [insertDesc]
    split
    · rfl
    · next hlt =>
      rw [List.filter_cons, ih]
      by_cases hx : f x = n <;> by_cases hy : f y = n <;> simp [hx, hy]
      omega

theorem sort_perm (f : α → Nat) (l : List α) : (stableSortDesc f l).Perm l := by
  induction l with
  | nil => exact .refl _
  | cons x l ih => exact (insertDesc_perm f x _).trans (ih.cons x)

theorem sort_sorted (f : α → Nat) (l : List α) : SortedDesc f (stableSortDesc f l) := by
  induction l with
  | nil => exact .nil
  | cons x l ih => exact insertDesc_sorted x _ ih

theorem sort_filter (f : α → Nat) (l : List α) (n : Nat) :
    (stableSortDesc f l).filter (fun y => f y = n) = l.filter fun y => f y = n := by
  induction l with
  | nil => rfl
  | cons x l ih => rw [stableSortDesc, insertDesc_filter, List.filter_cons, List.filter_cons, ih]

theorem sort_length (f : α → Nat) (l : List α) : (stableSortDesc f l).length = l.length := (sort_perm f l).length_eq

/-- Sorted lists that hold the same elements, and the same ones of each weight in the same order, are equal. -/
theorem sorted_unique {p q : List α} (hp : SortedDesc f p) (hq : SortedDesc f q) (hpq : p.Perm q)
    (hf : ∀ n, p.filter (fun y => f y = n) = q.filter fun y => f y = n) : p = q := by
  induction p generalizing q with
  | nil => exact (List.nil_perm.1 hpq).symm
  | cons x p ih =>
    cases q with
    | nil => exact absurd hpq.length_eq (by simp)
    | cons y q =>
      obtain ⟨hx, hp'⟩ := List.pairwise_cons.1 hp
      obtain ⟨hy, hq'⟩ := List.pairwise_cons.1 hq
      have hxy : f x = f y := by
        have h1 : f x ≤ f y := by
          rcases List.mem_cons.1 (hpq.mem_iff.1 (List.mem_cons_self)) with h | h
          · rw [h]
          · exact hy x h
        have h2 : f y ≤ f x := by
          rcases List.mem_cons.1 (hpq.mem_iff.2 (List.mem_cons_self)) with h | h
          · rw [h]
          · exact hx y h
        omega
      obtain rfl : x = y := by
        have := hf (f y)
        simp only [List.filter_cons, hxy, decide_true, if_true] at this
        exact (List.cons.inj this).1
      rw [ih hp' hq' ((List.perm_cons x).1 hpq) fun n => ?_]
      have := hf n
      simp only [List.filter_cons] at this
      split at this
      · exact (List.cons.inj this).2
      · exact this

/-- A list already in order is its own sort. -/
theorem sort_of_sorted (l : List α) (h : SortedDesc f l) : stableSortDesc f l = l :=
  sorted_unique (sort_sorted f l) h (sort_perm f l) (sort_filter f l)

/-! ### The insertion of R136 -/

theorem insertNewest_perm (x : CNode) (l : List CNode) : (insertNewest x l).Perm (l ++ [x]) := by
  induction l with
  | nil => exact .refl _
  | cons y l ih =>
    simp only [insertNewest]
    split
    · exact ih.cons y
    · exact (List.perm_append_singleton x (y :: l)).symm

theorem insertNewest_sorted (x : CNode) (l : List CNode) (h : SortedDesc CNode.freq l) : SortedDesc CNode.freq (insertNewest x l) := by
  induction l with
  | nil => simp [insertNewest]
  | cons y l ih =>
    obtain ⟨hy, hl⟩ := List.pairwise_cons.1 h
    simp only [insertNewest]
    split
    · next hle =>
      refine List.pairwise_cons.2 ⟨fun z hz => ?_, ih hl⟩
      rcases List.mem_append.1 ((insertNewest_perm x l).mem_iff.1 hz) with hz | hz
      · exact hy z hz
      · rw [List.mem_singleton.1 hz]; exact hle
    · next hlt =>
      refine List.pairwise_cons.2 ⟨fun z hz => ?_, h⟩
      rcases List.mem_cons.1 hz with rfl | hz
      · omega
      · have := hy z hz; omega

/-- In an ordered list the elements the new node passes are all those at least as heavy, so it stands last among its equals. -/
theorem insertNewest_filter (x : CNode) (l : List CNode) (h : SortedDesc CNode.freq l) (n : Nat) :
    (insertNewest x l).filter (fun y => y.freq = n) = (l ++ [x]).filter fun y => y.freq = n := by
  induction l with
  | nil => rfl
  | cons y l ih =>
    obtain ⟨hy, hl⟩ := List.pairwise_cons.1 h
    simp only [insertNewest]
    split
    · rw [List.filter_cons, ih hl, List.cons_append, List.filter_cons]
    · next hlt =>
      rw [List.filter_append, List.filter_cons]
      split
      · next hx =>
        have hn : (y :: l).filter (fun z => z.freq = n) = [] := by
          rw [List.filter_eq_nil_iff]
          intro z hz
          have hxn : x.freq = n := by simpa using hx
          have : z.freq ≤ y.freq := by
            rcases List.mem_cons.1 hz with rfl | hz
            · exact le_refl _
            · exact hy z hz
          simp; omega
        simp [hn, hx]
      · next hx => simp [hx]

/-- R136: sorting an ordered list with the newest node at its tail is that insertion. -/
theorem sort_append_newest (x : CNode) (l : List CNode) (h : SortedDesc CNode.freq l) :
    stableSortDesc CNode.freq (l ++ [x]) = insertNewest x l :=
  sorted_unique (sort_sorted _ _) (insertNewest_sorted x l h) ((sort_perm _ _).trans (insertNewest_perm x l).symm) fun n => by
    rw [sort_filter, insertNewest_filter x l h]

end Sys2Proof.Machine
end

