-- ==== Sys2Proof/Laws/Tree.lean ====
section
/-! SUPPORT. The laws of tree construction (41_huffman.md R134, R135): how the merge loop grows the store, which children its nodes have. -/

namespace Sys2Proof.Machine

/-- The children of a node, child0 first. -/
def Node.children : Node → List Nat
  | .leaf _ _ => []
  | .internal a b _ => [a, b]

/-- One pass of the merge loop, by what the sort leaves last: one node or none, and it is done, or the two it merges. -/
theorem mergeLoop_succ (p k : Nat) (l : List CNode) :
    (l.length ≤ 1 ∧ mergeLoop (p + 1) k l = []) ∨
    ∃ a b rest, stableSortDesc CNode.freq l = rest ++ [b, a] ∧ l.Perm (rest ++ [b, a]) ∧
      mergeLoop (p + 1) k l =
        .internal a.id b.id (a.freq + b.freq) :: mergeLoop p (k + 1) (rest ++ [⟨k, a.freq + b.freq⟩]) := by
  have hl := sort_length CNode.freq l
  have hp := (sort_perm CNode.freq l).symm
  simp only [mergeLoop]
  match hr : (stableSortDesc CNode.freq l).reverse with
  | [] => exact .inl ⟨by rw [← hl, ← List.length_reverse, hr]; simp, by simp⟩
  | [a] => exact .inl ⟨by rw [← hl, ← List.length_reverse, hr]; simp, by simp⟩
  | a :: b :: rest =>
    have hs : stableSortDesc CNode.freq l = rest.reverse ++ [b, a] := by
      rw [← List.reverse_reverse (stableSortDesc CNode.freq l), hr]; simp
    exact .inr ⟨a, b, rest.reverse, hs, hs ▸ hp, rfl⟩

/-- R135: each pass takes one node off the list, so the loop makes one internal node less than the list is long. -/
theorem mergeLoop_length (p k : Nat) (l : List CNode) (h : l.length ≤ p + 1) : (mergeLoop p k l).length = l.length - 1 := by
  induction p generalizing k l with
  | zero => simp [mergeLoop]; omega
  | succ p ih =>
    rcases mergeLoop_succ p k l with ⟨h1, h2⟩ | ⟨a, b, rest, _, hp, h2⟩
    · simp [h2]; omega
    · have hlen := hp.length_eq
      rw [List.length_append] at hlen
      have := ih (k + 1) (rest ++ [⟨k, a.freq + b.freq⟩]) (by simp at hlen ⊢; omega)
      simp at hlen
      simp [h2, this, hlen]

/-- R135: the children of the nodes the loop makes, and the one node left, are the nodes it began with and the nodes it made, each once.
The one left is the last made. -/
theorem mergeLoop_children (p k : Nat) (l : List CNode) (h : l.length ≤ p + 1) (h0 : l ≠ []) :
    ∃ root, ((mergeLoop p k l).flatMap Node.children ++ [root]).Perm (l.map CNode.id ++ List.range' k (l.length - 1)) ∧
      (2 ≤ l.length → root = k + (l.length - 2)) := by
  induction p generalizing k l with
  | zero =>
    obtain ⟨x, rfl⟩ := List.length_eq_one_iff.1 (by have := List.length_pos_iff.2 h0; omega : l.length = 1)
    exact ⟨x.id, by simp [mergeLoop]⟩
  | succ p ih =>
    rcases mergeLoop_succ p k l with ⟨h1, h2⟩ | ⟨a, b, rest, _, hp, h2⟩
    · obtain ⟨x, rfl⟩ := List.length_eq_one_iff.1 (by have := List.length_pos_iff.2 h0; omega : l.length = 1)
      exact ⟨x.id, by simp [h2]⟩
    · have hlen : l.length = rest.length + 2 := by simpa using hp.length_eq
      obtain ⟨root, hr, hroot⟩ := ih (k + 1) (rest ++ [⟨k, a.freq + b.freq⟩]) (by simp; omega) (by simp)
      refine ⟨root, ?_, fun _ => ?_⟩
      · rw [h2, List.flatMap_cons, List.append_assoc]
        have hids := hp.map CNode.id
        simp only [List.map_append, List.map_cons, List.map_nil, List.length_append, List.length_cons, List.length_nil] at hr hids
        rw [hlen, show rest.length + 2 - 1 = rest.length + 1 by omega, List.range'_succ]
        rw [show rest.length + (0 + 1) - 1 = rest.length by omega] at hr
        refine ((hr.append_left _)).trans ?_
        refine List.Perm.trans ?_ (hids.symm.append_right _)
        simp only [Node.children]
        refine List.perm_iff_count.2 fun n => ?_
        simp only [List.count_append, List.count_cons, List.count_nil]
        omega
      · rcases rest with _ | ⟨x, rest⟩
        · simp only [List.nil_append, List.length_singleton, Nat.sub_self, List.range'_zero, List.append_nil, List.map_cons,
            List.map_nil] at hr
          have := hr.length_eq
          have hnil : (mergeLoop p (k + 1) [⟨k, a.freq + b.freq⟩]).flatMap Node.children = [] := by
            apply List.length_eq_zero_iff.1; simpa using this
          rw [hnil] at hr
          have := List.perm_singleton.1 hr
          simp at this
          simp at hlen
          omega
        · have := hroot (by simp)
          simp at this hlen
          omega

/-- What the weights of a list sum to, the loop keeps: the last node's weight is the sum of the list's (R132). The nodes made weigh the sum of
their children's, whatever store holds them at their numbers. -/
theorem mergeLoop_nodes (p k : Nat) (l : List CNode) (t : List Node) (ht : ∀ i, i < (mergeLoop p k l).length → t[k + i]? = (mergeLoop p k l)[i]?)
    (hl : ∀ c ∈ l, c.id < k ∧ nodeFreq t c.id = c.freq) (hn : (l.map CNode.id).Nodup) :
    ∀ i, i < (mergeLoop p k l).length → ∃ a b, a < k + i ∧ b < k + i ∧ a ≠ b ∧
      t[k + i]? = some (.internal a b (nodeFreq t a + nodeFreq t b)) ∧ nodeFreq t a + nodeFreq t b ≤ (l.map CNode.freq).sum ∧
      (i + 2 = l.length → nodeFreq t a + nodeFreq t b = (l.map CNode.freq).sum) := by
  induction p generalizing k l with
  | zero => simp [mergeLoop]
  | succ p ih =>
    rcases mergeLoop_succ p k l with ⟨h1, h2⟩ | ⟨a, b, rest, _, hp, h2⟩
    · simp [h2]
    · rw [h2] at ht ⊢
      have hlen : l.length = rest.length + 2 := by simpa using hp.length_eq
      have hsum : (l.map CNode.freq).sum = (rest.map CNode.freq).sum + (b.freq + a.freq) := by
        rw [(hp.map CNode.freq).sum_eq]; simp
      have hmem : ∀ c ∈ rest ++ [b, a], c.id < k ∧ nodeFreq t c.id = c.freq := fun c hc => hl c (hp.mem_iff.2 hc)
      have ha := hmem a (by simp)
      have hb := hmem b (by simp)
      have hn' : ((rest ++ [b, a]).map CNode.id).Nodup := ((hp.map CNode.id).nodup_iff).1 hn
      have hk : t[k]? = some (.internal a.id b.id (a.freq + b.freq)) := by simpa using ht 0 (by simp)
      have hab : a.id ≠ b.id := by
        simp only [List.map_append, List.map_cons, List.map_nil, List.nodup_append, List.nodup_cons] at hn'
        simp at hn'
        exact fun h => hn'.2.1 h.symm
      have hrest := ih (k + 1) (rest ++ [⟨k, a.freq + b.freq⟩])
        (fun i hi => by simpa [Nat.add_assoc, Nat.add_comm 1 i] using ht (i + 1) (by simpa using hi))
        (fun c hc => by
          rcases List.mem_append.1 hc with hc | hc
          · have := hmem c (by simp [hc]); exact ⟨by omega, this.2⟩
          · rw [List.mem_singleton.1 hc]; exact ⟨by simp, by simp [nodeFreq, hk]⟩)
        (by
          rw [List.map_append, List.nodup_append] at hn' ⊢
          refine ⟨hn'.1, by simp, fun x hx y hy => ?_⟩
          obtain ⟨c, hc, rfl⟩ := List.mem_map.1 hx
          simp at hy
          have := (hmem c (by simp [hc])).1
          omega)
      intro i hi
      cases i with
      | zero =>
        refine ⟨a.id, b.id, by omega, by omega, hab, by rw [Nat.add_zero, hk, ha.2, hb.2], by rw [ha.2, hb.2]; omega, fun h => ?_⟩
        have : rest = [] := List.length_eq_zero_iff.1 (by omega)
        rw [ha.2, hb.2, hsum, this]; simp; omega
      | succ i =>
        obtain ⟨x, y, hx, hy, hxy, hst, hle, heq⟩ := hrest i (by simpa using hi)
        have hs2 : ((rest ++ [(⟨k, a.freq + b.freq⟩ : CNode)]).map CNode.freq).sum = (l.map CNode.freq).sum := by rw [hsum]; simp; omega
        refine ⟨x, y, by omega, by omega, hxy, by rw [← hst]; congr 1; omega, hs2 ▸ hle, fun h => ?_⟩
        rw [heq (by simp; omega), hs2]

/-! ### The store -/

theorem leafNodes_length (w : List Nat) : (leafNodes w).length = w.length := by simp [leafNodes]

theorem leafList_length (w : List Nat) : (leafList w).length = w.length := by simp [leafList]

theorem leafList_ids (w : List Nat) : (leafList w).map CNode.id = List.range w.length := by
  simp only [leafList, List.map_map]
  rw [show ((CNode.id ∘ fun p : Nat × Nat => (⟨p.2, p.1⟩ : CNode)) : Nat × Nat → Nat) = Prod.snd from rfl]
  simp [List.range_eq_range']

theorem leafList_freqs (w : List Nat) : (leafList w).map CNode.freq = w := by
  simp only [leafList, List.map_map]
  rw [show ((CNode.freq ∘ fun p : Nat × Nat => (⟨p.2, p.1⟩ : CNode)) : Nat × Nat → Nat) = Prod.fst from rfl]
  simp

theorem buildTree_length (w : List Nat) : (buildTree w).length = w.length + (w.length - 1) := by
  rw [buildTree, List.length_append, leafNodes_length, mergeLoop_length _ _ _ (by rw [leafList_length]; omega), leafList_length]

/-- R130, R134: the leaves, in symbol order. -/
theorem buildTree_leaf (w : List Nat) (x : Nat) (h : x < w.length) : (buildTree w)[x]? = some (.leaf x w[x]) := by
  rw [buildTree, List.getElem?_append_left (by rwa [leafNodes_length])]
  simp [leafNodes, h]

theorem buildTree_internal (w : List Nat) (i : Nat) : (buildTree w)[w.length + i]? = (mergeLoop w.length w.length (leafList w))[i]? := by
  rw [buildTree, List.getElem?_append_right (by rw [leafNodes_length]; omega), leafNodes_length, Nat.add_sub_cancel_left]

/-- R135: the internal nodes: two different children of lower numbers, and the sum of their weights, which never exceeds the sum of all and at
the last node is it. -/
theorem buildTree_node (w : List Nat) (i : Nat) (h : i < w.length - 1) :
    ∃ a b, a < w.length + i ∧ b < w.length + i ∧ a ≠ b ∧
      (buildTree w)[w.length + i]? = some (.internal a b (nodeFreq (buildTree w) a + nodeFreq (buildTree w) b)) ∧
      nodeFreq (buildTree w) a + nodeFreq (buildTree w) b ≤ w.sum ∧
      (i + 2 = w.length → nodeFreq (buildTree w) a + nodeFreq (buildTree w) b = w.sum) := by
  have hlen := mergeLoop_length w.length w.length (leafList w) (by rw [leafList_length]; omega)
  rw [leafList_length] at hlen
  have := mergeLoop_nodes w.length w.length (leafList w) (buildTree w) (fun i _ => buildTree_internal w i)
    (fun c hc => by
      obtain ⟨⟨f, x⟩, hp, rfl⟩ := List.mem_map.1 hc
      have hx := List.snd_lt_of_mem_zipIdx hp
      obtain ⟨_, _, hf⟩ := List.mem_zipIdx hp
      refine ⟨by simpa using hx, ?_⟩
      simp [nodeFreq, buildTree_leaf w x (by simpa using hx)]
      simp at hf
      exact hf.symm)
    (by rw [leafList_ids]; exact List.nodup_range) i (by rw [hlen]; exact h)
  rwa [leafList_freqs, leafList_length] at this

/-- R135: every node but the root is a child once. -/
theorem buildTree_children (w : List Nat) (h : 2 ≤ w.length) :
    ((buildTree w).flatMap Node.children).Perm (List.range (2 * w.length - 2)) := by
  obtain ⟨root, hp, hroot⟩ := mergeLoop_children w.length w.length (leafList w) (by rw [leafList_length]; omega)
    (fun he => by have := leafList_length w; rw [he] at this; simp at this; omega)
  rw [leafList_ids, leafList_length] at hp
  rw [leafList_length] at hroot
  have hleaf : (leafNodes w).flatMap Node.children = [] := by
    rw [List.flatMap_eq_nil_iff]
    intro n hn
    obtain ⟨p, _, rfl⟩ := List.mem_map.1 hn
    rfl
  rw [buildTree, List.flatMap_append, hleaf, List.nil_append]
  have hr : List.range w.length ++ List.range' w.length (w.length - 1) = List.range (2 * w.length - 2) ++ [root] := by
    rw [hroot h, List.range_eq_range', List.range_eq_range',
      show List.range' w.length (w.length - 1) = List.range' (0 + w.length) (w.length - 1) by rw [Nat.zero_add], List.range'_append_1,
      show w.length + (w.length - 1) = 2 * w.length - 2 + 1 by omega, List.range'_concat]
    simp; omega
  rw [hr] at hp
  exact (List.perm_append_right_iff _).1 hp

end Sys2Proof.Machine
end

