-- ==== Sys2Proof/Laws/Codes.lean ====
section
/-! SUPPORT. The laws of the codes (41_huffman.md R137, R138): a walk of a well-shaped store finds every symbol once, at the end of a path that
passes no leaf before it. -/

namespace Sys2Proof.Machine

/-- The shape the walks rely on (R31, R135): leaves at 0 to 256, internal nodes with lower-numbered children at 257 to 512. -/
structure Shaped (node : List Node) : Prop where
  leaf : ∀ x, x ≤ 256 → ∃ f, node[x]? = some (.leaf x f)
  inner : ∀ n, 256 < n → n ≤ 512 → ∃ a b f, node[n]? = some (.internal a b f) ∧ a < n ∧ b < n

theorem buildTree_shaped (w : List Nat) (h : w.length = 257) : Shaped (buildTree w) where
  leaf x hx := ⟨_, buildTree_leaf w x (by omega)⟩
  inner n h1 h2 := by
    obtain ⟨a, b, ha, hb, _, hn, _⟩ := buildTree_node w (n - 257) (by omega)
    rw [show w.length + (n - 257) = n by omega] at hn ha hb
    exact ⟨a, b, _, hn, ha, hb⟩

/-- The bits lead from node `n` to symbol `s`, and pass no leaf on the way. -/
def Leads (node : List Node) : Nat → Bits → Nat → Prop
  | n, [], s => n = s
  | n, b :: bits, s => sentinelSym < n ∧ Leads node (child node n b) bits s

variable {node : List Node}

theorem child_internal {n a b f : Nat} (h : node[n]? = some (.internal a b f)) (bit : Bool) :
    child node n bit = if bit then b else a := by
  simp [child, h]

/-- What a walk returns from a leaf, and from an internal node. -/
theorem walk_leaf (hs : Shaped node) (d x : Nat) (path : Bits) (hx : x ≤ 256) : walkCodes node (d + 1) x path = [(x, path.reverse)] := by
  obtain ⟨f, hf⟩ := hs.leaf x hx
  simp [walkCodes, hf]

theorem walk_inner {n a b f : Nat} (h : node[n]? = some (.internal a b f)) (d : Nat) (path : Bits) :
    walkCodes node (d + 1) n path = walkCodes node d a (false :: path) ++ walkCodes node d b (true :: path) := by
  simp [walkCodes, h]

/-- Any depth above a node's number reaches everything below it. -/
theorem walk_depth (hs : Shaped node) (n : Nat) (hn : n ≤ 512) (d d' : Nat) (hd : n < d) (hd' : n < d') (path : Bits) :
    walkCodes node d n path = walkCodes node d' n path := by
  induction n using Nat.strongRecOn generalizing d d' path with
  | ind n ih =>
    obtain ⟨d, rfl⟩ := Nat.exists_eq_add_of_lt hd
    obtain ⟨d', rfl⟩ := Nat.exists_eq_add_of_lt hd'
    by_cases h : n ≤ 256
    · rw [walk_leaf hs _ _ _ h, walk_leaf hs _ _ _ h]
    · obtain ⟨a, b, f, hf, ha, hb⟩ := hs.inner n (by omega) hn
      rw [walk_inner hf, walk_inner hf, ih a ha (by omega) _ (n + d') (by omega) (by omega),
        ih b hb (by omega) _ (n + d') (by omega) (by omega)]

/-- Every entry of a walk: its code is the path so far and then bits that lead to its symbol, no more than the node's number allows. -/
theorem walk_mem (hs : Shaped node) (d n : Nat) (hn : n ≤ 512) (path : Bits) {s : Nat} {c : Bits} (h : (s, c) ∈ walkCodes node d n path) :
    ∃ bits, c = path.reverse ++ bits ∧ Leads node n bits s ∧ s ≤ 256 ∧ bits.length ≤ n - 256 ∧ (256 < n → bits ≠ []) := by
  induction d generalizing n path with
  | zero => simp [walkCodes] at h
  | succ d ih =>
    by_cases hl : n ≤ 256
    · rw [walk_leaf hs _ _ _ hl] at h
      obtain ⟨rfl, rfl⟩ : s = n ∧ c = path.reverse := by simpa using h
      exact ⟨[], by simp, rfl, hl, by simp, by omega⟩
    · obtain ⟨a, b, f, hf, ha, hb⟩ := hs.inner n (by omega) hn
      rw [walk_inner hf, List.mem_append] at h
      rcases h with h | h
      · obtain ⟨bits, hc, hle, hsym, hlen, _⟩ := ih a (by omega) _ h
        exact ⟨false :: bits, by simpa using hc, ⟨by simp [sentinelSym]; omega, by simpa [child_internal hf] using hle⟩, hsym,
          by simp; omega, by simp⟩
      · obtain ⟨bits, hc, hle, hsym, hlen, _⟩ := ih b (by omega) _ h
        exact ⟨true :: bits, by simpa using hc, ⟨by simp [sentinelSym]; omega, by simpa [child_internal hf] using hle⟩, hsym,
          by simp; omega, by simp⟩

/-- R138 (c) below one node: the powers of its codes sum to that of the path to it. -/
theorem walk_kraft (hs : Shaped node) (k d n : Nat) (hn : n ≤ 512) (hd : n < d) (path : Bits) (hk : path.length + (n - 256) ≤ k) :
    ((walkCodes node d n path).map fun p => 2 ^ (k - p.2.length)).sum = 2 ^ (k - path.length) := by
  induction d generalizing n path with
  | zero => omega
  | succ d ih =>
    by_cases hl : n ≤ 256
    · simp [walk_leaf hs _ _ _ hl]
    · obtain ⟨a, b, f, hf, ha, hb⟩ := hs.inner n (by omega) hn
      rw [walk_inner hf, List.map_append, List.sum_append, ih a (by omega) (by omega) _ (by simp; omega),
        ih b (by omega) (by omega) _ (by simp; omega), List.length_cons, List.length_cons, ← Nat.two_mul, ← Nat.pow_succ']
      congr 1
      omega

/-- The symbols below a node. -/
def symsBelow (node : List Node) (n : Nat) : List Nat := (walkCodes node (n + 1) n []).map Prod.fst

theorem walk_syms (hs : Shaped node) (n : Nat) (hn : n ≤ 512) (d : Nat) (hd : n < d) (path : Bits) :
    (walkCodes node d n path).map Prod.fst = symsBelow node n := by
  induction n using Nat.strongRecOn generalizing d path with
  | ind n ih =>
    obtain ⟨d, rfl⟩ := Nat.exists_eq_add_of_lt hd
    by_cases h : n ≤ 256
    · simp [symsBelow, walk_leaf hs _ _ _ h]
    · obtain ⟨a, b, f, hf, ha, hb⟩ := hs.inner n (by omega) hn
      rw [symsBelow, walk_inner hf, walk_inner hf, List.map_append, List.map_append, ih a ha (by omega) _ (by omega),
        ih b hb (by omega) _ (by omega), ih a ha (by omega) n (by omega), ih b hb (by omega) n (by omega)]

theorem symsBelow_leaf (hs : Shaped node) (x : Nat) (hx : x ≤ 256) : symsBelow node x = [x] := by
  simp [symsBelow, walk_leaf hs _ _ _ hx]

theorem symsBelow_inner (hs : Shaped node) {n a b f : Nat} (hn : n ≤ 512) (h : node[n]? = some (.internal a b f)) (ha : a < n) (hb : b < n) :
    symsBelow node n = symsBelow node a ++ symsBelow node b := by
  rw [symsBelow, walk_inner h, List.map_append, walk_syms hs a (by omega) n ha, walk_syms hs b (by omega) n hb]

/-- The sum of a function of the children over a store, node by node. -/
theorem sum_children (g : Nat → Nat) (node : List Node) :
    ((node.flatMap Node.children).map g).sum = (node.map fun n => (n.children.map g).sum).sum := by
  induction node with
  | nil => rfl
  | cons n node ih => simp [ih]

/-- Every symbol stands below the root once: what stands below a node stands below one of its children, and every node but the root is a
child once (R135), so the counts over all nodes and over all children differ by the root's. -/
theorem root_syms (hs : Shaped node) (hlen : node.length = 513) (hc : (node.flatMap Node.children).Perm (List.range 512)) :
    (symsBelow node 512).Perm (List.range 257) := by
  refine List.perm_iff_count.2 fun x => ?_
  let g := fun n => (symsBelow node n).count x
  have hnode : ∀ n (h : n < node.length), g n = (if n ≤ 256 then [n].count x else 0) + ((node[n].children).map g).sum := by
    intro n h
    by_cases hl : n ≤ 256
    · obtain ⟨f, hf⟩ := hs.leaf n hl
      have : node[n] = .leaf n f := by rw [List.getElem?_eq_getElem h] at hf; exact Option.some.inj hf
      simp [g, symsBelow_leaf hs n hl, hl, this, Node.children]
    · obtain ⟨a, b, f, hf, ha, hb⟩ := hs.inner n (by omega) (by omega)
      have : node[n] = .internal a b f := by rw [List.getElem?_eq_getElem h] at hf; exact Option.some.inj hf
      simp [g, symsBelow_inner hs (by omega) hf ha hb, hl, this, Node.children]
  have hsum : ((List.range node.length).map g).sum =
      ((List.range node.length).map fun n => if n ≤ 256 then [n].count x else 0).sum + ((node.flatMap Node.children).map g).sum := by
    have hmap : (List.range node.length).map (fun n => if h : n < node.length then ((node[n].children).map g).sum else 0) =
        node.map fun n => (n.children.map g).sum := by
      apply List.ext_getElem
      · simp
      · intro i h1 h2; simp at h1; simp [h1]
    rw [sum_children, ← hmap, ← List.sum_map_add]
    congr 1
    refine List.map_congr_left fun n hn => ?_
    have hn' := List.mem_range.1 hn
    rw [hnode n hn', dif_pos hn']
  rw [(hc.map g).sum_eq, hlen, show (513 : Nat) = 512 + 1 from rfl, List.range_succ, List.map_append, List.sum_append] at hsum
  have hleaf : ((List.range 512 ++ [512]).map fun n => if n ≤ 256 then [n].count x else 0).sum = (List.range 257).count x := by
    rw [← List.range_succ, show Nat.succ 512 = 257 + 256 from rfl, List.range_add, List.map_append, List.sum_append]
    have h2 : (((List.range 256).map (257 + ·)).map fun n => if n ≤ 256 then [n].count x else 0).sum = 0 := by
      rw [List.sum_eq_zero_iff]
      intro y hy
      simp only [List.map_map, List.mem_map, Function.comp] at hy
      obtain ⟨i, _, rfl⟩ := hy
      rw [if_neg (by omega)]
    have h1 : ∀ m, m ≤ 257 → ((List.range m).map fun n => if n ≤ 256 then [n].count x else 0).sum = (List.range m).count x := by
      intro m hm
      induction m with
      | zero => rfl
      | succ m ih =>
        rw [List.range_succ, List.map_append, List.sum_append, ih (by omega), List.count_append]
        simp [show m ≤ 256 by omega]
    rw [h2, h1 257 (by omega), Nat.add_zero]
  rw [hleaf] at hsum
  have hg : g 512 = (List.range 257).count x := by
    simp only [List.map_cons, List.map_nil, List.sum_cons, List.sum_nil] at hsum
    omega
  exact hg

/-! ### The codes of a tree HINIT builds -/

/-- Everything the codes of an installed tree are: each symbol has one, which leads from the root to it; and the walk lists the symbols with
their codes, each once. -/
structure Coded (node : List Node) (code : List Bits) : Prop where
  shaped : Shaped node
  length : code.length = 257
  walk : (walkCodes node nnode rootNode []).Perm ((List.range 257).map fun s => (s, codeAt code s))

theorem coded_buildTree (w : List Nat) (h : w.length = 257) : Coded (buildTree w) (codesOf (buildTree w)) where
  shaped := buildTree_shaped w h
  length := by simp [codesOf, nsym]
  walk := by
    have hs := buildTree_shaped w h
    have hp := root_syms hs (by rw [buildTree_length, h]) (by have := buildTree_children w (by omega); rwa [h] at this)
    rw [← walk_syms hs 512 (le_refl _) nnode (by simp [nnode]) []] at hp
    have hnd : ((walkCodes (buildTree w) nnode 512 []).map Prod.fst).Nodup := hp.nodup_iff.2 List.nodup_range
    have hlook : ∀ l : List (Nat × Bits), (l.map Prod.fst).Nodup → ∀ p ∈ l, l.lookup p.1 = some p.2 := by
      intro l
      induction l with
      | nil => simp
      | cons q l ih =>
        intro hn p hpm
        obtain ⟨q1, q2⟩ := q
        simp only [List.map_cons, List.nodup_cons] at hn
        rcases List.mem_cons.1 hpm with rfl | hpm
        · simp [List.lookup]
        · have hne : p.1 ≠ q1 := fun he => hn.1 (he ▸ List.mem_map_of_mem hpm)
          simp [List.lookup, beq_false_of_ne hne, ih hn.2 p hpm]
    have hcode : ∀ p ∈ walkCodes (buildTree w) nnode 512 [], p = (p.1, codeAt (codesOf (buildTree w)) p.1) := by
      intro p hpm
      have hlt : p.1 < 257 := List.mem_range.1 (hp.mem_iff.1 (List.mem_map_of_mem hpm))
      have := hlook _ hnd p hpm
      simp only [codeAt, codesOf, nsym, rootNode, List.getD_eq_getElem?_getD, List.getElem?_map, List.getElem?_range hlt]
      simp [this]
    calc walkCodes (buildTree w) nnode 512 []
        = (walkCodes (buildTree w) nnode 512 []).map fun p => (p.1, codeAt (codesOf (buildTree w)) p.1) := by
          conv_lhs => rw [← List.map_id (walkCodes (buildTree w) nnode 512 [])]
          exact List.map_congr_left fun p hpm => hcode p hpm
      _ = ((walkCodes (buildTree w) nnode 512 []).map Prod.fst).map fun s => (s, codeAt (codesOf (buildTree w)) s) := by
          rw [List.map_map]; rfl
      _ |>.Perm ((List.range 257).map fun s => (s, codeAt (codesOf (buildTree w)) s)) := hp.map _

variable {code : List Bits}

/-- The code of a symbol leads from the root to it, and has 1 to 256 bits. -/
theorem Coded.leads (h : Coded node code) {s : Nat} (hs : s < 257) :
    Leads node rootNode (codeAt code s) s ∧ 1 ≤ (codeAt code s).length ∧ (codeAt code s).length ≤ 256 := by
  have hm : (s, codeAt code s) ∈ walkCodes node nnode rootNode [] := h.walk.mem_iff.2 (List.mem_map.2 ⟨s, List.mem_range.2 hs, rfl⟩)
  obtain ⟨bits, hc, hl, _, hlen, hne⟩ := walk_mem h.shaped _ _ (by simp [rootNode]) _ hm
  simp only [List.reverse_nil, List.nil_append] at hc
  subst hc
  have := List.length_pos_iff.2 (hne (by simp [rootNode]))
  simp only [rootNode] at hlen
  exact ⟨hl, by omega, by omega⟩

/-- Bits that lead to a symbol determine it, and no longer bits that begin with them lead anywhere else. -/
theorem Leads.unique {n s t : Nat} {p q : Bits} (hp : Leads node n p s) (hq : Leads node n q t) (hs : s ≤ 256) (hpq : p <+: q) : s = t := by
  induction p generalizing n q with
  | nil =>
    obtain rfl : n = s := hp
    cases q with
    | nil => exact hq
    | cons b q => have := hq.1; simp only [sentinelSym] at this; omega
  | cons b p ih =>
    cases q with
    | nil => simp at hpq
    | cons c q =>
      rw [List.cons_prefix_cons] at hpq
      obtain ⟨rfl, hpq⟩ := hpq
      exact ih hp.2 hq.2 hpq

/-- The converse of `walk_mem`: bits that lead to a symbol are in the walk's list. -/
theorem Leads.mem_walk (hs : Shaped node) {n s : Nat} {bits : Bits} (h : Leads node n bits s) (hsym : s ≤ 256) (hn : n ≤ 512) (d : Nat)
    (hd : n < d) (path : Bits) : (s, path.reverse ++ bits) ∈ walkCodes node d n path := by
  induction bits generalizing n d path with
  | nil =>
    obtain rfl : n = s := h
    obtain ⟨d, rfl⟩ := Nat.exists_eq_add_of_lt hd
    simp [walk_leaf hs _ _ _ hsym]
  | cons b bits ih =>
    obtain ⟨h1, h2⟩ := h
    simp only [sentinelSym] at h1
    obtain ⟨a, c, f, hf, ha, hc⟩ := hs.inner n h1 hn
    obtain ⟨d, rfl⟩ : ∃ e, d = e + 1 := ⟨d - 1, by omega⟩
    rw [child_internal hf] at h2
    rw [walk_inner hf, List.mem_append]
    cases b with
    | false => exact .inl (by simpa using ih (n := a) (by simpa using h2) (by omega) d (by omega) (false :: path))
    | true => exact .inr (by simpa using ih (n := c) (by simpa using h2) (by omega) d (by omega) (true :: path))

/-- Only a symbol's code leads from the root to it. -/
theorem Coded.eq_code (h : Coded node code) {s : Nat} {bits : Bits} (hl : Leads node rootNode bits s) (hs : s ≤ 256) : bits = codeAt code s := by
  have hm := hl.mem_walk h.shaped hs (by simp [rootNode]) nnode (by simp [rootNode, nnode]) []
  obtain ⟨x, _, hx⟩ := List.mem_map.1 (h.walk.mem_iff.1 hm)
  simp only [List.reverse_nil, List.nil_append, Prod.mk.injEq] at hx
  rw [← hx.2, hx.1]

/-- Bits read from an internal node either begin with a path to a symbol, or are themselves the beginning of a longer one. -/
theorem Shaped.leads_or (hs : Shaped node) {n : Nat} (h1 : 256 < n) (h2 : n ≤ 512) (bits : Bits) :
    (∃ s p rest, s ≤ 256 ∧ bits = p ++ rest ∧ Leads node n p s) ∨ ∃ s q, s ≤ 256 ∧ q ≠ [] ∧ Leads node n (bits ++ q) s := by
  induction bits generalizing n with
  | nil =>
    have hw := walk_kraft hs (n - 256) (n + 1) n h2 (Nat.lt_succ_self n) [] (by simp)
    cases hl : walkCodes node (n + 1) n [] with
    | nil => rw [hl] at hw; exact absurd hw (Nat.two_pow_pos _).ne
    | cons e es =>
      obtain ⟨s, c⟩ := e
      obtain ⟨q, _, hq, hsym, _, hne⟩ := walk_mem hs _ n h2 [] (hl ▸ List.mem_cons_self : (s, c) ∈ walkCodes node (n + 1) n [])
      exact .inr ⟨s, q, hsym, hne h1, hq⟩
  | cons b bits ih =>
    obtain ⟨a, c, f, hf, ha, hc⟩ := hs.inner n h1 h2
    have hk : child node n b < n := by rw [child_internal hf]; split <;> assumption
    by_cases hleaf : child node n b ≤ 256
    · exact .inl ⟨_, [b], bits, hleaf, rfl, h1, rfl⟩
    · rcases ih (by omega) (by omega : child node n b ≤ 512) with ⟨s, p, rest, hsym, he, hp⟩ | ⟨s, q, hsym, hq, hp⟩
      · exact .inl ⟨s, b :: p, rest, hsym, by rw [he]; rfl, h1, hp⟩
      · exact .inr ⟨s, q, hsym, hq, h1, hp⟩

/-- R138 (c): any bits begin with a code, or are a proper beginning of one. -/
theorem Coded.code_or (h : Coded node code) (bits : Bits) :
    (∃ s rest, s ≤ 256 ∧ bits = codeAt code s ++ rest) ∨ ∃ s q, s ≤ 256 ∧ q ≠ [] ∧ codeAt code s = bits ++ q := by
  rcases h.shaped.leads_or (n := rootNode) (by simp [rootNode]) (by simp [rootNode]) bits with ⟨s, p, rest, hs, he, hl⟩ | ⟨s, q, hs, hq, hl⟩
  · exact .inl ⟨s, rest, hs, by rw [he, h.eq_code hl hs]⟩
  · exact .inr ⟨s, q, hs, hq, (h.eq_code hl hs).symm⟩

end Sys2Proof.Machine
end

