-- ==== Sys2Proof/Laws/PerInstr.lean ====
section
/-! SUPPORT. Statements about every instruction as syntax, one lemma per constructor. -/

/-- R70, R72, R73: an instruction's word has RSV = 0, the operation of its fields in bits 3:0, and T set for one word only. -/
def Sys2Proof.Laws.EncodesLegalWord.Statement (i : Sys2Proof.Instr) : Prop :=
  (Sys2Proof.encode i).extractLsb' 5 27 = 0 ∧ (Sys2Proof.encode i).extractLsb' 0 4 = i.fields.op ∧
    ((Sys2Proof.encode i).getLsbD 4 = true ↔ i = .hinit .freq)

open Sys2Proof.Laws.EncodesLegalWord

theorem Sys2Proof.Laws.EncodesLegalWord.vpack : Statement .vpack := by unfold Statement; decide

theorem Sys2Proof.Laws.EncodesLegalWord.vunpack : Statement .vunpack := by unfold Statement; decide

theorem Sys2Proof.Laws.EncodesLegalWord.vclear : Statement .vclear := by unfold Statement; decide

theorem Sys2Proof.Laws.EncodesLegalWord.vgrow : Statement .vgrow := by unfold Statement; decide

theorem Sys2Proof.Laws.EncodesLegalWord.vsize : Statement .vsize := by unfold Statement; decide

theorem Sys2Proof.Laws.EncodesLegalWord.vpushb : Statement .vpushb := by unfold Statement; decide

theorem Sys2Proof.Laws.EncodesLegalWord.hinit (t : Sys2Proof.TableSel) : Statement (.hinit t) := by unfold Statement; cases t <;> decide

theorem Sys2Proof.Laws.EncodesLegalWord.hcomp : Statement .hcomp := by unfold Statement; decide

theorem Sys2Proof.Laws.EncodesLegalWord.hdecomp : Statement .hdecomp := by unfold Statement; decide
end

