-- ==== Sys2Proof/Laws/Stream.lean ====
section
/-! SUPPORT. The laws of the Huffman stream: packing and reading bits in either order (20_memory.md R63), and what a decoding walk does on bits
that lead to a symbol (41_huffman.md R143). -/

namespace Sys2Proof.Machine

/-! ### Bytes and bits -/

/-- A byte made of eight bits has them as its stream bits, in either order. -/
theorem byteOfBits_bits (o : BitOrder) (b0 b1 b2 b3 b4 b5 b6 b7 : Bool) :
    (List.range 8).map (byteStreamBit o (byteOfBits o [b0, b1, b2, b3, b4, b5, b6, b7])) = [b0, b1, b2, b3, b4, b5, b6, b7] := by
  revert b0 b1 b2 b3 b4 b5 b6 b7
  cases o <;> decide

/-- A byte is determined by its stream bits. -/
theorem byteOfBits_of_bits (o : BitOrder) (b : Byte) : byteOfBits o ((List.range 8).map (byteStreamBit o b)) = b := by
  revert b
  cases o <;> decide +kernel

/-- R63: whole bytes packed and read back are the bits, and there are as many bytes as that takes. -/
theorem packBits_spec (o : BitOrder) (n : Nat) (bits : Bits) (h : bits.length = 8 * n) :
    streamBits o (packBits o bits) = bits ∧ (packBits o bits).length = n := by
  induction n generalizing bits with
  | zero =>
    have := List.length_eq_zero_iff.1 (by simpa using h)
    subst this
    exact ⟨rfl, rfl⟩
  | succ n ih =>
    match bits, h with
    | b0 :: b1 :: b2 :: b3 :: b4 :: b5 :: b6 :: b7 :: rest, h =>
      obtain ⟨h1, h2⟩ := ih rest (by simp at h; omega)
      simp only [packBits, streamBits, List.flatMap_cons, byteOfBits_bits, List.length_cons, h2, and_true]
      rw [streamBits] at h1
      rw [h1]
      rfl

theorem streamBits_append (o : BitOrder) (a b : List Byte) : streamBits o (a ++ b) = streamBits o a ++ streamBits o b := by
  simp [streamBits]

theorem streamBits_length (o : BitOrder) (bs : List Byte) : (streamBits o bs).length = 8 * bs.length := by
  induction bs with
  | nil => rfl
  | cons b bs ih => rw [streamBits, List.flatMap_cons, List.length_append, ← streamBits, ih]; simp; omega

/-- Reading all bits and packing them again gives the bytes. -/
theorem packBits_streamBits (o : BitOrder) (bs : List Byte) : packBits o (streamBits o bs) = bs := by
  induction bs with
  | nil => rfl
  | cons b bs ih =>
    have hb := byteOfBits_of_bits o b
    simp only [streamBits, List.flatMap_cons] at ih ⊢
    simp only [List.range, List.range.loop, List.map_cons, List.map_nil, List.cons_append, List.nil_append, packBits] at hb ih ⊢
    rw [hb, ih]

/-- R63: `stream_bit` is the element of the list of all stream bits. -/
theorem streamBit_eq_getElem (o : BitOrder) (bs : List Byte) (j : Nat) (h : j < (streamBits o bs).length) :
    streamBit o bs j = (streamBits o bs)[j] := by
  induction bs generalizing j with
  | nil => simp [streamBits] at h
  | cons b bs ih =>
    have hlen : ((List.range 8).map (byteStreamBit o b)).length = 8 := by simp
    simp only [streamBits, List.flatMap_cons] at h ⊢
    by_cases hj : j < 8
    · rw [List.getElem_append_left (by rwa [hlen])]
      simp [streamBit, Nat.div_eq_of_lt hj, Nat.mod_eq_of_lt hj]
    · rw [List.getElem_append_right (by rw [hlen]; omega)]
      have h8 : j - 8 < (streamBits o bs).length := by rw [streamBits]; rw [List.length_append, hlen] at h; omega
      have := ih (j - 8) h8
      simp only [streamBits] at this
      simp only [hlen]
      rw [← this]
      simp only [streamBit]
      rw [show j / 8 = (j - 8) / 8 + 1 by omega, List.getElem?_cons_succ, show j % 8 = (j - 8) % 8 by omega]

/-- R63: the stream bits, written with `stream_bit`. -/
theorem streamBits_eq_map (o : BitOrder) (bs : List Byte) : streamBits o bs = (List.range (8 * bs.length)).map (streamBit o bs) :=
  List.ext_getElem (by simp [streamBits_length]) fun j h _ => by simp [streamBit_eq_getElem o bs j h]

/-! ### Padding -/

theorem bytesFor_spec (n : Nat) : n ≤ 8 * bytesFor n ∧ 8 * bytesFor n < n + 8 := by
  unfold bytesFor; omega

theorem padBits_length (s : Bits) : (padBits s).length = 8 * bytesFor s.length := by
  have := bytesFor_spec s.length
  simp [padBits]; omega

/-- What the bytes of an encoding read as: the codes of the data and of the sentinel, and then the padding (R141). -/
theorem streamBits_huffEncode (o : BitOrder) (code : List Bits) (d : List Byte) :
    ∃ pad, streamBits o (huffEncode o code d) = codeStream code d ++ pad := by
  exact ⟨_, (packBits_spec o _ _ (padBits_length _)).1⟩

theorem huffEncode_length (o : BitOrder) (code : List Bits) (d : List Byte) :
    (huffEncode o code d).length = bytesFor (codeStream code d).length :=
  (packBits_spec o _ _ (padBits_length _)).2

/-! ### Decoding -/

/-- Where a walk arrives at a symbol: the sentinel ends it, a data symbol is emitted if there is room (R143). -/
def arrive (node : List Node) (s : Nat) (bits : Bits) (room : Nat) : HuffResult :=
  if s = sentinelSym then .ok []
  else match room with
    | 0 => .capacityExceeded
    | r + 1 => (huffWalk node bits rootNode r).emit (BitVec.ofNat 8 s)

/-- One bit of a walk, by whether it arrives at a leaf. -/
theorem huffWalk_cons (node : List Node) (b : Bool) (bits : Bits) (cur room : Nat) :
    huffWalk node (b :: bits) cur room =
      if child node cur b ≤ sentinelSym then arrive node (child node cur b) bits room else huffWalk node bits (child node cur b) room :=
  rfl

/-- A walk along bits that lead to a symbol arrives there with what follows them. -/
theorem huffWalk_leads {node : List Node} {n s : Nat} {bits : Bits} (h : Leads node n bits s) (hs : s ≤ 256) (hn : bits ≠ []) (rest : Bits)
    (room : Nat) : huffWalk node (bits ++ rest) n room = arrive node s rest room := by
  induction bits generalizing n with
  | nil => exact absurd rfl hn
  | cons b bits ih =>
    rw [List.cons_append, huffWalk_cons]
    cases bits with
    | nil =>
      have h1 : child node n b = s := h.2
      rw [h1, if_pos (by simpa [sentinelSym] using hs), List.nil_append]
    | cons c bits =>
      have h1 := h.2.1
      rw [if_neg (by omega)]
      exact ih h.2 (by simp)

/-- Decoding a code stream gives the data when there is room for it, whatever follows (R143, R145). -/
theorem huffWalk_codeStream {node : List Node} {code : List Bits} (h : Coded node code) (d : List Byte) (rest : Bits) (room : Nat)
    (hr : d.length ≤ room) : huffWalk node (codeStream code d ++ rest) rootNode room = .ok d := by
  have hsent := h.leads (s := 256) (by omega)
  induction d generalizing room with
  | nil =>
    simp only [codeStream, List.flatMap_nil, List.nil_append, sentinelSym]
    rw [huffWalk_leads hsent.1 (le_refl _) (List.length_pos_iff.1 hsent.2.1)]
    simp [arrive, sentinelSym]
  | cons b d ih =>
    have hb := b.isLt
    have hlead := h.leads (s := b.toNat) (by omega)
    obtain ⟨r, rfl⟩ : ∃ r, room = r + 1 := ⟨room - 1, by simp at hr; omega⟩
    have := ih r (by simpa using hr)
    simp only [codeStream, List.flatMap_cons, List.append_assoc] at this ⊢
    rw [huffWalk_leads hlead.1 (by omega) (List.length_pos_iff.1 hlead.2.1), arrive, if_neg (by simp [sentinelSym]; omega), this]
    simp [HuffResult.emit]

/-- Bits after those that decide a walk do not matter. -/
theorem huffWalk_append (node : List Node) (bits extra : Bits) (cur room : Nat) (h : huffWalk node bits cur room ≠ .truncatedStream) :
    huffWalk node (bits ++ extra) cur room = huffWalk node bits cur room := by
  induction bits generalizing cur room with
  | nil => exact absurd rfl h
  | cons b bits ih =>
    rw [List.cons_append, huffWalk_cons, huffWalk_cons] at *
    split
    · next hc =>
      rw [if_pos hc] at h
      unfold arrive at *
      split
      · rfl
      · next hs =>
        rw [if_neg hs] at h
        cases room with
        | zero => rfl
        | succ r =>
          simp only at h ⊢
          rw [ih]
          intro he
          rw [he] at h
          exact h rfl
    · next hc => rw [if_neg hc] at h; exact ih _ _ h

/-- A walk emits no more than it has room for, and fewer bytes than it reads bits; and it runs out of room only on more bits than that. -/
theorem huffWalk_bounds (node : List Node) (bits : Bits) (cur room : Nat) :
    (∀ out, huffWalk node bits cur room = .ok out → out.length ≤ room ∧ out.length + 1 ≤ bits.length) ∧
    (huffWalk node bits cur room = .capacityExceeded → room + 1 ≤ bits.length) := by
  induction bits generalizing cur room with
  | nil => simp [huffWalk]
  | cons b bits ih =>
    rw [huffWalk_cons]
    split
    · unfold arrive
      split
      · simp
      · cases room with
        | zero => simp
        | succ r =>
          obtain ⟨h1, h2⟩ := ih rootNode r
          cases hw : huffWalk node bits rootNode r with
          | ok out =>
            have := h1 out hw
            simp only [hw, HuffResult.emit, HuffResult.ok.injEq, reduceCtorEq, false_imp_iff, and_true]
            rintro _ rfl
            simp; omega
          | truncatedStream => simp [hw, HuffResult.emit]
          | capacityExceeded => have := h2 hw; simp [hw, HuffResult.emit]; omega
    · obtain ⟨h1, h2⟩ := ih (child node cur b) room
      refine ⟨fun out ho => ?_, fun ho => ?_⟩
      · have := h1 out ho; simp; omega
      · have := h2 ho; simp; omega

/-- The codes of the data alone, without the sentinel's. -/
abbrev dataCodes (code : List Bits) (d : List Byte) : Bits := d.flatMap fun b => codeAt code b.toNat

/-- Decoding the codes of some data: they are emitted one by one while there is room, and then the room has run out, whatever follows. -/
theorem huffWalk_dataCodes {node : List Node} {code : List Bits} (h : Coded node code) (d : List Byte) (rest : Bits) (room : Nat) :
    huffWalk node (dataCodes code d ++ rest) rootNode room =
      if d.length ≤ room then d.foldr HuffResult.emit (huffWalk node rest rootNode (room - d.length)) else .capacityExceeded := by
  induction d generalizing room with
  | nil => simp
  | cons b d ih =>
    have hb := b.isLt
    have hlead := h.leads (s := b.toNat) (by omega)
    have hne : b.toNat ≠ 256 := by omega
    rw [dataCodes, List.flatMap_cons, List.append_assoc, huffWalk_leads hlead.1 (by omega) (List.length_pos_iff.1 hlead.2.1)]
    cases room with
    | zero => simp [arrive, sentinelSym, hne]
    | succ r =>
      simp only [arrive, sentinelSym, hne, if_false, BitVec.ofNat_toNat, BitVec.setWidth_eq, List.length_cons, Nat.add_le_add_iff_right,
        Nat.add_sub_add_right, List.foldr_cons]
      rw [ih r]
      split <;> rfl

/-- Bits that are a proper beginning of a path to a symbol run out before they arrive. -/
theorem huffWalk_short {node : List Node} {n s : Nat} {bits q : Bits} (h : Leads node n (bits ++ q) s) (hq : q ≠ []) (room : Nat) :
    huffWalk node bits n room = .truncatedStream := by
  induction bits generalizing n with
  | nil => rfl
  | cons b bits ih =>
    have h2 : Leads node (child node n b) (bits ++ q) s := h.2
    have hin : sentinelSym < child node n b := by
      cases hx : bits ++ q with
      | nil => simp at hx; exact absurd hx.2 hq
      | cons c r => exact (hx ▸ h2).1
    rw [huffWalk_cons, if_neg (by omega)]
    exact ih h2

theorem foldr_emit (d : List Byte) : d.foldr HuffResult.emit (.ok []) = .ok d ∧ d.foldr HuffResult.emit .truncatedStream = .truncatedStream := by
  induction d with
  | nil => exact ⟨rfl, rfl⟩
  | cons b d ih => simp [ih.1, ih.2, HuffResult.emit]

/-- Everything a walk from the root can do (R143): the bits are the codes of some data and the sentinel's, or of one byte more than there is room
for, or they end inside a code. -/
theorem huffWalk_cases {node : List Node} {code : List Bits} (h : Coded node code) (bits : Bits) (room : Nat) :
    (∃ d tail, d.length ≤ room ∧ bits = dataCodes code d ++ codeAt code 256 ++ tail ∧ huffWalk node bits rootNode room = .ok d) ∨
    (∃ d tail, d.length = room + 1 ∧ bits = dataCodes code d ++ tail ∧ huffWalk node bits rootNode room = .capacityExceeded) ∨
    ∃ d tail s q, d.length ≤ room ∧ bits = dataCodes code d ++ tail ∧ s ≤ 256 ∧ q ≠ [] ∧ codeAt code s = tail ++ q ∧
      huffWalk node bits rootNode room = .truncatedStream := by
  induction room generalizing bits with
  | zero =>
    rcases h.code_or bits with ⟨s, rest, hs, rfl⟩ | ⟨s, q, hs, hq, he⟩
    · have hlead := h.leads (s := s) (by omega)
      rw [huffWalk_leads hlead.1 hs (List.length_pos_iff.1 hlead.2.1)]
      by_cases h256 : s = 256
      · subst h256
        exact .inl ⟨[], rest, by simp, by simp, by simp [arrive, sentinelSym]⟩
      · exact .inr (.inl ⟨[BitVec.ofNat 8 s], rest, rfl, by simp [dataCodes, Nat.mod_eq_of_lt (by omega : s < 256)],
          by simp [arrive, sentinelSym, h256]⟩)
    · exact .inr (.inr ⟨[], bits, s, q, by simp, by simp, hs, hq, he, huffWalk_short (he ▸ (h.leads (s := s) (by omega)).1) hq _⟩)
  | succ r ih =>
    rcases h.code_or bits with ⟨s, rest, hs, rfl⟩ | ⟨s, q, hs, hq, he⟩
    · have hlead := h.leads (s := s) (by omega)
      rw [huffWalk_leads hlead.1 hs (List.length_pos_iff.1 hlead.2.1)]
      by_cases h256 : s = 256
      · subst h256
        exact .inl ⟨[], rest, by simp, by simp, by simp [arrive, sentinelSym]⟩
      · have hb : (BitVec.ofNat 8 s).toNat = s := by simp; omega
        have hd : ∀ d, codeAt code s ++ dataCodes code d = dataCodes code (BitVec.ofNat 8 s :: d) := by simp [dataCodes, hb]
        simp only [arrive, sentinelSym, h256, if_false]
        rcases ih rest with ⟨d, tail, hl, rfl, hw⟩ | ⟨d, tail, hl, rfl, hw⟩ | ⟨d, tail, x, q, hl, rfl, hx, hq, he, hw⟩ <;>
          simp only [hw, HuffResult.emit, ← List.append_assoc, hd]
        · exact .inl ⟨_ :: d, tail, by simpa using hl, rfl, rfl⟩
        · exact .inr (.inl ⟨_ :: d, tail, by simpa using hl, rfl, trivial⟩)
        · exact .inr (.inr ⟨_ :: d, tail, x, q, by simpa using hl, rfl, hx, hq, he, trivial⟩)
    · exact .inr (.inr ⟨[], bits, s, q, by simp, by simp, hs, hq, he, huffWalk_short (he ▸ (h.leads (s := s) (by omega)).1) hq _⟩)

/-! ### The longest code -/

theorem foldl_max_spec (l : List Nat) (m : Nat) : (∀ x ∈ l, x ≤ l.foldl max m) ∧ m ≤ l.foldl max m ∧ (l.foldl max m = m ∨ l.foldl max m ∈ l) := by
  induction l generalizing m with
  | nil => simp
  | cons y l ih =>
    obtain ⟨h1, h2, h3⟩ := ih (max m y)
    refine ⟨fun x hx => ?_, by simp only [List.foldl_cons]; omega, ?_⟩
    · simp only [List.foldl_cons]
      rcases List.mem_cons.1 hx with rfl | hx
      · omega
      · exact h1 x hx
    · simp only [List.foldl_cons, List.mem_cons]
      rcases h3 with h3 | h3
      · rcases max_choice m y with h | h <;> rw [h3, h] <;> simp
      · exact .inr (.inr h3)

/-- R139: `longestCode` is the length of some symbol's code, and none is longer. -/
theorem longestCode_spec (code : List Bits) (h : code ≠ []) :
    (∀ s, (codeAt code s).length ≤ longestCode code) ∧ ∃ s, s < code.length ∧ (codeAt code s).length = longestCode code := by
  obtain ⟨h1, _, h3⟩ := foldl_max_spec (code.map List.length) 0
  refine ⟨fun s => ?_, ?_⟩
  · by_cases hs : s < code.length
    · have hm : code[s] ∈ code := List.getElem_mem hs
      simpa [codeAt, longestCode, hs] using h1 _ (List.mem_map_of_mem hm)
    · simp [codeAt, hs]
  · rcases h3 with h3 | h3
    · have hp := List.length_pos_iff.2 h
      refine ⟨0, hp, ?_⟩
      have := h1 _ (List.mem_map_of_mem (List.getElem_mem hp))
      simp [codeAt, longestCode, h3, hp] at this ⊢
      exact this
    · obtain ⟨c, hc, hl⟩ := List.mem_map.1 h3
      obtain ⟨s, hs, rfl⟩ := List.getElem_of_mem hc
      exact ⟨s, hs, by simp [codeAt, longestCode, hs, ← hl]⟩

/-- A code stream is no longer than as many of the longest codes (R146). -/
theorem codeStream_length_le (code : List Bits) (h : code ≠ []) (d : List Byte) :
    (codeStream code d).length ≤ longestCode code * (d.length + 1) := by
  obtain ⟨h1, _⟩ := longestCode_spec code h
  induction d with
  | nil => simpa [codeStream] using h1 sentinelSym
  | cons b d ih =>
    have hb := h1 b.toNat
    simp only [codeStream, List.flatMap_cons, List.append_assoc, List.length_append, List.length_cons] at ih ⊢
    rw [Nat.mul_add, Nat.mul_one]
    omega

end Sys2Proof.Machine
end

