-- ==== Sys2Proof/Laws/VarInt.lean ====
section
/-! SUPPORT. The laws of the VarInt format: the bytes the encoder makes, and what the decoder's walk does with any bytes. -/

namespace Sys2Proof.Machine

/-! ### Bytes -/

/-- Chunk and continuation flag of bytes 1 to 4, read back. -/
theorem chunkByte (m r : Nat) :
    (BitVec.ofNat 8 ((m &&& 0x7F) ||| contFlag r)).toNat &&& 0x7F = m % 128 ∧
    (BitVec.ofNat 8 ((m &&& 0x7F) ||| contFlag r)).getLsbD 7 = decide (r ≠ 0) := by
  have key : ∀ x < 128, ((BitVec.ofNat 8 (x ||| 0)).toNat &&& 0x7F = x ∧ (BitVec.ofNat 8 (x ||| 0)).getLsbD 7 = false) ∧
      ((BitVec.ofNat 8 (x ||| 0x80)).toNat &&& 0x7F = x ∧ (BitVec.ofNat 8 (x ||| 0x80)).getLsbD 7 = true) := by decide
  have hm : m &&& 0x7F = m % 128 := Nat.and_two_pow_sub_one_eq_mod m 7
  have := key (m % 128) (Nat.mod_lt _ (by decide))
  by_cases hr : r = 0 <;> simp_all [contFlag]

/-- Chunk, sign flag and continuation flag of byte 0, read back. -/
theorem headByte (sign : Bool) (m r : Nat) :
    (BitVec.ofNat 8 (((if sign then 1 else 0) <<< 6) ||| (m &&& 0x3F) ||| contFlag r)).toNat &&& 0x3F = m % 64 ∧
    (BitVec.ofNat 8 (((if sign then 1 else 0) <<< 6) ||| (m &&& 0x3F) ||| contFlag r)).getLsbD 6 = sign ∧
    (BitVec.ofNat 8 (((if sign then 1 else 0) <<< 6) ||| (m &&& 0x3F) ||| contFlag r)).getLsbD 7 = decide (r ≠ 0) := by
  have key : ∀ x < 64, ∀ s : Bool, ∀ c : Bool,
      (BitVec.ofNat 8 (((if s then 1 else 0) <<< 6) ||| x ||| (if c then 0x80 else 0))).toNat &&& 0x3F = x ∧
      (BitVec.ofNat 8 (((if s then 1 else 0) <<< 6) ||| x ||| (if c then 0x80 else 0))).getLsbD 6 = s ∧
      (BitVec.ofNat 8 (((if s then 1 else 0) <<< 6) ||| x ||| (if c then 0x80 else 0))).getLsbD 7 = c := by decide
  have hm : m &&& 0x3F = m % 64 := Nat.and_two_pow_sub_one_eq_mod m 6
  have := key (m % 64) (Nat.mod_lt _ (by decide)) sign (decide (r ≠ 0))
  by_cases hr : r = 0 <;> simp_all [contFlag]

/-! ### The encoder -/

/-- R111 (a): a magnitude is below 2^31. -/
theorem varintMagnitude_lt (v : Word) : varintMagnitude v < 2 ^ 31 := by
  unfold varintMagnitude
  have h := v.isLt
  cases hm : v.msb <;> simp only [BitVec.msb_eq_decide, decide_eq_false_iff_not, decide_eq_true_eq] at hm
  · simp; omega
  · simp [BitVec.toNat_not]; omega

/-- The sign fold undoes the magnitude: R100 and R102 meet. -/
theorem signFold_magnitude (v : Word) : signFold v.msb (varintMagnitude v) = v := by
  unfold signFold varintMagnitude
  cases v.msb <;> simp only [Bool.false_eq_true, if_true, if_false, BitVec.ofNat_toNat, BitVec.setWidth_eq, BitVec.not_not]

theorem varintChunks_length_le (p m : Nat) : (varintChunks p m).length ≤ p := by
  induction p generalizing m with
  | zero => simp [varintChunks]
  | succ p ih => simp only [varintChunks]; split <;> simp [ih]

/-- How many chunks a remainder takes: `j` suffice exactly when it is below 2^(7j). -/
theorem varintChunks_length_le_iff (p j m : Nat) (hj : j ≤ p) (hm : m < 2 ^ (7 * p)) : (varintChunks p m).length ≤ j ↔ m < 2 ^ (7 * j) := by
  induction p generalizing j m with
  | zero => simp_all [varintChunks]
  | succ p ih =>
    simp only [varintChunks]
    split
    · next h => simp [h]
    · next h =>
      cases j with
      | zero => simp; omega
      | succ j =>
        have h7 : m >>> 7 < 2 ^ (7 * p) := by
          rw [Nat.shiftRight_eq_div_pow, Nat.div_lt_iff_lt_mul (by decide), ← Nat.pow_add]
          exact hm
        rw [List.length_cons, Nat.add_le_add_iff_right, ih j (m >>> 7) (by omega) h7, Nat.shiftRight_eq_div_pow, Nat.div_lt_iff_lt_mul (by decide),
          ← Nat.pow_add, Nat.mul_add]

theorem varintEncode_length (v : Word) : (varintEncode v).length = 1 + (varintChunks 4 (varintMagnitude v >>> 6)).length := by
  simp [varintEncode, Nat.add_comm]

/-- R101: `k` bytes suffice exactly when the magnitude is below 2^(6 + 7(k-1)). -/
theorem varintEncode_length_le_iff (v : Word) (j : Nat) (hj : j ≤ 4) : (varintEncode v).length ≤ j + 1 ↔ varintMagnitude v < 2 ^ (6 + 7 * j) := by
  have h : varintMagnitude v >>> 6 < 2 ^ (7 * 4) := by
    have := varintMagnitude_lt v
    rw [Nat.shiftRight_eq_div_pow]; omega
  rw [varintEncode_length, Nat.add_comm, Nat.add_le_add_iff_right, varintChunks_length_le_iff 4 j _ hj h, Nat.shiftRight_eq_div_pow,
    Nat.div_lt_iff_lt_mul (by decide), ← Nat.pow_add, Nat.add_comm 6]

theorem varintEncode_length_pos (v : Word) : 1 ≤ (varintEncode v).length := by
  rw [varintEncode_length]; omega

theorem varintEncode_length_le (v : Word) : (varintEncode v).length ≤ 5 := by
  rw [varintEncode_length]
  have := varintChunks_length_le 4 (varintMagnitude v >>> 6)
  omega

/-! ### The decoder's walk -/

/-- A chunk added above a magnitude that ends below it. -/
theorem or_shiftLeft_eq_add (m c i : Nat) (h : m < 2 ^ i) : m ||| (c <<< i) = m + c * 2 ^ i := by
  rw [Nat.shiftLeft_eq, Nat.or_comm, Nat.mul_comm c, ← Nat.two_pow_add_eq_or_of_lt h, Nat.add_comm]

/-- What the walk finds in the encoder's chunks: the rest of the magnitude, and as many bytes as there are chunks. -/
theorem varintWalk_chunks (p m k acc : Nat) (q : List Byte) (hk : 1 ≤ k) (hacc : acc < 2 ^ (6 + 7 * (k - 1))) (hm : m < 2 ^ (7 * p)) :
    varintWalk p (varintChunks p m ++ q) k acc (decide (m ≠ 0)) =
      some (acc + m * 2 ^ (6 + 7 * (k - 1)), k + (varintChunks p m).length) := by
  induction p generalizing m k acc with
  | zero => simp_all [varintWalk, varintChunks]
  | succ p ih =>
    by_cases h : m = 0
    · simp [h, varintWalk, varintChunks]
    · have h7 : m >>> 7 < 2 ^ (7 * p) := by
        rw [Nat.shiftRight_eq_div_pow, Nat.div_lt_iff_lt_mul (by decide), ← Nat.pow_add]
        exact hm
      have hpow : 2 ^ (6 + 7 * (k + 1 - 1)) = 128 * 2 ^ (6 + 7 * (k - 1)) := by
        rw [show 6 + 7 * (k + 1 - 1) = 7 + (6 + 7 * (k - 1)) by omega, Nat.pow_add]
      have hc : m % 128 * 2 ^ (6 + 7 * (k - 1)) ≤ 127 * 2 ^ (6 + 7 * (k - 1)) := Nat.mul_le_mul_right _ (by omega)
      have hacc' : acc + m % 128 * 2 ^ (6 + 7 * (k - 1)) < 2 ^ (6 + 7 * (k + 1 - 1)) := by rw [hpow]; omega
      simp only [varintChunks, h, if_false, List.cons_append, ne_eq, not_false_eq_true, decide_true, varintWalk, (chunkByte m _).1,
        (chunkByte m _).2, or_shiftLeft_eq_add _ _ _ hacc]
      rw [ih (m >>> 7) (k + 1) _ (by omega) hacc' h7, hpow]
      have hdm : m >>> 7 * (128 * 2 ^ (6 + 7 * (k - 1))) + m % 128 * 2 ^ (6 + 7 * (k - 1)) = m * 2 ^ (6 + 7 * (k - 1)) := by
        rw [← Nat.mul_assoc, ← Nat.add_mul, Nat.shiftRight_eq_div_pow, Nat.div_add_mod' m 128]
      simp only [List.length_cons, Option.some.injEq, Prod.mk.injEq]
      constructor <;> omega

/-- The sum of the chunks in a list of bytes, the first at bit `6 + 7i`. -/
def chunkSum : (i : Nat) → List Byte → Nat
  | _, [] => 0
  | i, b :: q => b.toNat % 128 * 2 ^ (6 + 7 * i) + chunkSum (i + 1) q

theorem chunkSum_eq_zipIdx_sum (i : Nat) (q : List Byte) :
    chunkSum i q = ((q.zipIdx i).map fun p => p.1.toNat % 128 * 2 ^ (6 + 7 * p.2)).sum := by
  induction q generalizing i with
  | nil => rfl
  | cons b q ih => simp [chunkSum, ih]

/-- Everything a walk that ends can have done: it took `j` bytes, no more than were there or than it had passes for; what stands after them
does not matter; and it added their chunks. -/
theorem varintWalk_some {p k m m' k' : Nat} {q : List Byte} {c : Bool} (h : varintWalk p q k m c = some (m', k')) :
    ∃ j, k' = k + j ∧ j ≤ p ∧ j ≤ q.length ∧ (∀ r, varintWalk p (q.take j ++ r) k m c = some (m', k')) ∧
      (1 ≤ k → m < 2 ^ (6 + 7 * (k - 1)) → m' = m + chunkSum (k - 1) (q.take j) ∧ m' < 2 ^ (6 + 7 * (k' - 1))) := by
  induction p generalizing q k m c with
  | zero =>
    simp only [varintWalk, Option.some.injEq, Prod.mk.injEq] at h
    obtain ⟨rfl, rfl⟩ := h
    exact ⟨0, by simp [varintWalk, chunkSum]⟩
  | succ p ih =>
    cases c with
    | false =>
      simp only [varintWalk, Option.some.injEq, Prod.mk.injEq] at h
      obtain ⟨rfl, rfl⟩ := h
      exact ⟨0, by simp [varintWalk, chunkSum]⟩
    | true =>
      cases q with
      | nil => simp [varintWalk] at h
      | cons b q =>
        simp only [varintWalk] at h
        obtain ⟨j, rfl, hj, hq, hr, hs⟩ := ih h
        refine ⟨j + 1, by omega, by omega, by simpa using hq, fun r => by simpa [varintWalk] using hr r, fun hk hm => ?_⟩
        have hand : b.toNat &&& 0x7F = b.toNat % 128 := Nat.and_two_pow_sub_one_eq_mod _ 7
        have hpow : 2 ^ (6 + 7 * (k + 1 - 1)) = 128 * 2 ^ (6 + 7 * (k - 1)) := by
          rw [show 6 + 7 * (k + 1 - 1) = 7 + (6 + 7 * (k - 1)) by omega, Nat.pow_add]
        have hc : b.toNat % 128 * 2 ^ (6 + 7 * (k - 1)) ≤ 127 * 2 ^ (6 + 7 * (k - 1)) := Nat.mul_le_mul_right _ (by omega)
        rw [hand, or_shiftLeft_eq_add _ _ _ hm] at hs
        obtain ⟨h1, h2⟩ := hs (by omega) (by rw [hpow]; omega)
        refine ⟨?_, h2⟩
        rw [h1, List.take_succ_cons, chunkSum, show k + 1 - 1 = k - 1 + 1 by omega, Nat.add_assoc]

/-- A walk finds no end exactly when every byte it may read asks for another and the bytes run out first. -/
theorem varintWalk_none_iff (p k m : Nat) (q : List Byte) (c : Bool) :
    varintWalk p q k m c = none ↔ c = true ∧ q.length < p ∧ ∀ b ∈ q, b.getLsbD 7 = true := by
  induction p generalizing q k m c with
  | zero => simp [varintWalk]
  | succ p ih =>
    cases c with
    | false => simp [varintWalk]
    | true =>
      cases q with
      | nil => simp [varintWalk]
      | cons b q => simp only [varintWalk, ih, List.length_cons, List.mem_cons, forall_eq_or_imp]; simp; tauto

/-- A walk of `p` bytes, and then the last one, is one in which each byte asked for the next. -/
theorem varintWalk_all {p k m m' : Nat} {q : List Byte} {c : Bool} (hp : 0 < p) (h : varintWalk p q k m c = some (m', k + p)) :
    c = true ∧ p ≤ q.length ∧ ∀ b ∈ q.take (p - 1), b.getLsbD 7 = true := by
  induction p generalizing q k m c with
  | zero => omega
  | succ p ih =>
    cases c with
    | false => simp [varintWalk] at h
    | true =>
      cases q with
      | nil => simp [varintWalk] at h
      | cons b q =>
        simp only [varintWalk] at h
        cases p with
        | zero => simp
        | succ p =>
          rw [show k + (p + 1 + 1) = k + 1 + (p + 1) by omega] at h
          obtain ⟨h1, h2, h3⟩ := ih (by omega) h
          refine ⟨rfl, by simpa using h2, ?_⟩
          simpa using ⟨h1, by simpa using h3⟩

/-- The other way: bytes that all ask for the next one are all taken. -/
theorem varintWalk_takes_all {p k m : Nat} {q : List Byte} (hq : p ≤ q.length) (h : ∀ b ∈ q.take (p - 1), b.getLsbD 7 = true) :
    ∃ m', varintWalk p q k m true = some (m', k + p) := by
  induction p generalizing q k m with
  | zero => exact ⟨m, by simp [varintWalk]⟩
  | succ p ih =>
    cases q with
    | nil => simp at hq
    | cons b q =>
      simp only [varintWalk]
      cases p with
      | zero => exact ⟨_, rfl⟩
      | succ p =>
        have hb : b.getLsbD 7 = true := h b (by simp)
        rw [hb]
        obtain ⟨m', hm'⟩ := ih (k := k + 1) (m := m ||| ((b.toNat &&& 0x7F) <<< (6 + 7 * (k - 1)))) (q := q) (by simpa using hq)
          fun x hx => h x (by simp only [Nat.add_sub_cancel, List.take_succ_cons, List.mem_cons]; exact .inr (by simpa using hx))
        exact ⟨m', by rw [hm']; congr 2; omega⟩

theorem varintDecode_cons (mode : Overlong) (b : Byte) (q : List Byte) :
    varintDecode mode (b :: q) = varintResult mode (b.getLsbD 6) (varintWalk 4 q 1 (b.toNat % 64) (b.getLsbD 7)) := by
  have : b.toNat &&& 0x3F = b.toNat % 64 := Nat.and_two_pow_sub_one_eq_mod _ 6
  rw [varintDecode, this]

/-- The end of the decoder by its three results. -/
theorem varintResult_ok_iff (mode : Overlong) (sign : Bool) (r : Option (Nat × Nat)) (v : Word) (k : Nat) :
    varintResult mode sign r = .ok v k ↔ ∃ m, r = some (m, k) ∧ v = signFold sign m ∧ ¬(2 ^ 31 ≤ m ∧ mode = .fault) := by
  cases r with
  | none => simp [varintResult]
  | some p =>
    obtain ⟨m, k'⟩ := p
    by_cases h : 2 ^ 31 ≤ m ∧ mode = .fault
    · rw [varintResult, if_pos h]
      exact ⟨nofun, fun ⟨m', h1, _, h3⟩ => by cases h1; exact absurd h h3⟩
    · rw [varintResult, if_neg h]
      exact ⟨fun h1 => by cases h1; exact ⟨m, rfl, rfl, h⟩, fun ⟨m', h1, h2, _⟩ => by cases h1; rw [h2]⟩

theorem varintResult_insufficient_iff (mode : Overlong) (sign : Bool) (r : Option (Nat × Nat)) :
    varintResult mode sign r = .insufficientData ↔ r = none := by
  cases r with
  | none => simp [varintResult]
  | some p => obtain ⟨m, k⟩ := p; simp only [varintResult]; split <;> simp

theorem varintResult_overflow_iff (mode : Overlong) (sign : Bool) (r : Option (Nat × Nat)) :
    varintResult mode sign r = .varIntOverflow ↔ mode = .fault ∧ ∃ m k, r = some (m, k) ∧ 2 ^ 31 ≤ m := by
  cases r with
  | none => simp [varintResult]
  | some p =>
    obtain ⟨m, k⟩ := p
    by_cases h : 2 ^ 31 ≤ m ∧ mode = .fault
    · rw [varintResult, if_pos h]
      exact ⟨fun _ => ⟨h.2, m, k, rfl, h.1⟩, fun _ => rfl⟩
    · rw [varintResult, if_neg h]
      exact ⟨nofun, fun ⟨h1, m', k', h2, h3⟩ => by cases h2; exact absurd ⟨h3, h1⟩ h⟩

end Sys2Proof.Machine
end

