-- ==== Sys2Proof/Tests/Slice0.lean ====
section
/-! SUPPORT. Tests. Expected values come from the spec: the encodings of R70 and R72, the vectors V1 to V21 of 95_test_vectors.md, or a hand
calculation that the test's docstring gives. The witnesses at the end meet the hypotheses of each statement, clause by clause. -/

namespace Sys2Proof.Tests

open Sys2Proof.Machine

/-! ### Small states -/

/-- A small configuration: VQ of 5 bytes, HIN and HOUT of 3, an all-zero default table, the sentinel's weight 1. -/
def tiny : Config := { Config.reference (Vector.replicate 256 0) with vqCap := 5, hinCap := 3, houtCap := 3 }

/-- The state after a reset under `tiny`. -/
def start : State := State.resetWith tiny 0

/-- `start` with a queue and an operand. -/
def queue (q : List Byte) (arg : Word) : State := { start with vq := q, arg := arg }

/-- A three-symbol tree under the root: symbol 0 has code 0, the sentinel 10, symbol 1 has code 11. Nodes 257 to 510 fill the store and no walk
meets them. -/
def toyNode : List Node :=
  ((List.range 257).map fun x => Node.leaf x 0) ++ List.replicate 254 (Node.internal 0 1 0) ++ [.internal 256 1 0, .internal 0 511 0]

/-- The codes of `toyNode`. -/
def toyCode : List Bits := [[false], [true, true]] ++ List.replicate 254 [] ++ [[true, false]]

/-- A READY state with the toy tree, an input in HIN and its length in ARG. -/
def toy (input : List Byte) (n : Word) : State :=
  { start with hstate := .ready, node := toyNode, code := toyCode, hin := Store.putFront [] input, arg := n }

/-- The state with one access, of agent 0 and 4 bytes, at its port. -/
def access (s : State) (off : Word) (op : HostOp) : State := { s with port := [.access ⟨0, 4, off, op⟩] }

/-- The state a command leaves, and the state before it where the command does not complete. -/
def after (i : Instr) (s : State) : State :=
  match exec i s with
  | .next t => t
  | _ => s

/-- The state a step leaves, and the state before it where the step stops. -/
def afterStep (s : State) : State :=
  match step s with
  | .next t => t
  | _ => s

/-- The bus error a step ends in. -/
def busErrorOf (s : State) : Option BusErrorCause :=
  match step s with
  | .fault (.busError c) => some c
  | _ => none

/-! ### Words (R70, R72, R74) -/

/-- R74 (a): bit 5 set beside HINIT's OP (V21: 0x28). -/
theorem test_wellformed_refuses_rsv : (CmdWord.mk 0x8 0 1).rsvOk = false ∧ (CmdWord.mk 0x8 0 1).legal = false := by decide

/-- R74 (b): the seven reserved operations. -/
theorem test_wellformed_refuses_reserved_op :
    ∀ op ∈ [0x0#4, 0x7#4, 0xB#4, 0xC#4, 0xD#4, 0xE#4, 0xF#4], (CmdWord.mk op 0 0).opOk = false ∧ (CmdWord.mk op 0 0).legal = false := by decide

/-- R74 (c): T = 1 with HCOMP (V21: 0x19). -/
theorem test_wellformed_refuses_t : (CmdWord.mk 0x9 1 0).tOk = false ∧ (CmdWord.mk 0x9 1 0).legal = false := by decide

/-- Each word bit by bit: RSV in 31:5, then T, then OP. -/
theorem test_decode_vpack : decode 0b00000000000000000000000000000001#32 = .ok .vpack := by decide

theorem test_decode_vunpack : decode 0b00000000000000000000000000000010#32 = .ok .vunpack := by decide

theorem test_decode_vclear : decode 0b00000000000000000000000000000011#32 = .ok .vclear := by decide

theorem test_decode_vgrow : decode 0b00000000000000000000000000000100#32 = .ok .vgrow := by decide

theorem test_decode_vsize : decode 0b00000000000000000000000000000101#32 = .ok .vsize := by decide

theorem test_decode_vpushb : decode 0b00000000000000000000000000000110#32 = .ok .vpushb := by decide

theorem test_decode_hinit_builtin : decode 0b00000000000000000000000000001000#32 = .ok (.hinit .builtin) := by decide

theorem test_decode_hinit_freq : decode 0b00000000000000000000000000011000#32 = .ok (.hinit .freq) := by decide

theorem test_decode_hcomp : decode 0b00000000000000000000000000001001#32 = .ok .hcomp := by decide

theorem test_decode_hdecomp : decode 0b00000000000000000000000000001010#32 = .ok .hdecomp := by decide

/-- V21: the four illegal words, and the highest bit alone. -/
theorem test_decode_rejects_by_name :
    decode 0x00000007 = .error .opReserved ∧ decode 0x00000028 = .error .rsvNotZero ∧ decode 0x00000019 = .error .tNotHinit ∧
      decode 0x00000000 = .error .opReserved ∧ decode 0x80000001 = .error .rsvNotZero := by decide

/-- The table's own numbering: a word of 32 bits, and a value that has a bit above them. -/
theorem test_table_words :
    decodeTableWord 32 0x18 = some (.hinit .freq) ∧ decodeTableWord 32 0x07 = none ∧ decodeTableWord 64 0x100000001 = none ∧
      decodeTableWord 8 0x09 = some .hcomp := by decide

/-! ### VarInt (V1, V7, V8, V9) -/

/-- V1, V7: the boundary values and the extremes. -/
theorem test_varint_encode :
    varintEncode 63 = [0x3F] ∧ varintEncode 64 = [0x80, 0x01] ∧ varintEncode 0x000FFFFF = [0xBF, 0xFF, 0x7F] ∧
      varintEncode 0x00100000 = [0x80, 0x80, 0x80, 0x01] ∧ varintEncode 0x07FFFFFF = [0xBF, 0xFF, 0xFF, 0x7F] ∧
      varintEncode 0x08000000 = [0x80, 0x80, 0x80, 0x80, 0x01] ∧ varintEncode (-1) = [0x40] ∧ varintEncode (-64) = [0x7F] ∧
      varintEncode (-65) = [0xC0, 0x01] ∧ varintEncode (-20000000) = [0xFF, 0xB3, 0x89, 0x13] ∧
      varintEncode 0x7FFFFFFF = [0xBF, 0xFF, 0xFF, 0xFF, 0x0F] ∧ varintEncode 0x80000000 = [0xFF, 0xFF, 0xFF, 0xFF, 0x0F] := by decide

/-- V8: both modes. -/
theorem test_varint_decode :
    varintDecode .fault [0x80, 0x00] = .ok 0 2 ∧ varintDecode .fault [0xC0, 0x01, 0x3F] = .ok 0xFFFFFFBF 2 ∧
      varintDecode .fault [0xBF, 0xFF, 0xFF, 0xFF, 0x87, 0x01] = .ok 1073741823 5 ∧
      varintDecode .fault [0xFF, 0xFF, 0xFF, 0xFF, 0x0F] = .ok 0x80000000 5 ∧
      varintDecode .fault [0x80, 0x80] = .insufficientData ∧ varintDecode .wrap [] = .insufficientData ∧
      varintDecode .fault [0x80, 0x80, 0x80, 0x80, 0x10] = .varIntOverflow ∧
      varintDecode .wrap [0x80, 0x80, 0x80, 0x80, 0x10] = .ok 0x80000000 5 ∧ varintDecode .wrap [0xC0, 0x80, 0x80, 0x80, 0x10] = .ok 0x7FFFFFFF 5 ∧
      varintDecode .wrap [0x80, 0x80, 0x80, 0x80, 0x7F] = .ok 0xF8000000 5 ∧ varintDecode .wrap [0xFF, 0xFF, 0xFF, 0xFF, 0xFF] = .ok 0 5 := by
  decide

/-- V9: VPACK of -65 into the empty queue. -/
theorem test_vpack_appends :
    (after .vpack (queue [] 0xFFFFFFBF)).vq = [0xC0, 0x01] ∧ (after .vpack (queue [] 0xFFFFFFBF)).result = 2 := by decide

/-- V9's second row, with 5 bytes of queue: 2 needed, 1 free. -/
theorem test_vpack_full :
    (after .vpack (queue [1, 2, 3, 4] 64)).vq = [1, 2, 3, 4] ∧ (after .vpack (queue [1, 2, 3, 4] 64)).err = .capacityExceeded := by decide

/-- V8: `C0 01 3F` gives -65 and leaves `3F`. -/
theorem test_vunpack_removes :
    (after .vunpack (queue [0xC0, 0x01, 0x3F] 0)).vq = [0x3F] ∧ (after .vunpack (queue [0xC0, 0x01, 0x3F] 0)).result = 0xFFFFFFBF := by decide

/-- V9: `80` alone is InsufficientData and stays. -/
theorem test_vunpack_insufficient :
    (after .vunpack (queue [0x80] 7)).vq = [0x80] ∧ (after .vunpack (queue [0x80] 7)).err = .insufficientData := by decide

/-- V9. -/
theorem test_vclear : (after .vclear { queue [0x05, 0x40] 0 with result := 9 }).vq = [] ∧ (after .vclear { queue [0x05] 0 with result := 9 }).result = 0 := by
  decide

/-- V9's rows of VGROW, with 5 bytes of queue: 3 used, 2 wanted. -/
theorem test_vgrow_fits : (after .vgrow (queue [1, 2, 3] 2)).result = 2 ∧ (after .vgrow (queue [1, 2, 3] 2)).err = .ok := by decide

/-- V9: 3 used, 3 wanted; and 0xFFFFFFFF on the empty queue, without wrap. -/
theorem test_vgrow_exceeds :
    (after .vgrow (queue [1, 2, 3] 3)).err = .capacityExceeded ∧ (after .vgrow (queue [1] 0xFFFFFFFF)).err = .capacityExceeded := by decide

/-- V9. -/
theorem test_vsize : (after .vsize (queue [0x80, 0x01, 0x40] 0)).result = 3 ∧ (after .vsize (queue [0x80, 0x01, 0x40] 0)).vq = [0x80, 0x01, 0x40] := by
  decide

/-- V9: 0x1FF appends FF. -/
theorem test_vpushb_appends : (after .vpushb (queue [] 0x1FF)).vq = [0xFF] ∧ (after .vpushb (queue [] 0x1FF)).result = 1 := by decide

/-- V9: a full queue. -/
theorem test_vpushb_full :
    (after .vpushb (queue [1, 2, 3, 4, 5] 0)).vq = [1, 2, 3, 4, 5] ∧ (after .vpushb (queue [1, 2, 3, 4, 5] 0)).err = .capacityExceeded := by decide

/-! ### Huffman (V6, V10 to V15, V20) -/

/-- V6, with a, b, c, d numbered 0 to 3. -/
theorem test_stable_sort :
    (stableSortDesc CNode.freq [⟨0, 3⟩, ⟨1, 1⟩, ⟨2, 3⟩, ⟨3, 1⟩]).map CNode.id = [0, 2, 1, 3] := by decide

/-- R134 by hand on four leaves of weights 2, 1, 1, 3: sorted 3, 0, 1, 2; node 4 = (2, 1) of weight 2; sorted 3, 0, 4; node 5 = (4, 0) of weight
4; sorted 5, 3; node 6 = (3, 5). -/
theorem test_merges :
    (buildTree [2, 1, 1, 3]).drop 4 = [.internal 2 1 2, .internal 4 0 4, .internal 3 5 7] ∧ insertionTree [2, 1, 1, 3] = buildTree [2, 1, 1, 3] := by
  decide

/-- By hand: the data bits 0 11 0 and the sentinel's 10, padded to 01101000. -/
theorem test_hcomp : (after .hcomp (toy [0, 1, 0] 3)).houtAt 0 = 0x68 ∧ (after .hcomp (toy [0, 1, 0] 3)).result = 1 := by decide +kernel

/-- By hand: 0 11 0 10 and two bits that do not matter. -/
theorem test_hdecomp :
    (List.range 3).map (after .hdecomp (toy [0x6B] 1)).houtAt = [0, 1, 0] ∧ (after .hdecomp (toy [0x6B] 1)).result = 3 := by decide +kernel

/-- As V20's row for a full HOUT, by hand: room for three bytes and a fourth symbol, 0 or 1, before any sentinel; and the empty input (R144). -/
theorem test_hdecomp_no_room :
    (after .hdecomp (toy [0x08] 1)).err = .capacityExceeded ∧ (after .hdecomp (toy [0xFF] 1)).err = .capacityExceeded ∧
      (after .hdecomp (toy [] 0)).err = .truncatedStream := by decide +kernel

/-- Table T2 of V13, the sentinel's weight last. -/
def tableT2 : List Nat := List.replicate 65 0 ++ [5, 5, 2] ++ List.replicate 188 0 ++ [1]

theorem tableT2_length : tableT2.length = 257 := by decide +kernel

/-- V13: T2's last merges, the codes of the sentinel, A, B, C, 0 and 1, and the length of 255's. -/
theorem test_table_t2 :
    (buildTree tableT2).drop 509 = [.internal 508 256 1, .internal 509 67 3, .internal 510 66 8, .internal 65 511 13] ∧
      [256, 0x41, 0x42, 0x43, 0, 1].map (codeAt (codesOf (buildTree tableT2))) =
        [[true, false, false, true], [false], [true, true], [true, false, true], [true, false, false, false, true],
          [true, false, false, false, false, true]] ∧
      (codeAt (codesOf (buildTree tableT2)) 255).length = 256 := by
  decide +kernel

/-- V14, V15: T2's streams of the empty input and of `41 42 43`, in both bit orders. -/
theorem test_streams_t2 :
    huffEncode .msbFirst (codesOf (buildTree tableT2)) [] = [0x90] ∧ huffEncode .lsbFirst (codesOf (buildTree tableT2)) [] = [0x09] ∧
      huffEncode .msbFirst (codesOf (buildTree tableT2)) [0x41, 0x42, 0x43] = [0x76, 0x40] ∧
      huffEncode .lsbFirst (codesOf (buildTree tableT2)) [0x41, 0x42, 0x43] = [0x6E, 0x02] := by
  have h := test_table_t2.2.1
  simp only [List.map_cons, List.map_nil, List.cons.injEq, and_true] at h
  obtain ⟨h256, h41, h42, h43, -⟩ := h
  have hd : codeStream (codesOf (buildTree tableT2)) [0x41, 0x42, 0x43] =
      codeAt (codesOf (buildTree tableT2)) 0x41 ++ codeAt (codesOf (buildTree tableT2)) 0x42 ++ codeAt (codesOf (buildTree tableT2)) 0x43 ++
        codeAt (codesOf (buildTree tableT2)) 256 := by simp [codeStream, sentinelSym]
  have he : codeStream (codesOf (buildTree tableT2)) [] = codeAt (codesOf (buildTree tableT2)) 256 := by simp [codeStream, sentinelSym]
  simp only [huffEncode, hd, he, h256, h41, h42, h43]
  decide

/-- A state with the FREQ table T2 written. -/
def withT2 : State := { start with freq := Store.putFront [] ((tableT2.take 256).map (BitVec.ofNat 32)) }

theorem weights_withT2 : weights .freq withT2 = tableT2 := by decide +kernel

/-- V13: HINIT.T with T2 is READY, RESULT = 256. -/
theorem test_hinit_t2 : ∃ t, exec (.hinit .freq) withT2 = .next t ∧ t.hstate = .ready ∧ t.result = 256 ∧ t.err = .ok := by
  refine ⟨_, rfl, ?_⟩
  have hle : ¬ u32Max < tableT2.sum := by decide +kernel
  have hlong : longestCode (codesOf (buildTree tableT2)) = 256 := by
    have hc := coded_buildTree tableT2 tableT2_length
    obtain ⟨h1, x, hx, h2⟩ := longestCode_spec (codesOf (buildTree tableT2)) fun h => by have := hc.length; rw [h] at this; simp at this
    have h3 := h1 255
    have h4 := test_table_t2.2.2
    have h5 := (hc.leads (by rw [← hc.length]; exact hx) : _ ∧ 1 ≤ (codeAt (codesOf (buildTree tableT2)) x).length ∧ _).2.2
    omega
  simp only [hinitEnd, weights_withT2, if_neg hle, hlong, finish]
  decide

/-- V20: FREQ sums to 2^32 - 1 and the sentinel makes it 2^32. -/
def overweight : State := { start with freq := Store.putFront [] (0xFFFFFFFF :: List.replicate 255 0) }

theorem overweight_sum : u32Max < (weights .freq overweight).sum := by decide +kernel

/-- V20: FreqOverflow, and nothing else changed. -/
theorem overweight_hinit : exec (.hinit .freq) overweight = .next { overweight with err := .freqOverflow } ∧
    after (.hinit .freq) overweight = { overweight with err := .freqOverflow } := by
  have h : exec (.hinit .freq) overweight = .next { overweight with err := .freqOverflow } := by
    show complete overweight (hinitEnd .freq overweight) = _
    simp only [hinitEnd, if_pos overweight_sum, complete, finish]
  exact ⟨h, by rw [after, h]⟩

/-- V20: STATUS reads 9 and HSTATE stays UNINIT. -/
theorem test_hinit_overflow :
    (after (.hinit .freq) overweight).hstate = .uninit ∧ statusWord (after (.hinit .freq) overweight) = 0x00000009 := by
  rw [overweight_hinit.2]
  decide

/-! ### The host port (V21) -/

/-- V21: a command written to CMD at reset of the machine itself, whose parameters are unknown. -/
theorem test_command_after_reset : (afterStep (State.reset.withFetchWord 32 0x05)).err = .ok ∧ (afterStep (State.reset.withFetchWord 32 0x07)).err = .illegalCommand := by
  decide +kernel

/-- V21: ID, CMD, CAP_VQ, and STATUS after an illegal word. -/
theorem test_control_reads :
    (afterStep (access start 0x20 .read)).reply = some (.readData 0x48564331) ∧ (afterStep (access start 0x00 .read)).reply = some (.readData 0) ∧
      (afterStep (access start 0x14 .read)).reply = some (.readData 5) ∧
      statusWord (afterStep (access (toy [] 0) 0 (.write 7))) = 0x00000017 := by decide +kernel

/-- V21: HIN keeps the low byte; FREQ keeps the word; VQ_DATA beyond the queue reads 0; CODELEN reads 0 while UNINIT. -/
theorem test_windows :
    (afterStep (access start 0x40000000 (.write 0x1234))).hinAt 0 = 0x34 ∧ (afterStep (access start 0x10000000 (.write 7))).freqAt 0 = 7 ∧
      (afterStep (access (queue [0x80, 0x01] 0) 0x30000000 .read)).reply = some (.readData 0x80) ∧
      (afterStep (access (queue [0x80, 0x01] 0) 0x30000008 .read)).reply = some (.readData 0) ∧
      (afterStep (access start 0x20000100 .read)).reply = some (.readData 0) := by decide +kernel

/-- V21: the bus errors, and an access of one byte (R59). -/
theorem test_bus_errors :
    busErrorOf (access start 0x08 (.write 1)) = some .readOnly ∧ busErrorOf (access start 0x02 .read) = some .misaligned ∧
      busErrorOf (access start 0x24 .read) = some .unmapped ∧ busErrorOf (access start 0x60000000 .read) = some .unmapped ∧
      busErrorOf { start with port := [.access ⟨0, 1, 0x20, .read⟩] } = some .wrongSize := by decide +kernel

/-- The queue of the block when a host program ends. -/
def queueAtEnd : HostEnd → Option (List Byte)
  | .finished h => some h.block.vq
  | _ => none

/-- R78: the two accesses of `VPACK #64`, a read of RESULT and its ASSERT, as a host program (V22's second and third lines). -/
theorem test_host_program :
    queueAtEnd (hostRun (pseudoVpack 64 ++ [.rd (.reg .result) "h", .assertEq (.var "h") (.lit 2)]) 5 ⟨start, 0, [], 0⟩) = some [0x80, 0x01] := by
  decide +kernel

/-! ### Witnesses: states and operands that meet the hypotheses of each statement -/

/-- A READY state that a HINIT.T can leave: the tree and the codes of T2. -/
def ready : State := { start with hstate := .ready, node := buildTree tableT2, code := codesOf (buildTree tableT2) }

theorem tiny_legal : tiny.Legal := by decide +kernel

theorem legal_of {s : State} (h : s.cfg = tiny) : s.cfg.Legal := h ▸ tiny_legal

/-- A state with the tree of T2, or with none, and otherwise little in it, meets the invariant. -/
theorem inv_of {s : State} (hc : s.cfg.Legal) (hq : s.vq.length ≤ s.cfg.vqCap) (hf : s.freq = []) (hi : Memory.wf s.hin)
    (hb : Store.Below s.cfg.hinCap s.hin) (ho : s.hout = []) (he : s.err = .ok) (hw : s.cfg.sentinelFreq = 1)
    (ht : s.hstate = .uninit ∨ (s.node = buildTree tableT2 ∧ s.code = codesOf (buildTree tableT2))) : s.Inv where
  cfg := hc
  vq := hq
  freq := by simp [hf, Store.wf, Store.Below]
  hin := ⟨hi, hb⟩
  hout := by simp [ho, Memory.wf, Store.wf, Store.Below]
  err := by simp [he]
  tree := by
    rintro hr
    rcases ht with hu | ⟨hn, hcode⟩
    · rw [hu] at hr; cases hr
    · refine ⟨tableT2, ⟨tableT2_length, ?_, by decide +kernel⟩, hn, by rw [hn, hcode]⟩
      rw [hw]; decide +kernel

theorem start_inv : start.Inv := inv_of (legal_of rfl) (by decide) rfl (by simp [start, State.resetWith]) (by simp [start, State.resetWith]) rfl rfl rfl (.inl rfl)

theorem ready_inv : ready.Inv :=
  inv_of (legal_of rfl) (by decide) rfl (by simp [ready, start, State.resetWith]) (by simp [ready, start, State.resetWith]) rfl rfl rfl (.inr ⟨rfl, rfl⟩)

/-- R101's length table at the ends of its ranges, and a 5th byte. -/
theorem witness_VarintEncodedLengthByRange :
    [0, 63, -64].map (fun v => (varintEncode v).length) = [1, 1, 1] ∧ [64, 8191, -65, -8192].map (fun v => (varintEncode v).length) = [2, 2, 2, 2] ∧
      [8192, 1048575, -8193, -1048576].map (fun v => (varintEncode v).length) = [3, 3, 3, 3] ∧
      [1048576, 134217727, -1048577, -134217728].map (fun v => (varintEncode v).length) = [4, 4, 4, 4] ∧
      [134217728, 0x7FFFFFFF, -134217729, 0x80000000].map (fun v => (varintEncode v).length) = [5, 5, 5, 5] ∧
      (varintEncode 0x80000000)[4]? = some 0x0F := by decide

theorem witness_VarintDecodeReadsOnlyWhatItConsumes :
    varintDecode .fault [0x80, 0x01, 0x7F] = .ok 64 2 ∧ varintDecode .wrap [0xFF, 0xFF, 0xFF, 0xFF, 0xFF] = .ok 0 5 ∧
      varintDecode .fault [0x05] = .ok 5 1 := by decide

theorem witness_VarintDecodedValueIsTheSumOfChunks :
    varintDecode .fault ([0xC0, 0x01] : List Byte) = .ok 0xFFFFFFBF 2 ∧ varintDecode .wrap [0x80, 0x80, 0x80, 0x80, 0x7F] = .ok 0xF8000000 5 := by decide

/-- Both errors of R102 at their ends: four bytes that all continue, a fifth byte of 0F and of 10. -/
theorem witness_VarintDecodeErrorsExactlyWhen :
    varintDecode .fault [0x80, 0x80, 0x80, 0x80] = .insufficientData ∧ varintDecode .fault [0x80, 0x80, 0x80, 0x80, 0x0F] = .ok 0x78000000 5 ∧
      varintDecode .fault [0x80, 0x80, 0x80, 0x80, 0x10] = .varIntOverflow ∧ varintDecode .wrap [0x80, 0x80, 0x80, 0x80, 0x10] ≠ .varIntOverflow := by
  decide

/-- Exactly full, and one byte too many. -/
theorem witness_VpackAppendsTheEncoding :
    (queue [1, 2, 3] 64).vq.length + (varintEncode (queue [1, 2, 3] 64).arg).length = (queue [1, 2, 3] 64).cfg.vqCap ∧
      (queue [1, 2, 3, 4] 64).vq.length + (varintEncode (queue [1, 2, 3, 4] 64).arg).length = (queue [1, 2, 3, 4] 64).cfg.vqCap + 1 := by decide

theorem witness_VunpackRemovesTheFrontValue :
    varintDecode (queue [0x05, 0x40] 0).cfg.overlong (queue [0x05, 0x40] 0).vq = .ok 5 1 ∧
      varintDecode (queue [] 0).cfg.overlong (queue [] 0).vq = .insufficientData ∧
      varintDecode (queue [0x80, 0x80, 0x80, 0x80, 0x10] 0).cfg.overlong (queue [0x80, 0x80, 0x80, 0x80, 0x10] 0).vq = .varIntOverflow := by decide

theorem witness_VunpackReturnsTheEncodedValue : (queue [0x80, 0x01, 0x40] 0).vq = varintEncode 64 ++ [0x40] := by decide

/-- Two values that fill the queue's 5 bytes but one. -/
theorem witness_PackedSequenceUnpacksInOrder :
    start.vq = [] ∧ (([64, -65] : List Word).map fun v => (varintEncode v).length).sum ≤ start.cfg.vqCap ∧
      ∃ t, (start :: commandRun (([64, -65] : List Word).map fun v => (v, .vpack)) start).getLast? = some t ∧ t.vq = [0x80, 0x01, 0xC0, 0x01] := by
  refine ⟨by decide, by decide, after .vpack { after .vpack { start with arg := 64 } with arg := -65 }, rfl, by decide +kernel⟩

/-- n = 5 on the empty queue fits exactly, n = 6 does not; and n = 0. -/
theorem witness_VgrowChecksTheFreeSpace :
    max ((queue [] 5).vq.length + (queue [] 5).arg.toNat) 5 = (queue [] 5).cfg.vqCap ∧
      (queue [] 6).cfg.vqCap < max ((queue [] 6).vq.length + (queue [] 6).arg.toNat) 5 ∧ (queue [] 0).cfg.Legal ∧ (queue [] 0).vq = [] ∧
      (queue [] 0).arg = 0 := by
  exact ⟨by decide, by decide, legal_of rfl, rfl, rfl⟩

/-- VGROW of 2 with 3 bytes in the queue; then a value of two bytes, and one byte. -/
theorem witness_VgrowChecksTheFreeSpace_appends :
    ∃ t u : State, exec .vgrow (queue [1, 2, 3] 2) = .next t ∧ t.err = .ok ∧ u.cfg = t.cfg ∧
      u.vq.length + (varintEncode u.arg).length ≤ t.vq.length + (queue [1, 2, 3] 2).arg.toNat ∧
      u.vq.length + 1 ≤ t.vq.length + (queue [1, 2, 3] 2).arg.toNat := by
  exact ⟨_, queue [1, 2, 3] 64, rfl, by decide, rfl, by decide, by decide⟩

theorem witness_VpushbAppendsOneByte :
    (queue [1, 2, 3, 4] 0).vq.length < (queue [1, 2, 3, 4] 0).cfg.vqCap ∧ (queue [1, 2, 3, 4, 5] 0).vq.length = (queue [1, 2, 3, 4, 5] 0).cfg.vqCap := by
  decide

theorem witness_VqWindowFollowsTheFront :
    varintDecode (queue [0x80, 0x01, 0x40] 0).cfg.overlong (queue [0x80, 0x01, 0x40] 0).vq = .ok 64 2 ∧
      (∃ t, exec .vunpack (queue [0x80, 0x01, 0x40] 0) = .next t ∧ readLoc t (.vqData 0) = 0x40) ∧
      ∃ t, exec .vclear (queue [0x80, 0x01, 0x40] 0) = .next t := ⟨by decide, ⟨_, rfl, by decide⟩, _, rfl⟩

theorem witness_ErrorChangesOnlyErr : ∃ t, exec .vunpack start = .next t ∧ t.err ≠ .ok := ⟨_, rfl, by decide⟩

/-- What HCOMP does from `ready`, the input being empty: the sentinel's code alone, 10010000. -/
theorem ready_hcomp : exec .hcomp ready = .next (finish ready (.ok (ready.setHout [0x90]) 1)) := by
  show Host.Outcome.next (finish ready (withInput ready hcompBody)) = _
  have hn : ready.argU32 = 0 := rfl
  have hb : ready.hinBytes 0 = [] := rfl
  have he : huffEncode ready.cfg.bitOrder ready.code [] = [0x90] := test_streams_t2.1
  simp only [withInput, show ready.hstate = .ready from rfl, hn, hb, hcompBody, he]
  rfl

/-- What HDECOMP does from `ready` with that byte in HIN: no output. -/
def readyStream : State := { ready with arg := 1, hin := [(0, 0x90)] }

theorem readyStream_inv : readyStream.Inv :=
  inv_of (legal_of rfl) (by decide) rfl (by simp [readyStream]) (by simp [readyStream, ready, start, State.resetWith, tiny]) rfl rfl rfl (.inr ⟨rfl, rfl⟩)

/-- The stream `90` under T2 holds the sentinel's code and then four bits that do not matter. -/
theorem decode_90 : huffDecode .msbFirst (buildTree tableT2) [0x90] 3 = .ok [] := by
  have h := test_table_t2.2.1
  simp only [List.map_cons, List.map_nil, List.cons.injEq, and_true] at h
  have hs : streamBits .msbFirst [0x90] = codeStream (codesOf (buildTree tableT2)) [] ++ [false, false, false, false] := by
    simp only [codeStream, List.flatMap_nil, List.nil_append, sentinelSym, h.1]
    decide
  rw [huffDecode, hs]
  exact huffWalk_codeStream (coded_buildTree _ tableT2_length) [] _ 3 (by simp)

/-- R143 on the byte `00` under T2, eight times the code `0` of 0x41: no room for the last, and with that room the bits run out. -/
theorem decode_00 :
    huffDecode .msbFirst (buildTree tableT2) [0x00] 7 = .capacityExceeded ∧ huffDecode .msbFirst (buildTree tableT2) [0x00] 8 = .truncatedStream := by
  have h := test_table_t2.2.1
  simp only [List.map_cons, List.map_nil, List.cons.injEq, and_true] at h
  have hs : streamBits .msbFirst [0x00] = dataCodes (codesOf (buildTree tableT2)) (List.replicate 8 0x41) ++ [] := by
    have hd : dataCodes (codesOf (buildTree tableT2)) (List.replicate 8 0x41) = (List.replicate 8 (codeAt (codesOf (buildTree tableT2)) 0x41)).flatten := rfl
    rw [hd, h.2.1]
    decide
  simp only [huffDecode, hs, huffWalk_dataCodes (coded_buildTree _ tableT2_length)]
  exact ⟨rfl, rfl⟩

/-- HDECOMP by its input and what that input decodes to. -/
theorem hdecomp_of_ok {s : State} {input out : List Byte} (hr : s.hstate = .ready) (hn : s.arg.toNat ≤ s.cfg.hinCap)
    (hi : s.hinBytes s.arg.toNat = input) (hd : huffDecode s.cfg.bitOrder s.node input s.cfg.houtCap = .ok out) :
    exec .hdecomp s = .next (finish s (.ok (s.setHout out) (ofLength out.length))) := by
  have hc : ¬ s.cfg.hinCap < s.argU32 := Nat.not_lt.2 hn
  have hb : s.hinBytes s.argU32 = input := hi
  show complete s (withInput s hdecompBody) = _
  simp only [withInput, hr, hc, if_false, hb, hdecompBody, hd, complete]

theorem readyStream_hdecomp : exec .hdecomp readyStream = .next (finish readyStream (.ok (readyStream.setHout []) 0)) := by
  have hnode : readyStream.node = buildTree tableT2 := by simp only [readyStream, ready]
  exact hdecomp_of_ok rfl (by decide) rfl (by rw [hnode]; exact decode_90)

/-- One success of every command from a state in which the invariant holds. -/
theorem witness_SuccessWritesResult :
    (∃ t, exec .vpack start = .next t ∧ t.err = .ok) ∧ (∃ t, (queue [0x05] 0).Inv ∧ exec .vunpack (queue [0x05] 0) = .next t ∧ t.err = .ok) ∧
      (∃ t, exec .vclear start = .next t ∧ t.err = .ok) ∧ (∃ t, exec .vgrow start = .next t ∧ t.err = .ok) ∧
      (∃ t, exec .vsize start = .next t ∧ t.err = .ok) ∧ (∃ t, exec .vpushb start = .next t ∧ t.err = .ok) ∧
      (∃ t, exec (.hinit .builtin) start = .next t ∧ t.err = .ok) ∧ (∃ t, exec .hcomp ready = .next t ∧ t.err = .ok) ∧
      (∃ t, exec .hdecomp readyStream = .next t ∧ t.err = .ok) ∧ start.Inv ∧ ready.Inv ∧ readyStream.Inv := by
  refine ⟨⟨_, rfl, by decide⟩, ⟨_, ?_, rfl, by decide⟩, ⟨_, rfl, by decide⟩, ⟨_, rfl, by decide⟩, ⟨_, rfl, by decide⟩, ⟨_, rfl, by decide⟩,
    ⟨_, rfl, by decide +kernel⟩, ⟨_, ready_hcomp, rfl⟩, ⟨_, readyStream_hdecomp, rfl⟩, start_inv, ready_inv, readyStream_inv⟩
  exact inv_of (legal_of rfl) (by decide) rfl start_inv.hin.1 start_inv.hin.2 rfl rfl rfl (.inl rfl)

/-- Each status code of R175's table arises. -/
theorem witness_PossibleStatusOfEachCommand :
    (after .vpack (queue [1, 2, 3, 4, 5] 0)).err = .capacityExceeded ∧ (after .vunpack (queue [0x80] 0)).err = .insufficientData ∧
      (after .vunpack (queue [0x80, 0x80, 0x80, 0x80, 0x10] 0)).err = .varIntOverflow ∧ (after .hcomp start).err = .notInitialized ∧
      (after .hdecomp (toy [] 0)).err = .truncatedStream ∧ (after .hcomp (toy [] 4)).err = .capacityExceeded ∧
      (after (.hinit .freq) overweight).err = .freqOverflow ∧ decode 0x07 = .error .opReserved ∧ ∃ t, execWord 0x07 start = .next t :=
  ⟨by decide, by decide, by decide, by decide, by decide +kernel, by decide +kernel, overweight_hinit.2 ▸ rfl,
    by decide, _, rfl⟩

theorem witness_VarintCommandsLeaveTheRest :
    ∀ i ∈ [Instr.vpack, .vunpack, .vclear, .vgrow, .vsize, .vpushb], ∃ t, exec i (queue [0x05] 3) = .next t := by
  intro i _
  obtain ⟨e, h⟩ := exec_eq_complete i (queue [0x05] 3)
  exact ⟨_, h⟩

/-- A Huffman command that completes, one with a RESULT of 1 and HOUT beyond it, and one that ends in an error. -/
theorem witness_HuffmanCommandsLeaveTheRest :
    (∃ t, exec (.hinit .builtin) start = .next t) ∧ ready.cfg.Legal ∧ (∃ t, exec .hcomp ready = .next t ∧ t.err = .ok ∧ t.result.toNat ≤ 1) ∧
      (∃ t, exec .hdecomp readyStream = .next t ∧ t.err = .ok ∧ t.result.toNat ≤ 0) ∧ ∃ t, exec .hcomp start = .next t ∧ t.err ≠ .ok :=
  ⟨⟨_, rfl⟩, legal_of rfl, ⟨_, ready_hcomp, rfl, by decide⟩, ⟨_, readyStream_hdecomp, rfl, by decide⟩, _, rfl, by decide⟩

theorem witness_CodecsShareNoState :
    (∃ t, exec .vpack (queue [0x05] 64) = .next t ∧ t.vq = [0x05, 0x80, 0x01]) ∧ ∃ t, exec .hcomp ready = .next t ∧ t.err = .ok :=
  ⟨⟨_, rfl, by decide⟩, _, ready_hcomp, rfl⟩

/-- A second permutation with the two properties, which is then the sorted one (V6). -/
theorem witness_StableSortIsTheUniqueStablePermutation :
    ([⟨0, 3⟩, ⟨2, 3⟩, ⟨1, 1⟩, ⟨3, 1⟩] : List CNode).Perm [⟨0, 3⟩, ⟨1, 1⟩, ⟨2, 3⟩, ⟨3, 1⟩] ∧
      ([⟨0, 3⟩, ⟨2, 3⟩, ⟨1, 1⟩, ⟨3, 1⟩] : List CNode).Pairwise (fun x y => y.freq ≤ x.freq) ∧
      ∀ n, ([⟨0, 3⟩, ⟨2, 3⟩, ⟨1, 1⟩, ⟨3, 1⟩] : List CNode).filter (fun x => x.freq = n) =
        ([⟨0, 3⟩, ⟨1, 1⟩, ⟨2, 3⟩, ⟨3, 1⟩] : List CNode).filter (fun x => x.freq = n) := by
  refine ⟨by decide, by decide, fun n => ?_⟩
  by_cases h3 : 3 = n <;> by_cases h1 : 1 = n <;> simp [h3, h1]
  omega

/-- Weights of the right number whose sum passes HINIT's check, and the ends of the ranges of nodes. -/
theorem witness_TreeHasItsShape : tableT2.length = 257 ∧ tableT2.sum ≤ u32Max ∧ (0 < tableT2.length ∧ 256 < tableT2.length) ∧ (257 ≤ 257 ∧ 512 ≤ 512) ∧
    (0 < 512 ∧ 511 < 512) := by
  exact ⟨tableT2_length, by decide +kernel, by rw [tableT2_length]; decide, by decide, by decide⟩

theorem witness_TreeMergesTheTwoLast : tableT2.length = 257 ∧ 256 < tableT2.length ∧ 0 < 256 ∧ 255 < 256 := ⟨tableT2_length, by rw [tableT2_length]; decide, by decide⟩

theorem witness_CodesAreTheTreePaths : tableT2.length = 257 ∧ IsInternal (buildTree tableT2) 512 65 511 := by
  refine ⟨tableT2_length, 13, ?_⟩
  have h := congrArg (·[3]?) test_table_t2.1
  simpa using h

theorem witness_CodesArePrefixFree : tableT2.length = 257 ∧ 0 < 257 ∧ 256 < 257 ∧ 0 ≠ 256 := ⟨tableT2_length, by decide⟩

theorem witness_CodesAreBoundedAndComplete : tableT2.length = 257 ∧ 0 < 257 ∧ 256 < 257 := ⟨tableT2_length, by decide⟩

/-- Sixteen bits, the bytes they make under each order, and a byte of a sequence. -/
theorem witness_PackBitsHoldsTheStream :
    ([false, true, true, true, false, true, true, false, false, true, false, false, false, false, false, false] : Bits).length = 8 * 2 ∧
      (∀ j (h : j < 16), streamBit .msbFirst [0x76, 0x40] j =
        ([false, true, true, true, false, true, true, false, false, true, false, false, false, false, false, false] : Bits)[j]'h) ∧
      ([0x76, 0x40] : List Byte)[15 / 8]? = some 0x40 := by
  decide

theorem witness_HuffDecodeOfEncode : tableT2.length = 257 ∧ ([0x41, 0x42, 0x43] : List Byte).length ≤ 3 ∧ ([] : List Byte).length ≤ 0 :=
  ⟨tableT2_length, by decide, by decide⟩

theorem witness_HuffDecodeIgnoresWhatFollows :
    huffDecode .msbFirst toyNode [0x68] 3 ≠ .truncatedStream ∧ huffDecode .msbFirst toyNode [0x08] 3 ≠ .truncatedStream := by decide +kernel

theorem witness_CompressedSizeBounds : tableT2.length = 257 := tableT2_length

/-- Capacities at the bounds of each clause, states that meet the invariant under them, and an input length that raises CapacityExceeded; for the
clause of one-bit codes the byte `00` under T2. -/
theorem witness_DecompressedSizeBounds :
    huffDecode .msbFirst toyNode [0x68] 3 = .ok [0, 1, 0] ∧
      ∃ s : State, s.Inv ∧ 8 * s.cfg.hinCap = s.cfg.houtCap ∧ (∃ t, exec .hdecomp s = .next t ∧ t.err = .capacityExceeded) ∧
      (∃ s' : State, s'.Inv ∧ 32 * (s'.cfg.hinCap + 1) = s'.cfg.houtCap ∧ ∃ t, exec .hcomp s' = .next t ∧ t.err = .capacityExceeded) ∧
      (tableT2.length = 257 ∧ 8 * ([0x00] : List Byte).length - 1 = 7 ∧ huffDecode .msbFirst (buildTree tableT2) [0x00] 7 = .capacityExceeded) ∧
      ∃ s' : State, s'.Inv ∧ s'.cfg.hinCap = 1024 ∧ s'.cfg.houtCap = 8192 ∧ (∃ t, exec .hdecomp s' = .next t ∧ t.err = .capacityExceeded) ∧
        ∃ t, exec .hcomp s' = .next t ∧ t.err = .capacityExceeded := by
  have inv : ∀ m n a, 1 ≤ m → m ≤ 2 ^ 26 → 1 ≤ n → n ≤ 2 ^ 26 →
      ({ ready with cfg := { tiny with hinCap := m, houtCap := n }, arg := a } : State).Inv := fun m n a h1 h2 h3 h4 =>
    inv_of ⟨tiny_legal.1, ⟨h1, h2⟩, ⟨h3, h4⟩, tiny_legal.2.2.2⟩ (Nat.zero_le _) rfl
      (by simp [ready, start, State.resetWith]) (by simp [ready, start, State.resetWith]) rfl rfl rfl (.inr ⟨rfl, rfl⟩)
  refine ⟨by decide +kernel, _, inv 1 8 2 ?_ ?_ ?_ ?_, rfl, ⟨_, rfl, by decide⟩, ⟨_, inv 1 64 2 ?_ ?_ ?_ ?_, rfl, _, rfl, by decide⟩,
    ⟨tableT2_length, rfl, decode_00.1⟩, _, inv 1024 8192 1025 ?_ ?_ ?_ ?_, rfl, rfl, ⟨_, rfl, by decide⟩, _, rfl, by decide⟩ <;> decide

/-- One byte of input and the bound R146 gives for it. -/
theorem witness_DecompressionFitsAtTheBoundOfR146 : tableT2.length = 257 ∧ 8 * ([0x00] : List Byte).length - 1 ≤ 7 := ⟨tableT2_length, by decide⟩

/-- A sum at the bound or below it, and one above it. -/
theorem witness_HinitInstallsTheTree :
    0 < 256 ∧ 255 < 256 ∧ (weights .builtin start).sum ≤ 2 ^ 32 - 1 ∧ (weights .freq withT2).sum ≤ 2 ^ 32 - 1 ∧
      2 ^ 32 - 1 < (weights .freq overweight).sum :=
  ⟨by decide, by decide, by decide +kernel, by rw [weights_withT2]; decide +kernel, overweight_sum⟩

/-- Two states with equal weights, one of them READY with another tree. -/
theorem witness_HinitIsDeterminedByItsWeights :
    weights .builtin start = weights .builtin ready ∧ (∃ t, exec (.hinit .builtin) start = .next t ∧ t.err = .ok) ∧
      ∃ t, exec (.hinit .builtin) ready = .next t := ⟨rfl, ⟨_, rfl, by decide +kernel⟩, _, rfl⟩

theorem witness_OnlyHinitWithTableReadsFreq :
    (∃ t, exec .hcomp ready = .next t ∧ t.err = .ok) ∧ (∃ t, exec .hdecomp readyStream = .next t ∧ t.err = .ok) ∧
      ∃ t, exec (.hinit .builtin) start = .next t := ⟨⟨_, ready_hcomp, rfl⟩, ⟨_, readyStream_hdecomp, rfl⟩, _, rfl⟩

/-- Every clause: an input of HIN_CAP bytes and an output of HOUT_CAP bytes; UNINIT; one byte of input too many; an output that does not fit; the stream
bits of one encoding. -/
theorem witness_HcompWritesTheEncoding :
    ((toy [0, 1, 0] 3).hstate = .ready ∧ (toy [0, 1, 0] 3).arg.toNat = (toy [0, 1, 0] 3).cfg.hinCap ∧
      (huffEncode (toy [0, 1, 0] 3).cfg.bitOrder (toy [0, 1, 0] 3).code ((toy [0, 1, 0] 3).hinBytes 3)).length ≤ (toy [0, 1, 0] 3).cfg.houtCap) ∧
      start.hstate = .uninit ∧ ((toy [] 4).hstate = .ready ∧ (toy [] 4).cfg.hinCap < (toy [] 4).arg.toNat) ∧
      (ready.Inv ∧ ∃ t, exec .hcomp ready = .next t ∧ t.err = .ok) ∧
      (∃ s : State, s.hstate = .ready ∧ s.arg.toNat ≤ s.cfg.hinCap ∧
        s.cfg.houtCap < (huffEncode s.cfg.bitOrder s.code (s.hinBytes s.arg.toNat)).length) ∧
      ∀ o, (huffEncode o toyCode [0, 1, 0]).length = 1 ∧
        (([0, 1, 0] : List Byte).flatMap fun b => codeAt toyCode b.toNat) ++ codeAt toyCode 256 = [false, true, true, false, true, false] ∧
        (List.range 8).map (streamBit o (huffEncode o toyCode [0, 1, 0])) = [false, true, true, false, true, false, false, false] := by
  refine ⟨by decide +kernel, rfl, by decide, ⟨ready_inv, _, ready_hcomp, rfl⟩, ⟨{ toy [1, 1, 1] 3 with cfg := { tiny with houtCap := 0 } }, by decide +kernel⟩,
    fun o => by cases o <;> decide +kernel⟩

/-- Every clause: no input at all, and each outcome of a decoding under T2, the last two at the room where they meet. -/
theorem witness_HdecompWritesTheDecoding :
    ((toy [0x68] 1).hstate = .ready ∧ (toy [0x68] 1).arg.toNat ≤ (toy [0x68] 1).cfg.hinCap ∧
      huffDecode (toy [0x68] 1).cfg.bitOrder (toy [0x68] 1).node ((toy [0x68] 1).hinBytes 1) (toy [0x68] 1).cfg.houtCap = .ok [0, 1, 0]) ∧
      start.hstate = .uninit ∧ ((toy [] 4).hstate = .ready ∧ (toy [] 4).cfg.hinCap < (toy [] 4).arg.toNat) ∧
      huffDecode (toy [0x00] 0).cfg.bitOrder (toy [0x00] 0).node ((toy [0x00] 0).hinBytes 0) 3 = .truncatedStream ∧
      huffDecode (toy [0x08] 1).cfg.bitOrder (toy [0x08] 1).node ((toy [0x08] 1).hinBytes 1) 3 = .capacityExceeded ∧ (toy [] 0).arg = 0 ∧
      tableT2.length = 257 ∧ huffDecode .msbFirst (buildTree tableT2) [0x90] 3 = .ok [] ∧
      huffDecode .msbFirst (buildTree tableT2) [0x00] 7 = .capacityExceeded ∧ huffDecode .msbFirst (buildTree tableT2) [0x00] 8 = .truncatedStream :=
  ⟨by decide +kernel, by decide, by decide +kernel, by decide +kernel, by decide +kernel, rfl, tableT2_length, decode_90, decode_00⟩

/-- `ready` compresses the empty input to one byte, and `readyStream` holds that byte in HIN. -/
theorem witness_CompressCopyDecompressReturnsTheInput :
    ∃ t, ready.Inv ∧ ready.hstate = .ready ∧ exec .hcomp ready = .next t ∧ t.err = .ok ∧ readyStream.cfg = ready.cfg ∧ readyStream.hstate = .ready ∧
      readyStream.node = ready.node ∧ readyStream.arg = t.result ∧ (∀ a, a < t.result.toNat → readyStream.hinAt a = t.houtAt a) ∧
      t.result.toNat ≤ ready.cfg.hinCap ∧ ready.arg.toNat ≤ ready.cfg.houtCap := by
  refine ⟨_, ready_inv, rfl, ready_hcomp, rfl, rfl, rfl, rfl, rfl, fun a ha => ?_, by decide, by decide⟩
  obtain rfl : a = 0 := Nat.lt_one_iff.1 ha
  exact rfl

/-- A write of VSIZE's word at the port of an instance nobody drives, and of one that agent 0 drives. -/
theorem witness_StepRunsTheDecodedCommand :
    (access start 0 (.write 5)).port = .access ⟨0, 4, 0, .write 5⟩ :: [] ∧ (access start 0 (.write 5)).driver = none ∧
      ({ access start 0 (.write 5) with driver := some 0 } : State).driver = some 0 ∧ decode 5 = .ok .vsize := by decide

theorem witness_IllegalWordSetsErrOnly :
    (access start 0 (.write 0)).port = .access ⟨0, 4, 0, .write 0⟩ :: [] ∧ (access start 0 (.write 0)).driver = none ∧
      decode 0 = .error .opReserved := by decide

theorem witness_IdleStepsAndReadsChangeNothing :
    start.port = [] ∧ (access start 0x20 .read).port = .access ⟨0, 4, 0x20, .read⟩ :: [] ∧ ∃ t, step (access start 0x20 .read) = .next t := by
  refine ⟨rfl, rfl, afterStep (access start 0x20 .read), ?_⟩
  rw [afterStep, step_access (a := ⟨0, 4, 0x20, .read⟩) rfl (.inl rfl), serve, select_aligned _ _ _ _ (by decide)]
  rfl

/-- The first and the last control register. -/
theorem witness_ControlRegisterReads :
    (∀ p ∈ [((0x00 : Word), (0 : Word)), (0x20, 0x48564331)],
      p ∈ [(0x00, 0), (0x04, start.arg), (0x08, start.result), (0x0C, statusWord start), (0x10, BitVec.ofNat 32 start.vq.length),
        (0x14, BitVec.ofNat 32 start.cfg.vqCap), (0x18, BitVec.ofNat 32 start.cfg.hinCap), (0x1C, BitVec.ofNat 32 start.cfg.houtCap),
        (0x20, 0x48564331)]) ∧
      (access start 0x20 .read).port = .access ⟨0, 4, 0x20, .read⟩ :: [] ∧ start.driver = none := by
  refine ⟨?_, rfl, rfl⟩
  simp

/-- The last entry of each window, and the first past the queue's bytes. -/
theorem witness_WindowReads :
    (queue [7] 0).cfg.Legal ∧ (queue [7] 0).driver = none ∧ 255 < 256 ∧ 256 < 257 ∧ (queue [7] 0).hstate = .uninit ∧ ready.hstate = .ready ∧
      (0 < (queue [7] 0).vq.length ∧ 0 < (queue [7] 0).cfg.vqCap) ∧ ((queue [7] 0).vq.length ≤ 4 ∧ 4 < (queue [7] 0).cfg.vqCap) ∧
      2 < (queue [7] 0).cfg.hinCap ∧ 2 < (queue [7] 0).cfg.houtCap ∧
      (access (queue [7] 0) (BitVec.ofNat 32 (5 * 2 ^ 28 + 2 * 4)) .read).port = .access ⟨0, 4, BitVec.ofNat 32 (5 * 2 ^ 28 + 2 * 4), .read⟩ :: [] :=
  ⟨legal_of rfl, by decide⟩

theorem witness_WritesStoreTheirValue :
    start.cfg.Legal ∧ start.driver = none ∧ 255 < 256 ∧ 2 < start.cfg.hinCap ∧
      (access start (BitVec.ofNat 32 (4 * 2 ^ 28 + 2 * 4)) (.write 9)).port = .access ⟨0, 4, BitVec.ofNat 32 (4 * 2 ^ 28 + 2 * 4), .write 9⟩ :: [] :=
  ⟨legal_of rfl, by decide⟩

theorem witness_BusErrorsExactlyWhen :
    (access start 0x08 (.write 1)).port = .access ⟨0, 4, 0x08, .write 1⟩ :: [] ∧ (access start 0x08 (.write 1)).driver = none := by decide

theorem witness_BusErrorChangesNoState :
    (access start 0x60000000 .read).port = .access ⟨0, 4, 0x60000000, .read⟩ :: [] ∧ step (access start 0x60000000 .read) = .fault (.busError .unmapped) := by
  refine ⟨rfl, ?_⟩
  rw [step_access (a := ⟨0, 4, 0x60000000, .read⟩) rfl (.inl rfl), serve, select_aligned _ _ _ _ (by decide)]
  rfl

theorem witness_AllowedAccessesComplete :
    (access start 0x04 (.write 1)).port = .access ⟨0, 4, 0x04, .write 1⟩ :: [] ∧ (access start 0x04 (.write 1)).driver = none ∧
      HostAccess.Allowed start.cfg ⟨0, 4, 0x04, .write 1⟩ := by
  refine ⟨rfl, rfl, .arg, ?_, .inr (.inr (.inl rfl))⟩
  rw [select_aligned _ _ _ _ (by decide)]
  rfl

theorem witness_SecondAgentIsRefused :
    ({ access start 0 .read with driver := some 1 } : State).port = .access ⟨0, 4, 0, .read⟩ :: [] ∧
      ({ access start 0 .read with driver := some 1 } : State).driver = some 1 ∧ 1 ≠ 0 := by decide

/-- The last entry of every window. -/
theorem witness_OffsetsSelectTheirLocations : tiny.Legal ∧ 255 < 256 ∧ 256 < 257 ∧ 4 < tiny.vqCap ∧ 2 < tiny.hinCap ∧ 2 < tiny.houtCap :=
  ⟨tiny_legal, by decide⟩

theorem witness_PseudoVpackWritesArgAndPacks :
    (⟨start, 0, [], 0⟩ : HostState).pos = 0 ∧ (⟨start, 0, [], 0⟩ : HostState).block.driver = none ∧
      ∃ t, exec .vpack { start with port := [], driver := some 0, reply := some .writeDone, arg := 64 } = .next t := ⟨rfl, rfl, _, rfl⟩

theorem witness_ResetLeavesTheResetState : ({ ready with port := [.reset] } : State).port = .reset :: [] := rfl

theorem witness_ResetStateIsGood : tiny.Legal := tiny_legal

/-- A read of HOUT under the invariant, where nothing has been written: it completes with a draw. -/
theorem witness_StepKeepsTheInvariant : ∃ s t, s.Inv ∧ step s = .next t ∧ s.port = [.access ⟨0, 4, 0x50000000, .read⟩] := by
  refine ⟨access start 0x50000000 .read,
    { start with port := [], driver := some 0, reply := some (.readData ((start.houtAt 0).zeroExtend 32)) }, ?_, ?_, rfl⟩
  · exact inv_of (legal_of rfl) (by decide) rfl start_inv.hin.1 start_inv.hin.2 rfl rfl rfl (.inl rfl)
  · rw [step_access (a := ⟨0, 4, 0x50000000, .read⟩) rfl (.inl rfl), serve, select_aligned _ _ _ _ (by decide)]
    rfl

theorem witness_StepKeepsTheConfiguration : ∃ t, step ({ ready with port := [.reset] } : State) = .next t := ⟨_, rfl⟩

/-- A HINIT written to CMD at the port of `start`. -/
theorem start_hinit : step (access start 0 (.write (encode (.hinit .builtin)))) =
    exec (.hinit .builtin) { start with port := [], driver := some 0, reply := some .writeDone } := by
  rw [step_access (a := ⟨0, 4, 0, .write (encode (.hinit .builtin))⟩) rfl (.inl rfl), serve, select_aligned _ _ _ _ (by decide)]
  rfl

/-- Both clauses: a reset out of READY, and a HINIT out of UNINIT. -/
theorem witness_HstateChangesOnlyByHinitAndReset :
    (∃ t, step ({ ready with port := [.reset] } : State) = .next t ∧ ready.hstate = .ready ∧ t.hstate = .uninit) ∧
      ∃ t, step (access start 0 (.write (encode (.hinit .builtin)))) = .next t ∧ start.hstate = .uninit ∧ t.hstate = .ready :=
  ⟨⟨_, rfl, rfl, rfl⟩, _, start_hinit, rfl, by decide +kernel⟩

theorem witness_TreeChangesOnlyByHinit :
    ∃ t, step (access start 0 (.write (encode (.hinit .builtin)))) = .next t ∧ t.node ≠ start.node ∧
      ∀ rest, (access start 0 (.write (encode (.hinit .builtin)))).port ≠ .reset :: rest :=
  ⟨_, start_hinit, by decide +kernel, fun _ h => nomatch h⟩

end Sys2Proof.Tests
end

section
/-! PROOF. The two codecs of 00_scope.md R13: a command of one answers the same whatever the other holds. Each command's end commutes with
putting another value in the other codec's place, and so does `finish`. -/

namespace Sys2Proof.Machine

/-- The state of an end, carried through `g`; RESULT and the status code stay. -/
def CmdEnd.map (g : State → State) : CmdEnd → CmdEnd
  | .ok t r => .ok (g t) r
  | .raise e => .raise e

theorem CmdEnd.map_ite (g : State → State) (c : Prop) [Decidable c] (e e' : CmdEnd) :
    (if c then e else e').map g = if c then e.map g else e'.map g := apply_ite (CmdEnd.map g) c e e'

/-- What `s` becomes when its Huffman unit (R13) is that of `u`. -/
def State.withHuffmanOf (u s : State) : State :=
  { s with freq := u.freq, hstate := u.hstate, node := u.node, code := u.code, hin := u.hin, hout := u.hout }

/-- What `s` becomes when its queue (R27) is `q`. -/
def State.withQueue (q : List Byte) (s : State) : State := { s with vq := q }

theorem finish_withHuffmanOf (u s : State) (e : CmdEnd) :
    finish (State.withHuffmanOf u s) (e.map (State.withHuffmanOf u)) = State.withHuffmanOf u (finish s e) := by
  cases e <;> rfl

theorem finish_withQueue (q : List Byte) (s : State) (e : CmdEnd) :
    finish (State.withQueue q s) (e.map (State.withQueue q)) = State.withQueue q (finish s e) := by
  cases e <;> rfl

/-- A command answers along `g` when `finish` commutes with `g` and its end from `g s` is its end from `s` carried through `g`. -/
theorem complete_map {g : State → State} {s t : State} {e e' : CmdEnd} (hfin : ∀ s e, finish (g s) (e.map g) = g (finish s e))
    (hend : e' = e.map g) (h : complete s e = .next t) : complete (g s) e' = .next (g t) := by
  rw [complete_eq_next] at h ⊢
  rw [hend, hfin, h]

/-! ### The VarInt commands and the Huffman unit -/

theorem vpackEnd_withHuffmanOf (u s : State) : vpackEnd (State.withHuffmanOf u s) = (vpackEnd s).map (State.withHuffmanOf u) := by
  simp only [vpackEnd, CmdEnd.map_ite]
  rfl

theorem vunpackEnd_withHuffmanOf (u s : State) : vunpackEnd (State.withHuffmanOf u s) = (vunpackEnd s).map (State.withHuffmanOf u) := by
  simp only [vunpackEnd, State.withHuffmanOf]
  cases varintDecode s.cfg.overlong s.vq <;> rfl

theorem vclearEnd_withHuffmanOf (u s : State) : vclearEnd (State.withHuffmanOf u s) = (vclearEnd s).map (State.withHuffmanOf u) := rfl

theorem vgrowEnd_withHuffmanOf (u s : State) : vgrowEnd (State.withHuffmanOf u s) = (vgrowEnd s).map (State.withHuffmanOf u) := by
  simp only [vgrowEnd, CmdEnd.map_ite]
  rfl

theorem vsizeEnd_withHuffmanOf (u s : State) : vsizeEnd (State.withHuffmanOf u s) = (vsizeEnd s).map (State.withHuffmanOf u) := rfl

theorem vpushbEnd_withHuffmanOf (u s : State) : vpushbEnd (State.withHuffmanOf u s) = (vpushbEnd s).map (State.withHuffmanOf u) := by
  simp only [vpushbEnd, CmdEnd.map_ite]
  rfl

theorem exec_varint_withHuffmanOf {i : Instr} {s t : State} (u : State) (hi : i ∈ [.vpack, .vunpack, .vclear, .vgrow, .vsize, .vpushb])
    (h : exec i s = .next t) : exec i (State.withHuffmanOf u s) = .next (State.withHuffmanOf u t) := by
  simp only [List.mem_cons, List.not_mem_nil, or_false] at hi
  rcases hi with rfl | rfl | rfl | rfl | rfl | rfl
  · exact complete_map (finish_withHuffmanOf u) (vpackEnd_withHuffmanOf u s) h
  · exact complete_map (finish_withHuffmanOf u) (vunpackEnd_withHuffmanOf u s) h
  · exact complete_map (finish_withHuffmanOf u) (vclearEnd_withHuffmanOf u s) h
  · exact complete_map (finish_withHuffmanOf u) (vgrowEnd_withHuffmanOf u s) h
  · exact complete_map (finish_withHuffmanOf u) (vsizeEnd_withHuffmanOf u s) h
  · exact complete_map (finish_withHuffmanOf u) (vpushbEnd_withHuffmanOf u s) h

/-! ### The Huffman commands and the queue -/

theorem weights_withQueue (q : List Byte) (sel : TableSel) (s : State) : weights sel (State.withQueue q s) = weights sel s := by
  cases sel <;> rfl

theorem hinitEnd_withQueue (q : List Byte) (sel : TableSel) (s : State) :
    hinitEnd sel (State.withQueue q s) = (hinitEnd sel s).map (State.withQueue q) := by
  simp only [hinitEnd, weights_withQueue, CmdEnd.map_ite]
  rfl

/-- The input and its checks (R174) do not depend on the queue, so HCOMP and HDECOMP do not when their bodies do not. -/
theorem withInput_withQueue {body : State → List Byte → CmdEnd} (q : List Byte) (s : State)
    (hbody : ∀ input, body (State.withQueue q s) input = (body s input).map (State.withQueue q)) :
    withInput (State.withQueue q s) body = (withInput s body).map (State.withQueue q) := by
  have hstate : (State.withQueue q s).hstate = s.hstate := rfl
  simp only [withInput, hstate]
  cases s.hstate with
  | uninit => rfl
  | ready =>
    simp only [hbody, CmdEnd.map_ite]
    rfl

theorem hcompBody_withQueue (q : List Byte) (s : State) (input : List Byte) :
    hcompBody (State.withQueue q s) input = (hcompBody s input).map (State.withQueue q) := by
  simp only [hcompBody, CmdEnd.map_ite]
  rfl

theorem hdecompBody_withQueue (q : List Byte) (s : State) (input : List Byte) :
    hdecompBody (State.withQueue q s) input = (hdecompBody s input).map (State.withQueue q) := by
  simp only [hdecompBody, State.withQueue]
  cases huffDecode s.cfg.bitOrder s.node input s.cfg.houtCap <;> rfl

theorem exec_huffman_withQueue {i : Instr} {s t : State} (q : List Byte) (hi : i ∈ [.hinit .builtin, .hinit .freq, .hcomp, .hdecomp])
    (h : exec i s = .next t) : exec i (State.withQueue q s) = .next (State.withQueue q t) := by
  simp only [List.mem_cons, List.not_mem_nil, or_false] at hi
  rcases hi with rfl | rfl | rfl | rfl
  · exact complete_map (finish_withQueue q) (hinitEnd_withQueue q .builtin s) h
  · exact complete_map (finish_withQueue q) (hinitEnd_withQueue q .freq s) h
  · exact complete_map (finish_withQueue q) (withInput_withQueue q s (hcompBody_withQueue q s)) h
  · exact complete_map (finish_withQueue q) (withInput_withQueue q s (hdecompBody_withQueue q s)) h

/-- Settles O23: each codec's commands commute with replacing the other codec's state. -/
theorem codecsShareNoState : Obligations.CodecsShareNoState :=
  ⟨fun _ s _ f h n c bi bo hi he =>
      exec_varint_withHuffmanOf { s with freq := f, hstate := h, node := n, code := c, hin := bi, hout := bo } hi he,
    fun _ _ _ q hi he => exec_huffman_withQueue q hi he⟩

end Sys2Proof.Machine
end

section
/-! PROOF. The parameters of 00_scope.md R5 and the capacities of 10_state.md R26 are constants: no event at the port changes them. -/

namespace Sys2Proof.Machine

theorem exec_cfg {i : Instr} {s t : State} (h : exec i s = .next t) : t.cfg = s.cfg := by
  obtain ⟨hcfg, _⟩ := exec_keeps h
  exact hcfg

theorem execWord_cfg {w : Word} {s t : State} (h : execWord w s = .next t) : t.cfg = s.cfg := by
  obtain ⟨i, _, hi⟩ | ⟨_, rfl⟩ := execWord_cases h
  · exact exec_cfg hi
  · rfl

theorem writeLoc_cfg {s t : State} {w : Word} {l : Loc} (h : writeLoc s w l = .next t) : t.cfg = s.cfg := by
  obtain ⟨_, hcmd⟩ | ⟨_, rfl⟩ | ⟨i, _, rfl⟩ | ⟨i, _, rfl⟩ := writeLoc_cases h
  · exact execWord_cfg hcmd
  · rfl
  · exact setFreq_cfg s i w
  · exact setHin_cfg s i _

/-- Settles O58: an idle step, a reset and a read keep the parameters outright, and a write by the frame of what it writes. -/
theorem stepKeepsTheConfiguration : Obligations.StepKeepsTheConfiguration := by
  intro s t h
  obtain ⟨_, rfl⟩ | ⟨rest, _, rfl⟩ | ⟨a, rest, l, _, _, _, ⟨_, rfl⟩ | ⟨w, _, hw⟩⟩ := step_cases h
  · rfl
  · exact resetNow_cfg s rest
  · exact accept_cfg s a.agent rest
  · exact (writeLoc_cfg hw).trans (accept_cfg s a.agent rest)

end Sys2Proof.Machine
end

section
/-! PROOF. What the commands of each family can leave: ERR alone, or RESULT and one part of the state that is the family's own. The frames of
10_state.md (R27 to R35) are read off from it. -/

namespace Sys2Proof.Machine

/-- A code that is not reserved for a part of the platform out of scope (R171). -/
abbrev StatusCode.Unreserved (e : StatusCode) : Prop := e ≠ .malformedText ∧ e ≠ .unsupportedFieldKind

theorem StatusCode.ok_unreserved : StatusCode.Unreserved .ok := by decide

/-- A VarInt command raises a code, or writes RESULT and a queue that is within the capacity if the old one was (R27). -/
theorem execVarint_cases {i : Instr} {s t : State} (hi : i ∈ [.vpack, .vunpack, .vclear, .vgrow, .vsize, .vpushb])
    (h : exec i s = .next t) :
    (∃ e : StatusCode, e.Unreserved ∧ t = { s with err := e }) ∨
    ∃ q r, (s.vq.length ≤ s.cfg.vqCap → q.length ≤ s.cfg.vqCap) ∧ (i = .vgrow ∨ i = .vsize → q = s.vq) ∧
      t = { s with vq := q, result := r, err := .ok } := by
  simp only [List.mem_cons, List.not_mem_nil, or_false] at hi
  rcases hi with rfl | rfl | rfl | rfl | rfl | rfl
  · obtain ⟨_, rfl⟩ | ⟨hle, rfl⟩ := execVpack_cases h
    · exact .inl ⟨_, by decide, rfl⟩
    · exact .inr ⟨_, _, fun _ => by simpa using hle, by simp, rfl⟩
  · obtain ⟨_, rfl⟩ | ⟨_, rfl⟩ | ⟨v, k, _, rfl⟩ := execVunpack_cases h
    · exact .inl ⟨_, by decide, rfl⟩
    · exact .inl ⟨_, by decide, rfl⟩
    · exact .inr ⟨_, _, fun hle => by simp only [List.length_drop]; omega, by simp, rfl⟩
  · obtain rfl := Host.Outcome.next.inj ((execVclear_eq s).symm.trans h)
    exact .inr ⟨_, _, fun _ => Nat.zero_le _, by simp, rfl⟩
  · obtain ⟨_, rfl⟩ | ⟨_, rfl⟩ := execVgrow_cases h
    · exact .inl ⟨_, by decide, rfl⟩
    · exact .inr ⟨s.vq, _, id, fun _ => rfl, rfl⟩
  · obtain rfl := Host.Outcome.next.inj ((execVsize_eq s).symm.trans h)
    exact .inr ⟨s.vq, _, id, fun _ => rfl, rfl⟩
  · obtain ⟨_, rfl⟩ | ⟨hne, rfl⟩ := execVpushb_cases h
    · exact .inl ⟨_, by decide, rfl⟩
    · exact .inr ⟨_, _, fun hle => by simp only [List.length_append, List.length_singleton]; omega, by simp, rfl⟩

/-- HCOMP and HDECOMP raise a code, or write some bytes that fit to the front of HOUT and their number to RESULT (R35). -/
theorem execCodec_cases {i : Instr} {s t : State} (hi : i ∈ [.hcomp, .hdecomp]) (h : exec i s = .next t) :
    (∃ e : StatusCode, e ≠ .ok ∧ e.Unreserved ∧ t = { s with err := e }) ∨
    ∃ b : List Byte, b.length ≤ s.cfg.houtCap ∧ t = { s.setHout b with result := ofLength b.length, err := .ok } := by
  simp only [List.mem_cons, List.not_mem_nil, or_false] at hi
  rcases hi with rfl | rfl
  · obtain ⟨_, rfl⟩ | ⟨_, _, rfl⟩ | ⟨_, _, _, rfl⟩ | ⟨_, _, b, _, hb, rfl⟩ := execHcomp_cases h
    · exact .inl ⟨_, by decide, by decide, rfl⟩
    · exact .inl ⟨_, by decide, by decide, rfl⟩
    · exact .inl ⟨_, by decide, by decide, rfl⟩
    · exact .inr ⟨b, hb, rfl⟩
  · obtain ⟨_, rfl⟩ | ⟨_, _, rfl⟩ | ⟨_, _, _, rfl⟩ | ⟨_, _, _, rfl⟩ | ⟨_, _, out, hout, rfl⟩ := execHdecomp_cases h
    · exact .inl ⟨_, by decide, by decide, rfl⟩
    · exact .inl ⟨_, by decide, by decide, rfl⟩
    · exact .inl ⟨_, by decide, by decide, rfl⟩
    · exact .inl ⟨_, by decide, by decide, rfl⟩
    · exact .inr ⟨out, ((huffWalk_bounds _ _ _ _).1 out hout).1, rfl⟩

theorem instr_family (i : Instr) :
    i ∈ [.vpack, .vunpack, .vclear, .vgrow, .vsize, .vpushb] ∨ (∃ sel, i = .hinit sel) ∨ i ∈ [.hcomp, .hdecomp] := by
  cases i <;> simp

theorem huffman_family {i : Instr} (hi : i ∈ [.hinit .builtin, .hinit .freq, .hcomp, .hdecomp]) :
    (∃ sel, i = .hinit sel) ∨ i ∈ [.hcomp, .hdecomp] := by
  cases i <;> simp_all

/-- Settles O21: a VarInt command's state differs in ERR alone, or in RESULT, ERR and VQ. -/
theorem varintCommandsLeaveTheRest : Obligations.VarintCommandsLeaveTheRest := by
  intro i s t hi h
  obtain ⟨e, _, rfl⟩ | ⟨q, r, _, hq, rfl⟩ := execVarint_cases hi h
  · exact ⟨rfl, rfl, rfl, rfl, rfl, rfl, fun _ => rfl, fun _ => rfl, rfl, rfl, rfl, rfl, rfl, rfl, fun _ => rfl⟩
  · exact ⟨rfl, rfl, rfl, rfl, rfl, rfl, fun _ => rfl, fun _ => rfl, rfl, rfl, rfl, rfl, rfl, rfl, hq⟩

theorem ofLength_toNat {n : Nat} (h : n < 2 ^ 32) : (ofLength n).toNat = n := by
  rw [ofLength, BitVec.toNat_ofNat, Nat.mod_eq_of_lt h]

/-- No Huffman command touches the queue (R13, R27). -/
theorem execHuffman_vq {i : Instr} {s t : State} (hi : i ∈ [.hinit .builtin, .hinit .freq, .hcomp, .hdecomp]) (h : exec i s = .next t) :
    t.vq = s.vq := by
  obtain ⟨sel, rfl⟩ | hc := huffman_family hi
  · obtain ⟨_, rfl⟩ | ⟨_, rfl⟩ := execHinit_cases h <;> rfl
  · obtain ⟨_, _, _, rfl⟩ | ⟨_, _, rfl⟩ := execCodec_cases hc h <;> rfl

theorem execHinit_hout {sel : TableSel} {s t : State} (h : exec (.hinit sel) s = .next t) : t.hout = s.hout := by
  obtain ⟨_, rfl⟩ | ⟨_, rfl⟩ := execHinit_cases h <;> rfl

theorem houtAt_setHout_of_length_le (s : State) {b : List Byte} {a : Nat} (h : b.length ≤ a) : (s.setHout b).houtAt a = s.houtAt a := by
  rw [houtAt_setHout, List.getElem?_eq_none h, Option.getD_none]

/-- Settles O22: the shared frame is `exec_keeps`; HINIT's end leaves HOUT, and HCOMP's and HDECOMP's leave HOUT from its RESULT up, which no
capacity lets wrap (R5). -/
theorem huffmanCommandsLeaveTheRest : Obligations.HuffmanCommandsLeaveTheRest := by
  refine ⟨fun i s t hi h => ?_, fun sel s t h => ?_, fun i s t hcfg hi h => ?_⟩
  · obtain ⟨hcfg, harg, hfreq, hhin, hport, hreply, hdriver, hepoch⟩ := exec_keeps h
    exact ⟨hcfg, harg, execHuffman_vq hi h, hfreq, hhin, freqAt_congr hfreq hepoch, hinAt_congr hhin hepoch, hport, hreply, hdriver, hepoch⟩
  · obtain ⟨_, _, _, _, _, _, _, hepoch⟩ := exec_keeps h
    exact ⟨execHinit_hout h, houtAt_congr (execHinit_hout h) hepoch⟩
  · obtain ⟨e, he, _, rfl⟩ | ⟨b, hb, rfl⟩ := execCodec_cases hi h
    · exact ⟨rfl, rfl, rfl, fun hok => absurd hok he, fun _ => ⟨rfl, fun _ => rfl⟩⟩
    · obtain ⟨_, _, ⟨_, hcap⟩, _⟩ := hcfg
      refine ⟨rfl, rfl, rfl, fun _ a ha => ?_, fun herr => absurd rfl herr⟩
      rw [show (ofLength b.length).toNat = b.length from ofLength_toNat (by omega)] at ha
      exact houtAt_setHout_of_length_le s ha

end Sys2Proof.Machine
end

section
/-! PROOF. The invariant of the machine (10_state.md R27, R31, R32): each way a command, a write, a reset or an access changes the state
keeps it, and a step is made of these. -/

namespace Sys2Proof.Machine

/-! ### At reset -/

theorem reference_legal {table : Vector Word 256} (h : (table.toList.map BitVec.toNat).sum + 1 ≤ u32Max) :
    (Config.reference table).Legal := by
  refine ⟨?_, ?_, ?_, ?_, h⟩ <;> simp [Config.reference]

theorem sum_replicate_zero (n : Nat) : ((Vector.replicate n (0 : Word)).toList.map BitVec.toNat).sum = 0 := by
  simp

/-- The parameters of `State.reset` are legal whichever the open ones are (R5, log 1). -/
theorem chosen_legal : Config.chosen.Legal := by
  unfold Config.chosen
  split
  · assumption
  · exact reference_legal (by rw [sum_replicate_zero]; decide)

/-- Settles O56: after reset every buffer is empty and HSTATE is UNINIT. -/
theorem resetStateIsGood : Obligations.ResetStateIsGood := by
  have hreset (c : Config) (n : Nat) (hc : c.Legal) : (State.resetWith c n).Inv :=
    { cfg := hc, vq := Nat.zero_le _, freq := by simp [State.resetWith], hin := by simp [State.resetWith],
      hout := by simp [State.resetWith], err := StatusCode.ok_unreserved, tree := nofun }
  exact ⟨hreset, hreset _ _ chosen_legal⟩

/-! ### One change of the state at a time -/

section
variable {s : State} (hs : s.Inv)
include hs

theorem Inv_setErr {e : StatusCode} (he : e.Unreserved) : State.Inv { s with err := e } :=
  { hs with err := he }

theorem Inv_commitQueue {q : List Byte} (r : Word) (hq : q.length ≤ s.cfg.vqCap) :
    State.Inv { s with vq := q, result := r, err := .ok } :=
  { hs with vq := hq, err := StatusCode.ok_unreserved }

/-- HOUT's front, put in whole, keeps the buffer canonical and within its size (R35). -/
theorem Inv_commitHout {b : List Byte} (r : Word) (hb : b.length ≤ s.cfg.houtCap) :
    State.Inv { s.setHout b with result := r, err := .ok } :=
  { hs with hout := ⟨Store.wf_putFront _ hs.hout.1 b, Store.below_putFront _ hs.hout.2 b hb⟩, err := StatusCode.ok_unreserved }

/-- The tree an HINIT installs is that of weights that passed its check, so R31 holds of it. -/
theorem Inv_commitTree {w : List Nat} (r : Word) (hw : InstalledWeights s.cfg w) :
    State.Inv { s with node := buildTree w, code := codesOf (buildTree w), hstate := .ready, result := r, err := .ok } :=
  { hs with err := StatusCode.ok_unreserved, tree := fun _ => ⟨w, hw, rfl, rfl⟩ }

theorem Inv_setArg (w : Word) : State.Inv { s with arg := w } := { hs with }

theorem Inv_setFreq {i : Nat} (w : Word) (hi : i < 256) : (s.setFreq i w).Inv :=
  { hs with freq := ⟨Store.wf_put _ hs.freq.1 i w, Store.below_put _ hs.freq.2 hi w⟩ }

theorem Inv_setHin {i : Nat} (b : Byte) (hi : i < s.cfg.hinCap) : (s.setHin i b).Inv :=
  { hs with hin := ⟨Store.wf_put _ hs.hin.1 i b, Store.below_put _ hs.hin.2 hi b⟩ }

/-- The invariant does not speak of the host port. -/
theorem Inv_accept (agent : Nat) (rest : List HostEvent) (r : Reply) : State.Inv { s.accept agent rest with reply := some r } :=
  { hs with }

theorem Inv_resetNow (rest : List HostEvent) : (s.resetNow rest).Inv :=
  { resetStateIsGood.1 s.cfg (s.epoch + 1) hs.cfg with }

end

/-! ### Commands, writes and steps -/

/-- The table HINIT reads has 257 weights, the sentinel's last (R131); R132's check bounds their sum. -/
theorem weights_installed {sel : TableSel} {s : State} (hsum : (weights sel s).sum ≤ u32Max) : InstalledWeights s.cfg (weights sel s) := by
  refine ⟨?_, ?_, hsum⟩ <;> cases sel <;> simp [weights, nsym, sentinelSym]

theorem exec_keeps_Inv {i : Instr} {s t : State} (hs : s.Inv) (h : exec i s = .next t) : t.Inv := by
  obtain hi | ⟨sel, rfl⟩ | hi := instr_family i
  · obtain ⟨e, he, rfl⟩ | ⟨q, r, hq, _, rfl⟩ := execVarint_cases hi h
    · exact Inv_setErr hs he
    · exact Inv_commitQueue hs r (hq hs.vq)
  · obtain ⟨_, rfl⟩ | ⟨hsum, rfl⟩ := execHinit_cases h
    · exact Inv_setErr hs (by decide)
    · exact Inv_commitTree hs _ (weights_installed hsum)
  · obtain ⟨e, _, he, rfl⟩ | ⟨b, hb, rfl⟩ := execCodec_cases hi h
    · exact Inv_setErr hs he
    · exact Inv_commitHout hs _ hb

theorem execWord_keeps_Inv {w : Word} {s t : State} (hs : s.Inv) (h : execWord w s = .next t) : t.Inv := by
  obtain ⟨i, _, hi⟩ | ⟨_, rfl⟩ := execWord_cases h
  · exact exec_keeps_Inv hs hi
  · exact Inv_setErr hs (by decide)

/-- A write keeps the invariant at a location that exists: an entry of FREQ or HIN is then within its window (R58). -/
theorem writeLoc_keeps_Inv {s t : State} {w off : Word} {l : Loc} (hs : s.Inv) (hl : locAt s.cfg off = some l)
    (h : writeLoc s w l = .next t) : t.Inv := by
  obtain ⟨hfreq, _, _, hhin, _⟩ := locAt_bound hl
  obtain ⟨_, hcmd⟩ | ⟨_, rfl⟩ | ⟨i, hi, rfl⟩ | ⟨i, hi, rfl⟩ := writeLoc_cases h
  · exact execWord_keeps_Inv hs hcmd
  · exact Inv_setArg hs w
  · exact Inv_setFreq hs w (hfreq i hi)
  · exact Inv_setHin hs _ (hhin i hi)

/-- Settles O57: a step is nothing, a reset, a read, or a write at a location that exists, and each keeps the invariant. -/
theorem stepKeepsTheInvariant : Obligations.StepKeepsTheInvariant := by
  intro s t hs h
  obtain ⟨_, rfl⟩ | ⟨rest, _, rfl⟩ | ⟨a, rest, l, _, _, hsel, ⟨_, rfl⟩ | ⟨w, _, hw⟩⟩ := step_cases h
  · exact hs
  · exact Inv_resetNow hs rest
  · exact Inv_accept hs a.agent rest _
  · obtain ⟨_, _, hl⟩ := (select_ok_iff s.cfg a l).1 hsel
    exact writeLoc_keeps_Inv (Inv_accept hs a.agent rest .writeDone) hl hw

end Sys2Proof.Machine
end

section
/-! PROOF. FREQ is a staging table (10_state.md R33, R194): the ends of HCOMP, HDECOMP and HINIT with T = 0 commute with putting another FREQ in
its place. -/

namespace Sys2Proof.Machine

/-- What `s` becomes when its staging table (R29) is `f`. -/
def State.withFreq (f : Store 32) (s : State) : State := { s with freq := f }

theorem finish_withFreq (f : Store 32) (s : State) (e : CmdEnd) :
    finish (State.withFreq f s) (e.map (State.withFreq f)) = State.withFreq f (finish s e) := by
  cases e <;> rfl

/-- With T = 0 the weights are the parameters' alone (R131). -/
theorem weights_builtin_withFreq (f : Store 32) (s : State) : weights .builtin (State.withFreq f s) = weights .builtin s := rfl

theorem hinitEnd_builtin_withFreq (f : Store 32) (s : State) :
    hinitEnd .builtin (State.withFreq f s) = (hinitEnd .builtin s).map (State.withFreq f) := by
  simp only [hinitEnd, weights_builtin_withFreq, CmdEnd.map_ite]
  rfl

/-- The input and its checks (R174) do not depend on FREQ, so HCOMP and HDECOMP do not when their bodies do not. -/
theorem withInput_withFreq {body : State → List Byte → CmdEnd} (f : Store 32) (s : State)
    (hbody : ∀ input, body (State.withFreq f s) input = (body s input).map (State.withFreq f)) :
    withInput (State.withFreq f s) body = (withInput s body).map (State.withFreq f) := by
  have hstate : (State.withFreq f s).hstate = s.hstate := rfl
  simp only [withInput, hstate]
  cases s.hstate with
  | uninit => rfl
  | ready =>
    simp only [hbody, CmdEnd.map_ite]
    rfl

theorem hcompBody_withFreq (f : Store 32) (s : State) (input : List Byte) :
    hcompBody (State.withFreq f s) input = (hcompBody s input).map (State.withFreq f) := by
  simp only [hcompBody, CmdEnd.map_ite]
  rfl

theorem hdecompBody_withFreq (f : Store 32) (s : State) (input : List Byte) :
    hdecompBody (State.withFreq f s) input = (hdecompBody s input).map (State.withFreq f) := by
  simp only [hdecompBody, State.withFreq]
  cases huffDecode s.cfg.bitOrder s.node input s.cfg.houtCap <;> rfl

/-- Settles O39: each of the three commands commutes with replacing FREQ. -/
theorem onlyHinitWithTableReadsFreq : Obligations.OnlyHinitWithTableReadsFreq := by
  intro i s t f hi h
  simp only [List.mem_cons, List.not_mem_nil, or_false] at hi
  rcases hi with rfl | rfl | rfl
  · exact complete_map (finish_withFreq f) (withInput_withFreq f s (hcompBody_withFreq f s)) h
  · exact complete_map (finish_withFreq f) (withInput_withFreq f s (hdecompBody_withFreq f s)) h
  · exact complete_map (finish_withFreq f) (hinitEnd_builtin_withFreq f s) h

end Sys2Proof.Machine
end

section
/-! PROOF. Single accesses at the host port (20_memory.md R51 to R65): which location an offset in numbers selects, what a step on a read or a
write of it is, and the registers and buffer entries read and written so. -/

namespace Sys2Proof.Machine

/-! ### The location an offset selects -/

section
variable (c : Config) (agent : Nat) (op : HostOp)

/-- R51: the access to entry `i` of region `r` selects what the map holds there. -/
theorem select_entry {r i : Nat} {l : Loc} (hr : r < 16) (hi : i < 2 ^ 26)
    (hl : (r = 0 ∧ ctrlLoc i = some l) ∨ (r = 1 ∧ i < 256 ∧ l = .freq i) ∨ (r = 2 ∧ i < 257 ∧ l = .codelen i) ∨
      (r = 3 ∧ i < c.vqCap ∧ l = .vqData i) ∨ (r = 4 ∧ i < c.hinCap ∧ l = .hin i) ∨ (r = 5 ∧ i < c.houtCap ∧ l = .hout i)) :
    select c ⟨agent, 4, BitVec.ofNat 32 (r * 2 ^ 28 + i * 4), op⟩ = .ok l := by
  obtain ⟨hreg, hidx, hlow⟩ := region_index_ofNat r i hr hi
  refine (select_ok_iff c _ l).2 ⟨rfl, hlow, (locAt_some_iff c _ l).2 ?_⟩
  rwa [hreg, hidx]

/-- R52: control register number `i`, which is at offset 4i. -/
theorem select_ctrl {i : Nat} {l : Loc} (hl : ctrlLoc i = some l) : select c ⟨agent, 4, BitVec.ofNat 32 (i * 4), op⟩ = .ok l := by
  have hi : i ≤ 8 := (ctrlLoc_some hl).1
  have h := select_entry c agent op (r := 0) (by omega) (by omega : i < 2 ^ 26) (.inl ⟨rfl, hl⟩)
  rwa [Nat.zero_mul, Nat.zero_add] at h

end

/-! ### A step on one access -/

theorem readLoc_accept (s : State) (agent : Nat) (rest : List HostEvent) (l : Loc) : readLoc (s.accept agent rest) l = readLoc s l := by
  cases l <;> rfl

section
variable {s : State} {agent : Nat} {rest : List HostEvent} {off w : Word} {l : Loc}

/-- A read of a location replies with its value and changes no state of the block (R65). -/
theorem step_read (hp : s.port = .access ⟨agent, 4, off, .read⟩ :: rest) (hd : s.driver = none ∨ s.driver = some agent)
    (hl : select s.cfg ⟨agent, 4, off, .read⟩ = .ok l) :
    step s = .next { s with port := rest, driver := some agent, reply := some (.readData (readLoc s l)) } := by
  rw [step_access hp hd, serve, accept_cfg, hl, ← readLoc_accept s agent rest l]
  rfl

/-- A write to a location is `writeLoc` on the state that accepts the access (R64). -/
theorem step_write (hp : s.port = .access ⟨agent, 4, off, .write w⟩ :: rest) (hd : s.driver = none ∨ s.driver = some agent)
    (hl : select s.cfg ⟨agent, 4, off, .write w⟩ = .ok l) :
    step s = writeLoc { s with port := rest, driver := some agent, reply := some .writeDone } w l := by
  rw [step_access hp hd, serve, accept_cfg, hl]
  rfl

end

/-- Settles O46: register number k of R52 is at offset 4k, and a read of it is a step of `step_read`. -/
theorem controlRegisterReads : Obligations.ControlRegisterReads := by
  intro s agent rest off v hmem hp hd
  simp only [List.mem_cons, List.not_mem_nil, or_false, Prod.mk.injEq] at hmem
  have hread (i : Nat) (l : Loc) (hl : ctrlLoc i = some l) (ho : off = BitVec.ofNat 32 (i * 4)) :
      step s = .next { s with port := rest, driver := some agent, reply := some (.readData (readLoc s l)) } :=
    step_read hp hd (ho ▸ select_ctrl s.cfg agent .read hl)
  rcases hmem with ⟨ho, rfl⟩ | ⟨ho, rfl⟩ | ⟨ho, rfl⟩ | ⟨ho, rfl⟩ | ⟨ho, rfl⟩ | ⟨ho, rfl⟩ | ⟨ho, rfl⟩ | ⟨ho, rfl⟩ | ⟨ho, rfl⟩
  · exact hread 0 .cmd rfl ho
  · exact hread 1 .arg rfl ho
  · exact hread 2 .result rfl ho
  · exact hread 3 .status rfl ho
  · exact hread 4 .vqlen rfl ho
  · exact hread 5 .capVq rfl ho
  · exact hread 6 .capHin rfl ho
  · exact hread 7 .capHout rfl ho
  · exact hread 8 .id rfl ho

/-- Settles O48: ARG is register 1 of region 0, FREQ is region 1 and HIN region 4, and the stores read back by `Store.find_put`. -/
theorem writesStoreTheirValue : Obligations.WritesStoreTheirValue := by
  intro s agent rest w r i hcfg hp hd
  refine ⟨?_, ?_, ?_⟩
  · rintro rfl rfl
    exact step_write hp hd (select_entry _ _ _ (by omega) (by omega) (.inl ⟨rfl, rfl⟩))
  · rintro rfl hi
    exact ⟨_, step_write hp hd (select_entry _ _ _ (by omega) (by omega) (.inr (.inl ⟨rfl, hi, rfl⟩))),
      fun j => freqAt_setFreq _ i j w, rfl⟩
  · rintro rfl hi
    obtain ⟨_, ⟨_, hcap⟩, _⟩ := hcfg
    exact ⟨_, step_write hp hd (select_entry _ _ _ (by omega) (by omega) (.inr (.inr (.inr (.inr (.inl ⟨rfl, hi, rfl⟩)))))),
      fun j => hinAt_setHin _ i j _, rfl⟩

/-- A write of a word to CMD, at offset 0 (R24, R52). -/
theorem step_writeCmd {s : State} {agent : Nat} {rest : List HostEvent} {w : Word}
    (hp : s.port = .access ⟨agent, 4, 0, .write w⟩ :: rest) (hd : s.driver = none ∨ s.driver = some agent) :
    step s = execWord w { s with port := rest, driver := some agent, reply := some .writeDone } :=
  step_write hp hd (select_ctrl s.cfg agent (.write w) (i := 0) rfl)

theorem execWord_of_decode {w : Word} {i : Instr} (h : decode w = .ok i) (s : State) : execWord w s = exec i s := by
  rw [execWord, h]

/-- Settles O43: offset 0 is CMD, and a word that decodes is its command. -/
theorem stepRunsTheDecodedCommand : Obligations.StepRunsTheDecodedCommand := by
  intro s agent rest w i hp hd hw
  rw [step_writeCmd hp hd, execWord_of_decode hw]

end Sys2Proof.Machine
end

section
/-! PROOF. HSTATE and the tree (10_state.md R30, R33): of everything a step can do, only a reset and a successful HINIT touch them. -/

namespace Sys2Proof

/-- R75: what decodes to a command has that command's fields (R72). -/
theorem eq_fields_of_decodeFields {c : CmdWord} {i : Instr} (h : decodeFields c = .ok i) : c = i.fields := by
  obtain ⟨op, t, rsv⟩ := c
  unfold decodeFields at h
  split at h
  · cases h
  · next hrsv =>
    rw [not_not] at hrsv
    split at h <;> cases h <;> next ht hop =>
      simp only [CmdWord.mk.injEq, Instr.fields]
      exact ⟨BitVec.eq_of_toNat_eq hop, BitVec.eq_of_toNat_eq ht, hrsv⟩

theorem eq_encode_of_decode {w : Word} {i : Instr} (h : decode w = .ok i) : w = encode i := by
  rw [encode, ← eq_fields_of_decodeFields h, CmdWord.toWord_ofWord]

end Sys2Proof

namespace Sys2Proof.Machine

/-- HSTATE, NODE and CODE are those of `s`. -/
abbrev State.SameTree (s t : State) : Prop := t.hstate = s.hstate ∧ t.node = s.node ∧ t.code = s.code

/-- A command leaves HSTATE and the tree, or is an HINIT that succeeds. -/
theorem exec_tree {i : Instr} {s t : State} (h : exec i s = .next t) :
    s.SameTree t ∨ (t.hstate = .ready ∧ t.err = .ok ∧ ∃ sel, i = .hinit sel) := by
  obtain hi | ⟨sel, rfl⟩ | hi := instr_family i
  · obtain ⟨_, _, rfl⟩ | ⟨_, _, _, _, rfl⟩ := execVarint_cases hi h <;> exact .inl ⟨rfl, rfl, rfl⟩
  · obtain ⟨_, rfl⟩ | ⟨_, rfl⟩ := execHinit_cases h
    · exact .inl ⟨rfl, rfl, rfl⟩
    · exact .inr ⟨rfl, rfl, sel, rfl⟩
  · obtain ⟨_, _, _, rfl⟩ | ⟨_, _, rfl⟩ := execCodec_cases hi h <;> exact .inl ⟨rfl, rfl, rfl⟩

/-- A write leaves HSTATE and the tree, or is that of an HINIT's word to CMD, and the HINIT succeeds. -/
theorem writeLoc_tree {s t : State} {w : Word} {l : Loc} (h : writeLoc s w l = .next t) :
    s.SameTree t ∨ (t.hstate = .ready ∧ t.err = .ok ∧ l = .cmd ∧ ∃ sel, w = encode (.hinit sel)) := by
  obtain ⟨hl, hcmd⟩ | ⟨_, rfl⟩ | ⟨_, _, rfl⟩ | ⟨_, _, rfl⟩ := writeLoc_cases h
  · obtain ⟨i, hw, hi⟩ | ⟨_, rfl⟩ := execWord_cases hcmd
    · obtain hsame | ⟨hr, he, sel, rfl⟩ := exec_tree hi
      · exact .inl hsame
      · exact .inr ⟨hr, he, hl, sel, eq_encode_of_decode hw⟩
    · exact .inl ⟨rfl, rfl, rfl⟩
  all_goals exact .inl ⟨rfl, rfl, rfl⟩

/-- The next event is a 32-bit write of an HINIT's word to CMD. -/
abbrev State.HinitNext (s : State) : Prop :=
  ∃ agent rest sel, s.port = .access ⟨agent, 4, 0, .write (encode (.hinit sel))⟩ :: rest

/-- An access to CMD is one of 32 bits at offset 0 (R51, R52, R59). -/
theorem access_of_select_cmd {c : Config} {a : HostAccess} {w : Word} (h : select c a = .ok .cmd) (hop : a.op = .write w) :
    a = ⟨a.agent, 4, 0, .write w⟩ := by
  obtain ⟨agent, size, off, op⟩ := a
  obtain ⟨hsize, hlow, hloc⟩ := (select_ok_iff c _ _).1 h
  simp only at hsize hlow hloc hop
  rw [hsize, hop, locAt_eq_cmd hloc hlow]

/-- What a step can do to HSTATE and the tree: leave them, reset them, or install a tree by an HINIT that succeeds. -/
theorem step_tree {s t : State} (h : step s = .next t) :
    s.SameTree t ∨ (t.hstate = .uninit ∧ ∃ rest, s.port = .reset :: rest) ∨ (t.hstate = .ready ∧ t.err = .ok ∧ s.HinitNext) := by
  obtain ⟨_, rfl⟩ | ⟨rest, hp, rfl⟩ | ⟨a, rest, l, hp, _, hsel, ⟨_, rfl⟩ | ⟨w, hop, hw⟩⟩ := step_cases h
  · exact .inl ⟨rfl, rfl, rfl⟩
  · exact .inr (.inl ⟨rfl, rest, hp⟩)
  · exact .inl ⟨rfl, rfl, rfl⟩
  · obtain hsame | ⟨hr, he, rfl, sel, rfl⟩ := writeLoc_tree hw
    · exact .inl hsame
    · exact .inr (.inr ⟨hr, he, a.agent, rest, sel, access_of_select_cmd hsel hop ▸ hp⟩)

/-- Settles O59: of the three cases of `step_tree`, a change from READY leaves the reset, and a change to it the HINIT. -/
theorem hstateChangesOnlyByHinitAndReset : Obligations.HstateChangesOnlyByHinitAndReset := by
  intro s t h
  obtain ⟨hsame, _⟩ | ⟨ht, hreset⟩ | ⟨ht, herr, hnext⟩ := step_tree h
  · exact ⟨fun hs ht => by simp [hsame, hs] at ht, fun hs ht => by simp [hsame, hs] at ht⟩
  · exact ⟨fun _ _ => hreset, fun _ ht' => by simp [ht] at ht'⟩
  · exact ⟨fun _ ht' => by simp [ht] at ht', fun _ _ => ⟨herr, hnext⟩⟩

/-- Settles O60: with the reset ruled out, `step_tree` leaves the HINIT. -/
theorem treeChangesOnlyByHinit : Obligations.TreeChangesOnlyByHinit := by
  intro s t h hchange hno
  obtain ⟨_, hnode, hcode⟩ | ⟨_, rest, hreset⟩ | ⟨_, herr, hnext⟩ := step_tree h
  · exact hchange.elim (absurd hnode) (absurd hcode)
  · exact absurd hreset (hno rest)
  · exact ⟨herr, hnext⟩

end Sys2Proof.Machine
end

section
/-! PROOF. STATUS as a word (10_state.md R23) and the state a reset leaves (R38, 70_reset_and_hazards.md R190). -/

namespace Sys2Proof.Machine

theorem statusWord_err (s : State) : (statusWord s).extractLsb' 0 4 = s.err.code :=
  BitVec.extractLsb'_append_eq_right

theorem statusWord_hready (s : State) : (statusWord s).getLsbD 4 = true ↔ s.hstate = .ready := by
  have hbit : (statusWord s).getLsbD 4 = s.hstate.ready?.getLsbD 0 := by
    have happend : (statusWord s).getLsbD 4 = (((0 : BitVec 27) ++ s.hstate.ready?) ++ s.err.code).getLsbD 4 := rfl
    rw [happend, BitVec.getLsbD_append, BitVec.getLsbD_append]
    rfl
  rw [hbit]
  cases s.hstate <;> simp [HState.ready?]

theorem statusWord_reserved (s : State) : (statusWord s).extractLsb' 5 27 = 0 := by
  cases hh : s.hstate <;> cases he : s.err <;> simp [statusWord, hh, he, HState.ready?, StatusCode.code]

/-- Settles O20: STATUS is its three fields side by side, and the codes' numbers are those of the definition. -/
theorem statusFieldsAndCodes : Obligations.StatusFieldsAndCodes :=
  ⟨fun s => ⟨statusWord_err s, statusWord_hready s, statusWord_reserved s⟩, rfl, rfl, rfl, rfl, rfl, rfl, rfl, rfl, rfl, rfl⟩

theorem step_reset {s : State} {rest : List HostEvent} (hp : s.port = .reset :: rest) : step s = .next (s.resetNow rest) := by
  rw [step, hp]
  rfl

theorem statusWord_resetNow (s : State) (rest : List HostEvent) : statusWord (s.resetNow rest) = 0 := by
  simp [statusWord, HState.ready?, StatusCode.code]

/-- Settles O55: the step is `resetNow`, whose stores list no entry, so each reads as its draw. -/
theorem resetLeavesTheResetState : Obligations.ResetLeavesTheResetState := by
  intro s rest hp
  exact ⟨s.resetNow rest, step_reset hp, resetNow_cfg s rest, resetNow_arg s rest, resetNow_result s rest,
    statusWord_resetNow s rest, resetNow_vq s rest, resetNow_hstate s rest, fun _ => rfl, fun _ => ⟨rfl, rfl, rfl⟩,
    resetNow_epoch s rest, resetNow_port s rest⟩

end Sys2Proof.Machine
end

section
/-! PROOF. The stream bits of 20_memory.md R63: bytes are the bits they are read as, so packing them is the one way to hold given bits. -/

namespace Sys2Proof.Machine

/-- The stream bits of some bytes are `bits` when there are as many and `stream_bit` agrees at each. -/
theorem streamBits_eq_iff (o : BitOrder) (bs : List Byte) (bits : Bits) (hlen : bits.length = 8 * bs.length) :
    streamBits o bs = bits ↔ ∀ j (h : j < bits.length), streamBit o bs j = bits[j] := by
  have hlen' : (streamBits o bs).length = bits.length := (streamBits_length o bs).trans hlen.symm
  constructor
  · rintro rfl j h
    exact streamBit_eq_getElem o bs j h
  · intro hbit
    exact List.ext_getElem hlen' fun j h h' => (streamBit_eq_getElem o bs j h).symm.trans (hbit j h')

theorem streamBit_of_getElem? {bs : List Byte} {j : Nat} {b : Byte} (h : bs[j / 8]? = some b) (o : BitOrder) :
    streamBit o bs j = byteStreamBit o b (j % 8) := by
  rw [streamBit, h]

/-- Settles O31: `packBits` and `streamBits` are inverse to each other on whole bytes. -/
theorem packBitsHoldsTheStream : Obligations.PackBitsHoldsTheStream := by
  refine ⟨fun o bits n hbits => ?_, fun bs j b h => ⟨streamBit_of_getElem? h .msbFirst, streamBit_of_getElem? h .lsbFirst⟩⟩
  obtain ⟨hpack, hlen⟩ := packBits_spec o n bits hbits
  refine ⟨hlen, (streamBits_eq_iff o _ bits (hlen.symm ▸ hbits)).1 hpack, fun bs hbs hbit => ?_⟩
  rw [← (streamBits_eq_iff o bs bits (hbs.symm ▸ hbits)).2 hbit, packBits_streamBits]

end Sys2Proof.Machine
end

section
/-! PROOF. Reads (20_memory.md R53 to R57, R65): the value depends on the block's own state alone, so a read can be repeated; and the offsets
of R51 and R77 select their own locations. -/

namespace Sys2Proof.Machine

/-- What a read returns does not depend on the port, the driver or the last reply. -/
theorem readLoc_bookkeeping (s : State) (port : List HostEvent) (driver : Option Nat) (reply : Option Reply) (l : Loc) :
    readLoc { s with port := port, driver := driver, reply := reply } l = readLoc s l := by
  cases l <;> rfl

/-- `step_read` for an access given by its operation. -/
theorem step_of_read {s : State} {a : HostAccess} {rest : List HostEvent} {l : Loc} (hp : s.port = .access a :: rest)
    (hd : s.driver = none ∨ s.driver = some a.agent) (hop : a.op = .read) (hl : select s.cfg a = .ok l) :
    step s = .next { s with port := rest, driver := some a.agent, reply := some (.readData (readLoc s l)) } := by
  obtain ⟨hsize, _⟩ := (select_ok_iff _ _ _).1 hl
  obtain ⟨agent, size, off, op⟩ := a
  obtain rfl : size = 4 := hsize
  obtain rfl : op = .read := hop
  exact step_read hp hd hl

/-- Whatever was replied before, a read from the agent that drives the instance replies with the same value (R65 (a)). -/
theorem step_read_again {s : State} {a : HostAccess} {l : Loc} (hop : a.op = .read) (hl : select s.cfg a = .ok l) (rest : List HostEvent)
    (reply : Option Reply) :
    step { s with port := .access a :: rest, driver := some a.agent, reply := reply } =
      .next { s with port := rest, driver := some a.agent, reply := some (.readData (readLoc s l)) } := by
  have h := step_of_read (s := { s with port := .access a :: rest, driver := some a.agent, reply := reply }) rfl (.inr rfl) hop hl
  rwa [readLoc_bookkeeping] at h

/-- An access that a step answers with a next state selects a location, and its agent may drive the instance. -/
theorem select_of_step_next {s t : State} {a : HostAccess} {rest : List HostEvent} (hp : s.port = .access a :: rest) (h : step s = .next t) :
    (s.driver = none ∨ s.driver = some a.agent) ∧ ∃ l, select s.cfg a = .ok l := by
  obtain ⟨hnil, _⟩ | ⟨_, hreset, _⟩ | ⟨a', _, l, hp', hd, hl, _⟩ := step_cases h
  · simp [hp] at hnil
  · simp [hp] at hreset
  · obtain ⟨rfl, _⟩ : a = a' ∧ _ := by simpa [hp] using hp'
    exact ⟨hd, l, hl⟩

/-- Settles O45: a read is `step_of_read`, and `step_read_again` the same read at once after it. -/
theorem idleStepsAndReadsChangeNothing : Obligations.IdleStepsAndReadsChangeNothing := by
  refine ⟨fun s hp => by rw [step, hp], fun s t a rest hp hop h => ?_⟩
  obtain ⟨hd, l, hl⟩ := select_of_step_next hp h
  obtain rfl := Host.Outcome.next.inj ((step_of_read hp hd hop hl).symm.trans h)
  exact ⟨⟨_, rfl⟩, rfl, step_read_again hop hl rest _⟩

theorem readLoc_vqData_of_lt (s : State) {i : Nat} (h : i < s.vq.length) : readLoc s (.vqData i) = BitVec.ofNat 32 (s.vq[i]).toNat := by
  rw [readLoc, List.getD_eq_getElem _ _ h, BitVec.ofNat_toNat]

theorem readLoc_vqData_of_le (s : State) {i : Nat} (h : s.vq.length ≤ i) : readLoc s (.vqData i) = 0 := by
  rw [readLoc, List.getD_eq_default _ _ h]
  rfl

theorem readLoc_codelen_ready {s : State} (h : s.hstate = .ready) (i : Nat) :
    readLoc s (.codelen i) = BitVec.ofNat 32 (codeAt s.code i).length := by
  rw [readLoc, h]
  rfl

theorem readLoc_codelen_uninit {s : State} (h : s.hstate = .uninit) (i : Nat) : readLoc s (.codelen i) = 0 := by
  rw [readLoc, h]

/-- Settles O47: `select_entry` finds the entry, `step_read` replies with `readLoc` of it, and the lemmas above say what that is. -/
theorem windowReads : Obligations.WindowReads := by
  intro s agent rest r i hcfg hp hd
  obtain ⟨⟨_, hvq⟩, ⟨_, hhin⟩, ⟨_, hhout⟩, _⟩ := hcfg
  refine ⟨?_, ?_, ?_, ?_, ?_, ?_, ?_⟩
  · rintro rfl hi
    exact step_read hp hd (select_entry _ _ _ (by omega) (by omega) (.inr (.inl ⟨rfl, hi, rfl⟩)))
  · rintro rfl hi hready
    rw [← readLoc_codelen_ready hready]
    exact step_read hp hd (select_entry _ _ _ (by omega) (by omega) (.inr (.inr (.inl ⟨rfl, hi, rfl⟩))))
  · rintro rfl hi huninit
    rw [← readLoc_codelen_uninit huninit i]
    exact step_read hp hd (select_entry _ _ _ (by omega) (by omega) (.inr (.inr (.inl ⟨rfl, hi, rfl⟩))))
  · rintro rfl hlt hi
    rw [← readLoc_vqData_of_lt s hlt]
    exact step_read hp hd (select_entry _ _ _ (by omega) (by omega) (.inr (.inr (.inr (.inl ⟨rfl, hi, rfl⟩)))))
  · rintro rfl hle hi
    rw [← readLoc_vqData_of_le s hle]
    exact step_read hp hd (select_entry _ _ _ (by omega) (by omega) (.inr (.inr (.inr (.inl ⟨rfl, hi, rfl⟩)))))
  · rintro rfl hi
    rw [BitVec.ofNat_toNat]
    exact step_read hp hd (select_entry _ _ _ (by omega) (by omega) (.inr (.inr (.inr (.inr (.inl ⟨rfl, hi, rfl⟩))))))
  · rintro rfl hi
    rw [BitVec.ofNat_toNat]
    exact step_read hp hd (select_entry _ _ _ (by omega) (by omega) (.inr (.inr (.inr (.inr (.inr ⟨rfl, hi, rfl⟩))))))

/-- R51, R77: the map sends the offset of entry `i` of region `r` to what it holds there. -/
theorem locAt_offsetAt (c : Config) {r i : Nat} {l : Loc} (hr : r < 16) (hi : i < 2 ^ 26)
    (hl : (r = 0 ∧ ctrlLoc i = some l) ∨ (r = 1 ∧ i < 256 ∧ l = .freq i) ∨ (r = 2 ∧ i < 257 ∧ l = .codelen i) ∨
      (r = 3 ∧ i < c.vqCap ∧ l = .vqData i) ∨ (r = 4 ∧ i < c.hinCap ∧ l = .hin i) ∨ (r = 5 ∧ i < c.houtCap ∧ l = .hout i)) :
    locAt c (offsetAt r i) = some l ∧ (offsetAt r i).extractLsb' 0 2 = 0 := by
  rw [offsetAt_eq r i hi]
  obtain ⟨_, hlow, hloc⟩ := (select_ok_iff _ _ _).1 (select_entry c 0 .read hr hi hl)
  exact ⟨hloc, hlow⟩

/-- Settles O53: control register number k is entry k of region 0, and the capacities keep every window within the 26 bits of INDEX. -/
theorem offsetsSelectTheirLocations : Obligations.OffsetsSelectTheirLocations := by
  intro c l hcfg hl
  obtain ⟨⟨_, hvq⟩, ⟨_, hhin⟩, ⟨_, hhout⟩, _⟩ := hcfg
  have hctrl (k : Nat) (l : Loc) (hk : k < 2 ^ 26) (hc : ctrlLoc k = some l) :
      locAt c (offsetAt 0 k) = some l ∧ (offsetAt 0 k).extractLsb' 0 2 = 0 :=
    locAt_offsetAt c (by omega) hk (.inl ⟨rfl, hc⟩)
  cases l with
  | cmd => exact hctrl 0 .cmd (by omega) rfl
  | arg => exact hctrl 1 .arg (by omega) rfl
  | result => exact hctrl 2 .result (by omega) rfl
  | status => exact hctrl 3 .status (by omega) rfl
  | vqlen => exact hctrl 4 .vqlen (by omega) rfl
  | capVq => exact hctrl 5 .capVq (by omega) rfl
  | capHin => exact hctrl 6 .capHin (by omega) rfl
  | capHout => exact hctrl 7 .capHout (by omega) rfl
  | id => exact hctrl 8 .id (by omega) rfl
  | freq i => exact locAt_offsetAt c (by omega) (by omega) (.inr (.inl ⟨rfl, hl, rfl⟩))
  | codelen i => exact locAt_offsetAt c (by omega) (by omega) (.inr (.inr (.inl ⟨rfl, hl, rfl⟩)))
  | vqData i => exact locAt_offsetAt c (by omega) (by omega) (.inr (.inr (.inr (.inl ⟨rfl, hl, rfl⟩))))
  | hin i => exact locAt_offsetAt c (by omega) (by omega) (.inr (.inr (.inr (.inr (.inl ⟨rfl, hl, rfl⟩)))))
  | hout i => exact locAt_offsetAt c (by omega) (by omega) (.inr (.inr (.inr (.inr (.inr ⟨rfl, hl, rfl⟩)))))

end Sys2Proof.Machine
end

section
/-! PROOF. Bus errors (20_memory.md R58 to R61): an access completes when the map allows it and is a bus error when it does not, and which
accesses are allowed is a matter of the offset's fields. -/

namespace Sys2Proof.Machine

/-! ### Which accesses complete -/

/-- The locations a write does not answer with a bus error (R60). -/
def Loc.Writable (l : Loc) : Prop := l = .cmd ∨ l = .arg ∨ (∃ i, l = .freq i) ∨ ∃ i, l = .hin i

theorem writable_freq (i : Nat) : (Loc.freq i).Writable := .inr (.inr (.inl ⟨i, rfl⟩))

theorem writable_hin (i : Nat) : (Loc.hin i).Writable := .inr (.inr (.inr ⟨i, rfl⟩))

theorem not_writable_codelen (i : Nat) : ¬ (Loc.codelen i).Writable := by simp [Loc.Writable]

theorem not_writable_vqData (i : Nat) : ¬ (Loc.vqData i).Writable := by simp [Loc.Writable]

theorem not_writable_hout (i : Nat) : ¬ (Loc.hout i).Writable := by simp [Loc.Writable]

/-- A command word completes, legal or not, and takes nothing from the port. -/
theorem execWord_completes (w : Word) (s : State) : ∃ t, execWord w s = .next t ∧ t.port = s.port := by
  cases hw : decode w with
  | ok i =>
    obtain ⟨e, he⟩ := exec_eq_complete i s
    obtain ⟨_, _, _, _, hport, _⟩ := exec_keeps he
    exact ⟨_, (execWord_of_decode hw s).trans he, hport⟩
  | error r => exact ⟨{ s with err := .illegalCommand }, by rw [execWord, hw]; rfl, rfl⟩

theorem writeLoc_completes {l : Loc} (h : l.Writable) (s : State) (w : Word) : ∃ t, writeLoc s w l = .next t ∧ t.port = s.port := by
  obtain rfl | rfl | ⟨i, rfl⟩ | ⟨i, rfl⟩ := h
  · exact execWord_completes w s
  · exact ⟨_, rfl, rfl⟩
  · exact ⟨_, rfl, setFreq_port s i w⟩
  · exact ⟨_, rfl, setHin_port s i _⟩

theorem writeLoc_readOnly {l : Loc} (h : ¬ l.Writable) (s : State) (w : Word) : writeLoc s w l = .fault (.busError .readOnly) := by
  cases l with
  | cmd => exact absurd (.inl rfl) h
  | arg => exact absurd (.inr (.inl rfl)) h
  | freq i => exact absurd (writable_freq i) h
  | hin i => exact absurd (writable_hin i) h
  | _ => rfl

section
variable {s : State} {a : HostAccess} {rest : List HostEvent}

theorem step_of_allowed (hp : s.port = .access a :: rest) (hd : s.driver = none ∨ s.driver = some a.agent) (h : a.Allowed s.cfg) :
    ∃ t, step s = .next t ∧ t.port = rest := by
  obtain ⟨l, hl, hop⟩ := h
  cases ha : a.op with
  | read => exact ⟨_, step_of_read hp hd ha hl, rfl⟩
  | write w =>
    have hw : l.Writable := hop.resolve_left (by simp [ha])
    rw [step_access hp hd, serve, accept_cfg, hl, ha]
    exact writeLoc_completes hw _ w

theorem step_of_not_allowed (hp : s.port = .access a :: rest) (hd : s.driver = none ∨ s.driver = some a.agent) (h : ¬ a.Allowed s.cfg) :
    ∃ c, step s = .fault (.busError c) := by
  rw [step_access hp hd, serve, accept_cfg]
  cases hl : select s.cfg a with
  | error c => exact ⟨c, rfl⟩
  | ok l =>
    cases ha : a.op with
    | read => exact absurd ⟨l, hl, .inl ha⟩ h
    | write w => exact ⟨.readOnly, writeLoc_readOnly (fun hw => h ⟨l, hl, .inr hw⟩) _ w⟩

/-- An admitted access is a bus error exactly when the map does not allow it. -/
theorem step_busError_iff (hp : s.port = .access a :: rest) (hd : s.driver = none ∨ s.driver = some a.agent) :
    (∃ c, step s = .fault (.busError c)) ↔ ¬ a.Allowed s.cfg := by
  refine ⟨fun ⟨c, hc⟩ hallowed => ?_, step_of_not_allowed hp hd⟩
  obtain ⟨t, ht, _⟩ := step_of_allowed hp hd hallowed
  simp [hc] at ht

end

/-- Settles O51: `step_of_allowed`, its location being a readable one or one of the four that take a write. -/
theorem allowedAccessesComplete : Obligations.AllowedAccessesComplete :=
  fun _ _ _ hp hd h => step_of_allowed hp hd h

/-! ### The allowed accesses in numbers -/

/-- Of the control registers CMD and ARG alone are writable (R52). -/
theorem ctrlLoc_writable_iff {n : Nat} {l : Loc} (h : ctrlLoc n = some l) : l.Writable ↔ n ≤ 1 := by
  obtain ⟨_, hcmd, harg, hwindow⟩ := ctrlLoc_some h
  have hfreq : ¬ ∃ i, l = .freq i := fun ⟨i, hi⟩ => (hwindow i).1 hi
  have hhin : ¬ ∃ i, l = .hin i := by
    rintro ⟨i, rfl⟩
    obtain ⟨_, _, _, hne, _⟩ := hwindow i
    exact hne rfl
  simp only [Loc.Writable, hcmd, harg, hfreq, hhin, or_false]
  omega

theorem ctrlLoc_allows_iff (n : Nat) (p : Prop) : (∃ l, ctrlLoc n = some l ∧ (p ∨ l.Writable)) ↔ n ≤ 8 ∧ (p ∨ n ≤ 1) := by
  constructor
  · rintro ⟨l, hl, hop⟩
    exact ⟨(ctrlLoc_some hl).1, hop.imp_right (ctrlLoc_writable_iff hl).1⟩
  · rintro ⟨hn, hop⟩
    obtain ⟨l, hl⟩ := Option.isSome_iff_exists.1 ((ctrlLoc_isSome_iff n).2 hn)
    exact ⟨l, hl, hop.imp_right (ctrlLoc_writable_iff hl).2⟩

/-- R51, R60: where the map holds a location that allows an operation, `p` standing for a read. -/
theorem locAt_allows_iff (c : Config) (off : Word) (p : Prop) :
    (∃ l, locAt c off = some l ∧ (p ∨ l.Writable)) ↔
      (region off = 0 ∧ index off ≤ 8 ∧ (p ∨ index off ≤ 1)) ∨ (region off = 1 ∧ index off < 256) ∨
      (region off = 2 ∧ index off < 257 ∧ p) ∨ (region off = 3 ∧ index off < c.vqCap ∧ p) ∨
      (region off = 4 ∧ index off < c.hinCap) ∨ (region off = 5 ∧ index off < c.houtCap ∧ p) := by
  simp only [locAt_some_iff, or_and_right, exists_or, and_assoc, exists_and_left, exists_eq_left, ctrlLoc_allows_iff, writable_freq,
    writable_hin, not_writable_codelen, not_writable_vqData, not_writable_hout, or_true, or_false, and_true]

theorem allowed_iff (c : Config) (a : HostAccess) :
    a.Allowed c ↔ a.size = 4 ∧ a.off.extractLsb' 0 2 = 0 ∧ ∃ l, locAt c a.off = some l ∧ (a.op = .read ∨ l.Writable) := by
  simp only [HostAccess.Allowed, select_ok_iff, Loc.Writable, and_assoc, exists_and_left]

/-- Settles O49: the complement of `allowed_iff`, its fields read as numbers. -/
theorem busErrorsExactlyWhen : Obligations.BusErrorsExactlyWhen := by
  intro s a rest hp hd
  rw [step_busError_iff hp hd, allowed_iff, locAt_allows_iff, low_bits_eq_zero_iff, region_eq, index_eq]
  generalize a.off.toNat / 2 ^ 28 = r
  generalize a.off.toNat / 4 % 2 ^ 26 = i
  generalize a.off.toNat % 4 = low
  cases a.op with
  | read =>
    simp only [true_or, and_true, ne_eq, reduceCtorEq, exists_const, false_and, or_false]
    omega
  | write w =>
    simp only [reduceCtorEq, false_or, and_false, or_false, ne_eq, HostOp.write.injEq, exists_eq', true_and]
    omega

/-- Settles O50: a reset never ends in a bus error, and `busErrorView` takes the event that did. -/
theorem busErrorChangesNoState : Obligations.BusErrorChangesNoState := by
  intro s e rest c hp h
  refine ⟨by rw [State.busErrorView, hp, List.tail_cons], ?_⟩
  cases e with
  | reset => simp [step_reset hp] at h
  | access a => exact ⟨a, rfl⟩

end Sys2Proof.Machine
end

section
/-! PROOF. The command words (30_encoding.md R72 to R75): the legal words are the ten words of the opcode map, and the decoder inverts the encoder
on them. -/

namespace Sys2Proof

/-- The instructions, in the order of R75's list of words. -/
def Instr.all : List Instr :=
  [.vpack, .vunpack, .vclear, .vgrow, .vsize, .vpushb, .hinit .builtin, .hcomp, .hdecomp, .hinit .freq]

theorem Instr.mem_all (i : Instr) : i ∈ Instr.all := by
  obtain _ | _ | _ | _ | _ | _ | (_ | _) | _ | _ := i <;> decide

theorem Instr.wellFormed_eq_true (i : Instr) : i.wellFormed = true :=
  (show ∀ j ∈ Instr.all, j.wellFormed = true by decide) i i.mem_all

theorem decodeFields_fields (i : Instr) : decodeFields i.fields = .ok i :=
  (show ∀ j ∈ Instr.all, decodeFields j.fields = .ok j by decide) i i.mem_all

theorem decode_encode (i : Instr) : decode (encode i) = .ok i := by
  rw [decode, encode, CmdWord.ofWord_toWord, decodeFields_fields]

theorem decode_eq_ok_iff (w : Word) (i : Instr) : decode w = .ok i ↔ w = encode i :=
  ⟨eq_encode_of_decode, fun h => h ▸ decode_encode i⟩

/-- R72 to R74: with RSV = 0, the 32 pairs of OP and T leave those of the ten commands. -/
theorem CmdWord.legal_iff (c : CmdWord) : c.legal = true ↔ ∃ i : Instr, c = i.fields := by
  refine ⟨fun h => ?_, fun ⟨i, hi⟩ => hi ▸ i.wellFormed_eq_true⟩
  obtain ⟨op, t, rsv⟩ := c
  have hrsv : rsv = 0 := by simp_all [CmdWord.legal, CmdWord.rsvOk]
  subst hrsv
  have hten : ∀ op t, (CmdWord.mk op t 0).legal = true → CmdWord.mk op t 0 ∈ Instr.all.map Instr.fields := by decide
  obtain ⟨i, _, hi⟩ := List.mem_map.1 (hten op t h)
  exact ⟨i, hi.symm⟩

theorem decodeFields_isOk_iff (c : CmdWord) : (∃ i, decodeFields c = .ok i) ↔ c.legal = true := by
  rw [CmdWord.legal_iff]
  exact exists_congr fun i => ⟨eq_fields_of_decodeFields, fun h => h ▸ decodeFields_fields i⟩

theorem decode_isError_iff (w : Word) : (∃ r, decode w = .error r) ↔ (CmdWord.ofWord w).legal = false := by
  rw [← Bool.not_eq_true, ← decodeFields_isOk_iff, decode]
  cases decodeFields (CmdWord.ofWord w) <;> simp

/-- T is bit 4 (R70). -/
theorem CmdWord.ofWord_t_eq_zero_iff (w : Word) : (CmdWord.ofWord w).t = 0 ↔ w.getLsbD 4 = false := by
  rw [CmdWord.ofWord, BitVec.eq_of_getLsbD_eq_iff]
  simp

/-- R74's three cases in the bits of the word. -/
theorem CmdWord.ofWord_legal_eq_false_iff (w : Word) :
    (CmdWord.ofWord w).legal = false ↔
      w.extractLsb' 5 27 ≠ 0 ∨ w.extractLsb' 0 4 ∈ [0x0#4, 0x7#4, 0xB#4, 0xC#4, 0xD#4, 0xE#4, 0xF#4] ∨
        (w.getLsbD 4 = true ∧ w.extractLsb' 0 4 ≠ 0x8#4) := by
  have hrsv : (CmdWord.ofWord w).rsvOk = false ↔ w.extractLsb' 5 27 ≠ 0 := decide_eq_false_iff_not
  have hop : (CmdWord.ofWord w).opOk = false ↔ w.extractLsb' 0 4 ∈ [0x0#4, 0x7#4, 0xB#4, 0xC#4, 0xD#4, 0xE#4, 0xF#4] :=
    decide_eq_false_iff_not.trans not_not
  have ht : (CmdWord.ofWord w).tOk = false ↔ w.getLsbD 4 = true ∧ w.extractLsb' 0 4 ≠ 0x8#4 := by
    rw [CmdWord.tOk, decide_eq_false_iff_not, CmdWord.ofWord_t_eq_zero_iff, not_or, Bool.not_eq_false]
    rfl
  rw [CmdWord.legal, Bool.and_eq_false_iff, Bool.and_eq_false_iff, hrsv, hop, ht, or_assoc]

/-- R75: the ten words. -/
theorem encode_all : Instr.all.map encode =
    [0x01#32, 0x02#32, 0x03#32, 0x04#32, 0x05#32, 0x06#32, 0x08#32, 0x09#32, 0x0A#32, 0x18#32] := by decide

/-- Settles O2: the decoder errs on the words that are not legal, the legal words are those of the ten instructions, and decoding inverts encoding. -/
theorem decoderAcceptsExactlyTheLegalWords : Obligations.DecoderAcceptsExactlyTheLegalWords := by
  refine ⟨fun w => (decode_isError_iff w).trans (CmdWord.ofWord_legal_eq_false_iff w), fun w => ?_, decode_eq_ok_iff⟩
  rw [← encode_all, List.mem_map]
  exact exists_congr fun i => (decode_eq_ok_iff w i).trans ⟨fun h => ⟨i.mem_all, h.symm⟩, fun h => h.2.symm⟩

/-- Settles O1: each of the ten words is its command's `encode`, so `decode_encode` reads it back. -/
theorem opcodeMapDecodesAndRoundTrips : Obligations.OpcodeMapDecodesAndRoundTrips :=
  ⟨⟨decode_encode .vpack, decode_encode .vunpack, decode_encode .vclear, decode_encode .vgrow, decode_encode .vsize, decode_encode .vpushb,
    decode_encode (.hinit .builtin), decode_encode (.hinit .freq), decode_encode .hcomp, decode_encode .hdecomp⟩,
    fun i => ⟨i.wellFormed_eq_true, decode_encode i⟩⟩

end Sys2Proof
end

section
/-! PROOF. Words at the port: an illegal word written to CMD (R74), and the host programs that write ARG and then a command (R77, R78). -/

namespace Sys2Proof.Machine

theorem execWord_of_decode_error {w : Word} {r : IllegalWord} (h : decode w = .error r) (s : State) :
    execWord w s = .next { s with err := .illegalCommand } := by
  rw [execWord, h]
  rfl

/-- Settles O44: offset 0 is CMD, and a word that does not decode raises IllegalCommand. -/
theorem illegalWordSetsErrOnly : Obligations.IllegalWordSetsErrOnly := by
  intro s agent rest w r hp hd hw
  rw [step_writeCmd hp hd, execWord_of_decode_error hw]

section
variable {prog : List HostCode} {h h' : HostState} {t : State}

/-- The block as an access of its host leaves it when a write is done: nothing at the port, the host its driver. -/
abbrev HostState.written (h : HostState) : State := { h.block with port := [], driver := some h.agent, reply := some .writeDone }

/-- The block as an access of its host finds it: that access alone at the port. -/
abbrev HostState.accessing (h : HostState) (off : Word) (op : HostOp) : State := { h.block with port := [.access ⟨h.agent, 4, off, op⟩] }

theorem hostRun_of_running (hs : hostStep prog h = .running h') (k : Nat) : hostRun prog (k + 1) h = hostRun prog k h' := by
  rw [hostRun, hs]

theorem hostAccess_of_next {off : Word} {op : HostOp} (hs : step (h.accessing off op) = .next t) (k : State → HostEnd) :
    hostAccess h off op k = k t := by
  rw [hostAccess, hs]

/-- R77: `WR ARG, v` stores `v` in ARG. -/
theorem hostStep_writeArg {v : Word} (hc : prog[h.pos]? = some (.wr (.reg .arg) (.lit v)))
    (hd : h.block.driver = none ∨ h.block.driver = some h.agent) :
    hostStep prog h = .running { h with block := { h.written with arg := v }, pos := h.pos + 1 } := by
  rw [hostStep, hc]
  exact hostAccess_of_next (step_write (s := h.accessing Loc.arg.offset (.write v)) rfl hd (select_ctrl _ h.agent _ (i := 1) rfl)) _

/-- R77: a command of a host program is that command on the block. -/
theorem hostStep_cmd {i : Instr} (hc : prog[h.pos]? = some (.cmd i)) (hd : h.block.driver = none ∨ h.block.driver = some h.agent)
    (ht : exec i h.written = .next t) : hostStep prog h = .running { h with block := t, pos := h.pos + 1 } := by
  rw [hostStep, hc]
  exact hostAccess_of_next ((stepRunsTheDecodedCommand (h.accessing Loc.cmd.offset (.write (encode i))) _ _ _ _ rfl hd (decode_encode i)).trans ht) _

/-- R78: a host that writes `v` to ARG and then runs a command leaves the block as the command does with ARG = `v`. -/
theorem hostRun_writeArg_cmd {v : Word} {i : Instr} (hpos : h.pos = 0) (hd : h.block.driver = none ∨ h.block.driver = some h.agent)
    (ht : exec i { h.written with arg := v } = .next t) :
    hostRun [.wr (.reg .arg) (.lit v), .cmd i] 2 h = .running { h with block := t, pos := 2 } := by
  obtain ⟨block, agent, vars, pos⟩ := h
  subst hpos
  rw [hostRun_of_running (hostStep_writeArg rfl hd), hostRun_of_running (hostStep_cmd rfl (.inr rfl) ht)]
  rfl

end

/-- Settles O54: `VPACK #v` is `hostRun_writeArg_cmd` for VPACK. -/
theorem pseudoVpackWritesArgAndPacks : Obligations.PseudoVpackWritesArgAndPacks :=
  fun _ _ _ hpos hd ht => hostRun_writeArg_cmd hpos hd ht

end Sys2Proof.Machine
end

section
/-! PROOF. The VarInt format (40_varint.md R100 to R104): how long an encoding is, and what a decoding of any bytes gives. -/

namespace Sys2Proof.Machine

/-! ### Encodings -/

/-- The bytes of an encoding, byte 0 by its three fields. -/
theorem varintEncode_eq_cons (v : Word) :
    ∃ b : Byte, varintEncode v = b :: varintChunks 4 (varintMagnitude v >>> 6) ∧ b.toNat % 64 = varintMagnitude v % 64 ∧
      b.getLsbD 6 = v.msb ∧ b.getLsbD 7 = decide (varintMagnitude v >>> 6 ≠ 0) := by
  obtain ⟨hchunk, hsign, hcont⟩ := headByte v.msb (varintMagnitude v) (varintMagnitude v >>> 6)
  exact ⟨_, rfl, (Nat.and_two_pow_sub_one_eq_mod _ 6).symm.trans hchunk, hsign, hcont⟩

/-- The walk over an encoding's bytes 1 to 4 finds the magnitude, from its low 6 bits, and takes the encoding and no more. -/
theorem varintWalk_encode (v : Word) (q : List Byte) :
    varintWalk 4 (varintChunks 4 (varintMagnitude v >>> 6) ++ q) 1 (varintMagnitude v % 64) (decide (varintMagnitude v >>> 6 ≠ 0)) =
      some (varintMagnitude v, (varintEncode v).length) := by
  have hlt := varintMagnitude_lt v
  have hrest : varintMagnitude v >>> 6 < 2 ^ (7 * 4) := by rw [Nat.shiftRight_eq_div_pow]; omega
  have hsum : varintMagnitude v % 64 + varintMagnitude v >>> 6 * 2 ^ (6 + 7 * (1 - 1)) = varintMagnitude v := by
    rw [Nat.shiftRight_eq_div_pow]
    exact Nat.mod_add_div' _ 64
  rw [varintWalk_chunks 4 _ 1 (varintMagnitude v % 64) q (by decide) (Nat.mod_lt _ (by decide)) hrest, hsum, varintEncode_length]

/-- Settles O4: the walk finds the magnitude, which no mode rejects since it is below 2^31, and the sign fold makes it `v` again. -/
theorem varintDecodeOfEncode : Obligations.VarintDecodeOfEncode := by
  intro mode v q
  obtain ⟨b, henc, hchunk, hsign, hcont⟩ := varintEncode_eq_cons v
  have hlt := varintMagnitude_lt v
  rw [henc, List.cons_append, varintDecode_cons, hchunk, hsign, hcont, varintWalk_encode, ← henc, varintResult_ok_iff]
  exact ⟨_, rfl, (signFold_magnitude v).symm, fun ⟨hge, _⟩ => absurd hge (Nat.not_le.2 hlt)⟩

/-- The magnitude of a value bounds it on both sides: `m` stands for `m` and for `-m - 1`. -/
theorem varintMagnitude_lt_iff (v : Word) (n : Nat) : varintMagnitude v < n ↔ -(n : Int) ≤ v.toInt ∧ v.toInt < n := by
  have hv := v.isLt
  rw [varintMagnitude, BitVec.toInt_eq_msb_cond]
  cases hm : v.msb <;> simp only [BitVec.msb_eq_decide, decide_eq_false_iff_not, decide_eq_true_eq] at hm
  · simp only [Bool.false_eq_true, if_false]
    omega
  · simp only [if_true, BitVec.toNat_not]
    omega

theorem varintEncode_length_le_iff_toInt (v : Word) (j : Nat) (hj : j ≤ 4) :
    (varintEncode v).length ≤ j + 1 ↔ -((2 ^ (6 + 7 * j) : Nat) : Int) ≤ v.toInt ∧ v.toInt < (2 ^ (6 + 7 * j) : Nat) :=
  (varintEncode_length_le_iff v j hj).trans (varintMagnitude_lt_iff v _)

/-- Chunk `i` of a remainder holds its bits `7i` up, and its bit 7 says whether bits above those are left. -/
theorem varintChunks_getElem? {p m i : Nat} {b : Byte} (h : (varintChunks p m)[i]? = some b) :
    b.toNat % 128 = m >>> (7 * i) % 128 ∧ b.getLsbD 7 = decide (m >>> (7 * (i + 1)) ≠ 0) := by
  induction p generalizing m i with
  | zero => simp [varintChunks] at h
  | succ p ih =>
    rw [varintChunks] at h
    split at h
    · simp at h
    · cases i with
      | zero =>
        obtain ⟨hchunk, hcont⟩ := chunkByte m (m >>> 7)
        rw [List.getElem?_cons_zero, Option.some.injEq] at h
        subst h
        exact ⟨(Nat.and_two_pow_sub_one_eq_mod _ 7).symm.trans hchunk, hcont⟩
      | succ i =>
        obtain ⟨hchunk, hcont⟩ := ih (List.getElem?_cons_succ ▸ h)
        rw [← Nat.shiftRight_add, Nat.add_comm 7] at hchunk hcont
        exact ⟨hchunk, hcont⟩

/-- Bits 6:4 of a byte are clear exactly when its chunk is below 16. -/
theorem bits6to4_eq_zero_iff (b : Byte) : b.extractLsb' 4 3 = 0 ↔ b.toNat % 128 < 16 := by
  rw [← BitVec.toNat_inj, BitVec.extractLsb'_toNat, Nat.shiftRight_eq_div_pow]
  change b.toNat / 2 ^ 4 % 2 ^ 3 = 0 ↔ _
  omega

/-- R101: byte 4 of an encoding holds the magnitude's bits 30:27, and is the last one. -/
theorem varintEncode_byte4 {v : Word} {b : Byte} (h : (varintEncode v)[4]? = some b) : b.getLsbD 7 = false ∧ b.extractLsb' 4 3 = 0 := by
  obtain ⟨_, henc, _⟩ := varintEncode_eq_cons v
  have hlt := varintMagnitude_lt v
  rw [henc, List.getElem?_cons_succ] at h
  obtain ⟨hchunk, hcont⟩ := varintChunks_getElem? h
  rw [← Nat.shiftRight_add, Nat.shiftRight_eq_div_pow] at hchunk hcont
  rw [bits6to4_eq_zero_iff, hchunk, hcont, decide_eq_false_iff_not, not_not]
  omega

/-- Settles O3: `j + 1` bytes suffice exactly below `2^(6 + 7j)`, so the exact lengths are the differences of these ranges. -/
theorem varintEncodedLengthByRange : Obligations.VarintEncodedLengthByRange := by
  intro v
  have hpos := varintEncode_length_pos v
  have hmax := varintEncode_length_le v
  have h1 := varintEncode_length_le_iff_toInt v 0 (by decide)
  have h2 := varintEncode_length_le_iff_toInt v 1 (by decide)
  have h3 := varintEncode_length_le_iff_toInt v 2 (by decide)
  have h4 := varintEncode_length_le_iff_toInt v 3 (by decide)
  norm_num at h1 h2 h3 h4
  refine ⟨?_, ?_, ?_, ?_, ?_, fun b => varintEncode_byte4⟩ <;> omega

/-! ### Decodings -/

/-- What a decoding that succeeds can have done: it took byte 0 and `j` more that are there, folded the sum of their chunks, and did not look
at the bytes after them. -/
theorem varintDecode_cons_ok {mode : Overlong} {b : Byte} {q : List Byte} {v : Word} {k : Nat} (h : varintDecode mode (b :: q) = .ok v k) :
    ∃ j, k = j + 1 ∧ j ≤ 4 ∧ j ≤ q.length ∧ v = signFold (b.getLsbD 6) (b.toNat % 64 + chunkSum 0 (q.take j)) ∧
      ∀ r, varintDecode mode (b :: (q.take j ++ r)) = .ok v k := by
  rw [varintDecode_cons, varintResult_ok_iff] at h
  obtain ⟨m, hw, hv, hm⟩ := h
  obtain ⟨j, hk, hj, hq, hr, hsum⟩ := varintWalk_some hw
  obtain ⟨hm', _⟩ := hsum le_rfl (Nat.mod_lt _ (by decide))
  refine ⟨j, by omega, hj, hq, hm' ▸ hv, fun r => ?_⟩
  rw [varintDecode_cons, varintResult_ok_iff]
  exact ⟨m, hr r, hv, hm⟩

/-- Settles O5: byte 0 is taken, and the rest is `varintDecode_cons_ok`. -/
theorem varintDecodeReadsOnlyWhatItConsumes : Obligations.VarintDecodeReadsOnlyWhatItConsumes := by
  intro mode q v k h
  cases q with
  | nil => simp [varintDecode] at h
  | cons b q =>
    obtain ⟨j, rfl, hj, hq, _, hr⟩ := varintDecode_cons_ok h
    exact ⟨by omega, by omega, Nat.succ_le_succ hq, hr⟩

/-- Settles O6: `varintDecode_cons_ok` gives the value, and `chunkSum` is the statement's sum. -/
theorem varintDecodedValueIsTheSumOfChunks : Obligations.VarintDecodedValueIsTheSumOfChunks := by
  intro mode b q v k h
  obtain ⟨j, rfl, _, _, hv, _⟩ := varintDecode_cons_ok h
  rw [hv, chunkSum_eq_zipIdx_sum, Nat.add_sub_cancel]

/-! ### The errors of a decoding -/

/-- The walk takes its last byte exactly when the first four ask for the next and that last one exists; it then holds all the chunks. -/
theorem varintWalk_four_iff {m m' : Nat} {q : List Byte} {c : Bool} (hm : m < 64) :
    varintWalk 4 q 1 m c = some (m', 5) ↔
      c = true ∧ 4 ≤ q.length ∧ (∀ b ∈ q.take 3, b.getLsbD 7 = true) ∧ m' = m + chunkSum 0 (q.take 4) := by
  have hsum {m'} (h : varintWalk 4 q 1 m c = some (m', 5)) : m' = m + chunkSum 0 (q.take 4) := by
    obtain ⟨j, hj, _, _, _, hs⟩ := varintWalk_some h
    obtain rfl : j = 4 := by omega
    obtain ⟨hm', _⟩ := hs le_rfl hm
    exact hm'
  constructor
  · intro h
    obtain ⟨hc, hq, hall⟩ := varintWalk_all (by decide) h
    exact ⟨hc, hq, hall, hsum h⟩
  · rintro ⟨rfl, hq, hall, rfl⟩
    obtain ⟨m', h⟩ := varintWalk_takes_all (k := 1) (m := m) hq hall
    rw [← hsum h, h]

/-- Only byte 4 reaches bit 31 of the magnitude, by its bits 6:4. -/
theorem magnitude_ge_iff {m : Nat} {q : List Byte} {b : Byte} (hm : m < 64) (hb : q[3]? = some b) :
    2 ^ 31 ≤ m + chunkSum 0 (q.take 4) ↔ b.extractLsb' 4 3 ≠ 0 := by
  rw [ne_eq, bits6to4_eq_zero_iff]
  match q, hb with
  | b1 :: b2 :: b3 :: b4 :: q, hb =>
    obtain rfl : b4 = b := by simpa using hb
    simp only [List.take_succ_cons, List.take_zero, chunkSum]
    omega

/-- The walk finds a magnitude that does not fit exactly when it takes a last byte with one of its bits 6:4 set. -/
theorem varintWalk_overflow_iff {m : Nat} {q : List Byte} {c : Bool} (hm : m < 64) :
    (∃ m' k, varintWalk 4 q 1 m c = some (m', k) ∧ 2 ^ 31 ≤ m') ↔
      c = true ∧ (∀ b ∈ q.take 3, b.getLsbD 7 = true) ∧ ∃ b, q[3]? = some b ∧ b.extractLsb' 4 3 ≠ 0 := by
  constructor
  · rintro ⟨m', k, hw, hge⟩
    obtain ⟨j, rfl, hj, _, _, hs⟩ := varintWalk_some hw
    obtain ⟨_, hlt⟩ := hs le_rfl hm
    have hpow := (Nat.pow_lt_pow_iff_right (by decide : 1 < 2)).1 (Nat.lt_of_le_of_lt hge hlt)
    obtain rfl : j = 4 := by omega
    obtain ⟨hc, hq, hall, rfl⟩ := (varintWalk_four_iff hm).1 hw
    have hb : q[3]? = some q[3] := List.getElem?_eq_getElem hq
    exact ⟨hc, hall, _, hb, (magnitude_ge_iff hm hb).1 hge⟩
  · rintro ⟨hc, hall, b, hb, hbits⟩
    obtain ⟨hq, _⟩ := List.getElem?_eq_some_iff.1 hb
    exact ⟨_, 5, (varintWalk_four_iff hm).2 ⟨hc, hq, hall, rfl⟩, (magnitude_ge_iff hm hb).2 hbits⟩

/-- Settles O7: byte 0 apart, the walk's two ways to fail are `varintWalk_none_iff` and `varintWalk_overflow_iff`. -/
theorem varintDecodeErrorsExactlyWhen : Obligations.VarintDecodeErrorsExactlyWhen := by
  intro mode q
  cases q with
  | nil => simp [varintDecode]
  | cons b q =>
    rw [varintDecode_cons, varintResult_insufficient_iff, varintWalk_none_iff, varintResult_overflow_iff,
      varintWalk_overflow_iff (Nat.mod_lt _ (by decide)), List.take_succ_cons, List.forall_mem_cons, List.forall_mem_cons,
      List.getElem?_cons_succ, List.length_cons, Nat.succ_lt_succ_iff]
    exact ⟨and_left_comm, and_congr_right fun _ => and_assoc.symm⟩

end Sys2Proof.Machine
end

section
/-! PROOF. The VarInt commands (40_varint.md R105 to R110): what each answers, and a sequence of values through the queue. -/

namespace Sys2Proof.Machine

theorem exists_exec_eq_next (i : Instr) (s : State) : ∃ t, exec i s = .next t := by
  obtain ⟨e, he⟩ := exec_eq_complete i s
  exact ⟨_, he⟩

/-! ### VPACK and VPUSHB -/

theorem execVpack_of_fits {s : State} (h : s.vq.length + (varintEncode s.arg).length ≤ s.cfg.vqCap) :
    exec .vpack s = .next { s with
      vq := s.vq ++ varintEncode s.arg, result := ofLength (varintEncode s.arg).length, err := .ok } := by
  obtain ⟨t, ht⟩ := exists_exec_eq_next .vpack s
  obtain ⟨hlt, _⟩ | ⟨_, rfl⟩ := execVpack_cases ht
  · omega
  · exact ht

theorem execVpack_of_not_fits {s : State} (h : s.cfg.vqCap < s.vq.length + (varintEncode s.arg).length) :
    exec .vpack s = .next { s with err := .capacityExceeded } := by
  obtain ⟨t, ht⟩ := exists_exec_eq_next .vpack s
  obtain ⟨_, rfl⟩ | ⟨hle, _⟩ := execVpack_cases ht
  · exact ht
  · omega

/-- Settles O8: VPACK's two outcomes; the corner values and the word are closed facts. -/
theorem vpackAppendsTheEncoding : Obligations.VpackAppendsTheEncoding :=
  ⟨fun _ => execVpack_of_fits, fun _ => execVpack_of_not_fits, by decide⟩

theorem execVpushb_of_lt {s : State} (h : s.vq.length < s.cfg.vqCap) :
    exec .vpushb s = .next { s with vq := s.vq ++ [s.argByte], result := ofLength (s.vq.length + 1), err := .ok } := by
  obtain ⟨t, ht⟩ := exists_exec_eq_next .vpushb s
  obtain ⟨heq, _⟩ | ⟨_, rfl⟩ := execVpushb_cases ht
  · omega
  · exact ht

theorem execVpushb_of_full {s : State} (h : s.vq.length = s.cfg.vqCap) : exec .vpushb s = .next { s with err := .capacityExceeded } := by
  obtain ⟨t, ht⟩ := exists_exec_eq_next .vpushb s
  obtain ⟨_, rfl⟩ | ⟨hne, _⟩ := execVpushb_cases ht
  · exact ht
  · exact absurd h hne

/-- Settles O14: VPUSHB's two outcomes; the word is a closed fact. -/
theorem vpushbAppendsOneByte : Obligations.VpushbAppendsOneByte :=
  ⟨fun _ => execVpushb_of_lt, fun _ => execVpushb_of_full, by decide⟩

/-! ### VUNPACK -/

theorem execVunpack_of_ok {s : State} {v : Word} {k : Nat} (h : varintDecode s.cfg.overlong s.vq = .ok v k) :
    exec .vunpack s = .next { s with vq := s.vq.drop k, result := v, err := .ok } := by
  obtain ⟨t, ht⟩ := exists_exec_eq_next .vunpack s
  obtain ⟨hd, _⟩ | ⟨hd, _⟩ | ⟨v', k', hd, rfl⟩ := execVunpack_cases ht
  · cases hd.symm.trans h
  · cases hd.symm.trans h
  · cases hd.symm.trans h
    exact ht

theorem execVunpack_of_insufficientData {s : State} (h : varintDecode s.cfg.overlong s.vq = .insufficientData) :
    exec .vunpack s = .next { s with err := .insufficientData } := by
  obtain ⟨t, ht⟩ := exists_exec_eq_next .vunpack s
  obtain ⟨_, rfl⟩ | ⟨hd, _⟩ | ⟨_, _, hd, _⟩ := execVunpack_cases ht
  · exact ht
  · cases hd.symm.trans h
  · cases hd.symm.trans h

theorem execVunpack_of_varIntOverflow {s : State} (h : varintDecode s.cfg.overlong s.vq = .varIntOverflow) :
    exec .vunpack s = .next { s with err := .varIntOverflow } := by
  obtain ⟨t, ht⟩ := exists_exec_eq_next .vunpack s
  obtain ⟨hd, _⟩ | ⟨_, rfl⟩ | ⟨_, _, hd, _⟩ := execVunpack_cases ht
  · cases hd.symm.trans h
  · exact ht
  · cases hd.symm.trans h

/-- Settles O9: one outcome of VUNPACK for each result of the decoder; the word is a closed fact. -/
theorem vunpackRemovesTheFrontValue : Obligations.VunpackRemovesTheFrontValue :=
  ⟨fun _ _ _ => execVunpack_of_ok, fun _ => execVunpack_of_insufficientData, fun _ => execVunpack_of_varIntOverflow, by decide⟩

/-- Settles O10: decoding finds the value and its encoding's length (R104), and dropping that many bytes leaves the rest. -/
theorem vunpackReturnsTheEncodedValue : Obligations.VunpackReturnsTheEncodedValue := by
  intro s v rest hq
  rw [execVunpack_of_ok (hq ▸ varintDecodeOfEncode s.cfg.overlong v rest), hq, List.drop_left]

/-! ### VCLEAR, VSIZE and VGROW -/

/-- Settles O12: neither command has a second outcome; the words are closed facts. -/
theorem vclearEmptiesAndVsizeReturnsTheLength : Obligations.VclearEmptiesAndVsizeReturnsTheLength :=
  ⟨execVclear_eq, execVsize_eq, by decide, by decide⟩

theorem execVgrow_of_fits {s : State} (h : max (s.vq.length + s.arg.toNat) 5 ≤ s.cfg.vqCap) :
    exec .vgrow s = .next { s with result := ofLength (s.cfg.vqCap - s.vq.length), err := .ok } := by
  obtain ⟨t, ht⟩ := exists_exec_eq_next .vgrow s
  obtain ⟨hlt, _⟩ | ⟨_, rfl⟩ := execVgrow_cases ht
  · exact absurd h (Nat.not_le.2 hlt)
  · exact ht

theorem execVgrow_of_not_fits {s : State} (h : s.cfg.vqCap < max (s.vq.length + s.arg.toNat) 5) :
    exec .vgrow s = .next { s with err := .capacityExceeded } := by
  obtain ⟨t, ht⟩ := exists_exec_eq_next .vgrow s
  obtain ⟨_, rfl⟩ | ⟨hle, _⟩ := execVgrow_cases ht
  · exact ht
  · exact absurd hle (Nat.not_le.2 h)

/-- A VGROW that succeeds has found room for ARG bytes behind the queue, which it leaves as it is. -/
theorem room_of_execVgrow {s t : State} (h : exec .vgrow s = .next t) (hok : t.err = .ok) : t.vq.length + s.arg.toNat ≤ t.cfg.vqCap := by
  obtain ⟨_, rfl⟩ | ⟨hle, rfl⟩ := execVgrow_cases h
  · cases hok
  · exact Nat.le_trans (Nat.le_max_left _ _) hle

/-- Settles O13: the guarantee to later appends is `room_of_execVgrow`. -/
theorem vgrowChecksTheFreeSpace : Obligations.VgrowChecksTheFreeSpace := by
  refine ⟨fun _ => execVgrow_of_fits, fun _ => execVgrow_of_not_fits, fun s hcfg hq harg => ?_,
    fun s t u h hok hu => ⟨fun hle => ?_, fun hle => ?_⟩, by decide⟩
  · obtain ⟨⟨hcap, _⟩, _⟩ := hcfg
    exact ⟨_, execVgrow_of_fits (by simpa [hq, harg] using hcap), rfl⟩
  · have hroom := hu ▸ room_of_execVgrow h hok
    exact ⟨_, execVpack_of_fits (Nat.le_trans hle hroom), rfl⟩
  · have hroom := hu ▸ room_of_execVgrow h hok
    exact ⟨_, execVpushb_of_lt (Nat.le_trans hle hroom), rfl⟩

/-! ### Values in sequence -/

theorem commandRun_cons {v : Word} {i : Instr} {s t : State} (h : exec i { s with arg := v } = .next t) (l : List (Word × Instr)) :
    commandRun ((v, i) :: l) s = t :: commandRun l t := by
  rw [commandRun, h]

/-- Packing values that fit appends their encodings in order. -/
theorem vq_after_vpacks {s t : State} {vs : List Word} (hfit : s.vq.length + (vs.map fun v => (varintEncode v).length).sum ≤ s.cfg.vqCap)
    (ht : (s :: commandRun (vs.map fun v => (v, .vpack)) s).getLast? = some t) : t.vq = s.vq ++ vs.flatMap varintEncode := by
  induction vs generalizing s with
  | nil =>
    obtain rfl : s = t := by simpa [commandRun] using ht
    simp
  | cons v vs ih =>
    rw [List.map_cons, List.sum_cons] at hfit
    have hpack := execVpack_of_fits (s := { s with arg := v }) (by simp only; omega)
    rw [List.map_cons, commandRun_cons hpack, List.getLast?_cons_cons] at ht
    have hrest := ih (by simpa [Nat.add_assoc] using hfit) ht
    rw [hrest, List.flatMap_cons, List.append_assoc]

/-- Unpacking a queue that starts with the encodings of some values answers these values in order. -/
theorem vunpacks_of_encodings {t : State} {vs : List Word} {rest : List Byte} (hq : t.vq = vs.flatMap varintEncode ++ rest) :
    (commandRun (vs.map fun _ => (0, .vunpack)) t).map (fun u => (u.err, u.result)) = vs.map fun v => (.ok, v) := by
  induction vs generalizing t with
  | nil => rfl
  | cons v vs ih =>
    rw [List.flatMap_cons, List.append_assoc] at hq
    have hunpack := vunpackReturnsTheEncodedValue { t with arg := 0 } v _ hq
    rw [List.map_cons, commandRun_cons hunpack, List.map_cons, List.map_cons, ih rfl]

/-- Settles O11: the packed queue is the encodings in order, and nothing behind them. -/
theorem packedSequenceUnpacksInOrder : Obligations.PackedSequenceUnpacksInOrder := by
  intro s vs hempty hfit t ht
  have hq := vq_after_vpacks (by simpa [hempty] using hfit) ht
  exact vunpacks_of_encodings (rest := []) (by rw [hq, hempty, List.nil_append, List.append_nil])

end Sys2Proof.Machine
end

section
/-! PROOF. Tree construction (41_huffman.md R133 to R136): the sort is characterised by its two properties, the insertion form is the same loop, and
what the loop's passes and the tree they make look like. -/

namespace Sys2Proof.Machine

/-- Settles O24: lists with the two properties of R133 are equal (`sorted_unique`), and the sort has them. -/
theorem stableSortIsTheUniqueStablePermutation : Obligations.StableSortIsTheUniqueStablePermutation := fun f l =>
  ⟨sort_perm f l, sort_sorted f l, sort_filter f l, fun _ hperm hsorted hties =>
    sorted_unique hsorted (sort_sorted f l) (hperm.trans (sort_perm f l).symm) fun n => (hties n).trans (sort_filter f l n).symm⟩

/-! ### The insertion form of R136 -/

/-- The insertion loop keeps its list sorted, so it sees in each pass what the full sort would give. -/
theorem insertionLoop_sort (p k : Nat) (l : List CNode) : insertionLoop p k (stableSortDesc CNode.freq l) = mergeLoop p k l := by
  induction p generalizing k l with
  | zero => rfl
  | succ p ih =>
    simp only [insertionLoop, mergeLoop]
    match hrev : (stableSortDesc CNode.freq l).reverse with
    | [] => rfl
    | [_] => rfl
    | a :: b :: rest =>
      have hsorted : SortedDesc CNode.freq (rest.reverse ++ [b, a]) := by
        have hsort : stableSortDesc CNode.freq l = rest.reverse ++ [b, a] := by simpa using congrArg List.reverse hrev
        exact hsort ▸ sort_sorted CNode.freq l
      simp only [← sort_append_newest _ _ (List.pairwise_append.1 hsorted).1, ih]

/-- Settles O27: both trees have the same leaves, and their loops agree by `insertionLoop_sort`. -/
theorem insertionFormBuildsTheSameTree : Obligations.InsertionFormBuildsTheSameTree := fun w => by
  rw [insertionTree, insertionLoop_sort, buildTree]

/-! ### The passes of R134 -/

/-- One pass on the construction list: the two lightest nodes leave it, and node `k`, made of them, is its new tail. -/
def mergeLast (k : Nat) (l : List CNode) : List CNode :=
  match (stableSortDesc CNode.freq l).reverse with
  | a :: b :: rest => rest.reverse ++ [⟨k, a.freq + b.freq⟩]
  | short => short

/-- The construction list after `i` passes from `l`, the first of which makes node `k`. -/
def passList (k : Nat) (l : List CNode) : Nat → List CNode
  | 0 => l
  | i + 1 => mergeLast (k + i) (passList k l i)

theorem mergeLast_of_sort {l rest : List CNode} {a b : CNode} (k : Nat) (h : stableSortDesc CNode.freq l = rest ++ [b, a]) :
    mergeLast k l = rest ++ [⟨k, a.freq + b.freq⟩] := by
  simp [mergeLast, h]

/-- The passes after the first are those of the list it leaves. -/
theorem passList_succ (k : Nat) (l : List CNode) (i : Nat) : passList k l (i + 1) = passList (k + 1) (mergeLast k l) i := by
  induction i with
  | zero => rfl
  | succ i ih => rw [passList, ih, passList, Nat.add_right_comm, Nat.add_assoc]

/-- Pass `i` of the loop, while there are two nodes to merge: what it sorts, what it makes, and what it leaves. -/
theorem mergeLoop_pass (p k i : Nat) (l : List CNode) (hi : i + 2 ≤ l.length) (hp : i < p) :
    ∃ rest a b, stableSortDesc CNode.freq (passList k l i) = rest ++ [b, a] ∧ rest.length + i + 2 = l.length ∧
      (mergeLoop p k l)[i]? = some (.internal a.id b.id (a.freq + b.freq)) ∧
      passList k l (i + 1) = rest ++ [⟨k + i, a.freq + b.freq⟩] := by
  induction p generalizing k i l with
  | zero => omega
  | succ p ih =>
    obtain ⟨hshort, _⟩ | ⟨a, b, rest, hsort, hperm, hloop⟩ := mergeLoop_succ p k l
    · omega
    · have hlen : l.length = rest.length + 2 := by simpa using hperm.length_eq
      cases i with
      | zero => exact ⟨rest, a, b, hsort, by omega, by rw [hloop]; rfl, mergeLast_of_sort k hsort⟩
      | succ i =>
        obtain ⟨rest', a', b', hsort', hlen', hget, hnext⟩ :=
          ih (k + 1) i (rest ++ [⟨k, a.freq + b.freq⟩]) (by simp; omega) (by omega)
        rw [← mergeLast_of_sort k hsort, ← passList_succ] at hsort' hnext
        refine ⟨rest', a', b', hsort', by simp at hlen'; omega, by rw [hloop, List.getElem?_cons_succ, hget], ?_⟩
        rw [hnext, Nat.add_assoc, Nat.add_comm 1]

/-- Settles O26: the lists are `passList` from the leaves, and each pass is `mergeLoop_pass`. -/
theorem treeMergesTheTwoLast : Obligations.TreeMergesTheTwoLast := by
  intro w hw
  have hpass (i : Nat) (hi : i < 256) := mergeLoop_pass w.length w.length i (leafList w) (by rw [leafList_length]; omega) (by omega)
  refine ⟨buildTree_leaf w, by rw [buildTree_length, hw], passList w.length (leafList w), ?_, leafList_freqs w, fun i hi => ?_, ?_⟩
  · rw [passList, leafList_ids, hw]
  · obtain ⟨rest, a, b, hsort, _, hget, hnext⟩ := hpass i hi
    refine ⟨rest, a, b, hsort, ?_, hw ▸ hnext⟩
    rw [← hget, ← buildTree_internal, hw]
  · obtain ⟨rest, a, b, _, hlen, _, hnext⟩ := hpass 255 (by omega)
    rw [leafList_length, hw] at hlen
    obtain rfl : rest = [] := List.length_eq_zero_iff.1 (by omega)
    rw [hnext, hw]
    rfl

/-! ### The shape of the tree -/

/-- `m` is one of the children of node `n`. -/
def IsChild (node : List Node) (n m : Nat) : Prop := ∃ a b, IsInternal node n a b ∧ (m = a ∨ m = b)

theorem isChild_iff {node : List Node} {n m : Nat} : IsChild node n m ↔ ∃ x, node[n]? = some x ∧ m ∈ x.children := by
  constructor
  · rintro ⟨a, b, ⟨f, hn⟩, hm⟩
    exact ⟨_, hn, by simpa [Node.children] using hm⟩
  · rintro ⟨_ | ⟨a, b, f⟩, hn, hm⟩
    · simp [Node.children] at hm
    · exact ⟨a, b, ⟨f, hn⟩, by simpa [Node.children] using hm⟩

/-- Where no number is a child twice, a node is a child of one node only. -/
theorem IsChild.unique {node : List Node} (h : (node.flatMap Node.children).Nodup) {n n' m : Nat} (hn : IsChild node n m)
    (hn' : IsChild node n' m) : n' = n := by
  obtain ⟨x, hx, hmx⟩ := isChild_iff.1 hn
  obtain ⟨y, hy, hmy⟩ := isChild_iff.1 hn'
  obtain ⟨hlt, rfl⟩ := List.getElem?_eq_some_iff.1 hx
  obtain ⟨hlt', rfl⟩ := List.getElem?_eq_some_iff.1 hy
  have hdisj := List.pairwise_iff_getElem.1 (List.nodup_flatMap.1 h).2
  obtain hc | hc | hc := Nat.lt_trichotomy n n'
  · exact absurd hmy (hdisj n n' hlt hlt' hc hmx)
  · exact hc.symm
  · exact absurd hmx (hdisj n' n hlt' hlt hc hmy)

/-- R135: every node but the root has exactly one parent. -/
theorem buildTree_parent {w : List Nat} (hw : w.length = 257) {m : Nat} (hm : m < 512) :
    ∃ n, IsChild (buildTree w) n m ∧ ∀ n', IsChild (buildTree w) n' m → n' = n := by
  have hperm : ((buildTree w).flatMap Node.children).Perm (List.range 512) := by simpa [hw] using buildTree_children w (by omega)
  obtain ⟨x, hx, hmx⟩ := List.mem_flatMap.1 (hperm.mem_iff.2 (List.mem_range.2 hm))
  obtain ⟨n, hn⟩ := List.getElem?_of_mem hx
  have hchild := isChild_iff.2 ⟨x, hn, hmx⟩
  exact ⟨n, hchild, fun _ hn' => hchild.unique (hperm.nodup_iff.2 List.nodup_range) hn'⟩

/-- R135 with the numbers of R5: an internal node, its children and its weight. -/
theorem buildTree_internalNode {w : List Nat} (hw : w.length = 257) {n : Nat} (h1 : 257 ≤ n) (h2 : n ≤ 512) :
    ∃ a b, a < n ∧ b < n ∧ a ≠ b ∧
      (buildTree w)[n]? = some (.internal a b (nodeFreq (buildTree w) a + nodeFreq (buildTree w) b)) ∧
      nodeFreq (buildTree w) n ≤ w.sum ∧ (n = 512 → nodeFreq (buildTree w) n = w.sum) := by
  obtain ⟨a, b, ha, hb, hab, hn, hle, hroot⟩ := buildTree_node w (n - 257) (by omega)
  rw [hw, Nat.add_sub_cancel' h1] at ha hb hn
  have hfreq : nodeFreq (buildTree w) n = nodeFreq (buildTree w) a + nodeFreq (buildTree w) b := by rw [nodeFreq, hn]
  exact ⟨a, b, ha, hb, hab, hn, hfreq ▸ hle, fun h => hfreq ▸ hroot (by omega)⟩

/-- R132: no node weighs more than all leaves together. -/
theorem nodeFreq_le_sum {w : List Nat} (hw : w.length = 257) (n : Nat) : nodeFreq (buildTree w) n ≤ w.sum := by
  by_cases hleaf : n < w.length
  · rw [nodeFreq, buildTree_leaf w n hleaf]
    exact List.single_le_sum (fun _ _ => Nat.zero_le _) _ (List.getElem_mem hleaf)
  by_cases hinner : n ≤ 512
  · obtain ⟨_, _, _, _, _, _, hle, _⟩ := buildTree_internalNode hw (by omega) hinner
    exact hle
  · rw [nodeFreq, List.getElem?_eq_none (by rw [buildTree_length]; omega)]
    exact Nat.zero_le _

/-- Settles O25: the parents are `buildTree_parent`, the rest is the loop's record of its nodes (`buildTree_node`). -/
theorem treeHasItsShape : Obligations.TreeHasItsShape := by
  intro w hw
  refine ⟨by rw [buildTree_length, hw], buildTree_leaf w, fun n h1 h2 => ?_, fun m hm => buildTree_parent hw hm, fun hsum => ⟨fun n => ?_, ?_⟩⟩
  · obtain ⟨a, b, ha, hb, hab, hn, _⟩ := buildTree_internalNode hw h1 h2
    exact ⟨a, b, ha, hb, hab, hn⟩
  · exact Nat.lt_of_le_of_lt ((nodeFreq_le_sum hw n).trans hsum) (by decide)
  · obtain ⟨_, _, _, _, _, _, _, hroot⟩ := buildTree_internalNode hw (n := 512) (by omega) (by omega)
    exact hroot rfl

end Sys2Proof.Machine
end

section
/-! PROOF. The codes (41_huffman.md R137, R138): every node has one path from the root, and the codes, which are the paths of the symbols,
do not begin one another and use up the code space. -/

namespace Sys2Proof.Machine

/-! ### Paths -/

/-- A path by its last bit: it leads to a parent first. -/
theorem leads_concat {node : List Node} {n s : Nat} {p : Bits} {b : Bool} :
    Leads node n (p ++ [b]) s ↔ ∃ m, Leads node n p m ∧ sentinelSym < m ∧ child node m b = s := by
  induction p generalizing n with
  | nil => simp [Leads]
  | cons c p ih => simp only [List.cons_append, Leads, ih, and_assoc, exists_and_left]

theorem child_lt {node : List Node} (hs : Shaped node) {n : Nat} (h1 : sentinelSym < n) (h2 : n ≤ 512) (bit : Bool) : child node n bit < n := by
  obtain ⟨a, b, f, hn, ha, hb⟩ := hs.inner n h1 h2
  rw [child_internal hn]
  split <;> assumption

/-- Every path from the root stays at its number or below. -/
theorem Leads.le_root {node : List Node} (hs : Shaped node) {n : Nat} {p : Bits} (h : Leads node rootNode p n) : n ≤ 512 := by
  induction p using List.reverseRecOn generalizing n with
  | nil => exact Nat.le_of_eq h.symm
  | append_singleton p bit ih =>
    obtain ⟨m, hm, hinner, rfl⟩ := leads_concat.1 h
    exact (child_lt hs hinner (ih hm) bit).le.trans (ih hm)

/-- A path that is not empty leads below the root. -/
theorem Leads.concat_lt_root {node : List Node} (hs : Shaped node) {n : Nat} {p : Bits} {bit : Bool} (h : Leads node rootNode (p ++ [bit]) n) :
    n < 512 := by
  obtain ⟨m, hm, hinner, rfl⟩ := leads_concat.1 h
  exact Nat.lt_of_lt_of_le (child_lt hs hinner (hm.le_root hs) bit) (hm.le_root hs)

section
variable {w : List Nat} (hw : w.length = 257)
include hw

/-- R31: an internal node by its number, and by the two different nodes a walk goes to from it. -/
theorem isInternal_iff {n a b : Nat} : IsInternal (buildTree w) n a b ↔
    sentinelSym < n ∧ n ≤ 512 ∧ child (buildTree w) n false = a ∧ child (buildTree w) n true = b := by
  constructor
  · rintro ⟨f, hn⟩
    obtain ⟨hlt, _⟩ := List.getElem?_eq_some_iff.1 hn
    have hinner : w.length ≤ n := Nat.not_lt.1 fun hleaf => nomatch hn.symm.trans (buildTree_leaf w n hleaf)
    rw [buildTree_length, hw] at hlt
    exact ⟨(hw ▸ hinner : 257 ≤ n), by omega, child_internal hn false, child_internal hn true⟩
  · rintro ⟨h1, h2, rfl, rfl⟩
    obtain ⟨a, b, f, hn, _⟩ := (buildTree_shaped w hw).inner n h1 h2
    exact ⟨f, by simpa [child_internal hn] using hn⟩

theorem child_injective {n : Nat} (h1 : sentinelSym < n) (h2 : n ≤ 512) : Function.Injective (child (buildTree w) n) := by
  obtain ⟨a, b, _, _, hab, hn, _⟩ := buildTree_internalNode hw h1 h2
  intro bit bit' h
  rw [child_internal hn, child_internal hn] at h
  cases bit <;> cases bit' <;> simp_all

theorem isChild_iff_child {n m : Nat} :
    IsChild (buildTree w) n m ↔ sentinelSym < n ∧ n ≤ 512 ∧ ∃ bit, child (buildTree w) n bit = m := by
  simp only [IsChild, isInternal_iff hw]
  constructor
  · rintro ⟨a, b, ⟨h1, h2, rfl, rfl⟩, rfl | rfl⟩
    · exact ⟨h1, h2, false, rfl⟩
    · exact ⟨h1, h2, true, rfl⟩
  · rintro ⟨h1, h2, bit, rfl⟩
    exact ⟨_, _, ⟨h1, h2, rfl, rfl⟩, by cases bit <;> simp⟩

/-- R135, R137: one path leads from the root to each node, the one to its parent and one bit more. -/
theorem exists_path {n : Nat} (hn : n ≤ 512) :
    ∃ p, Leads (buildTree w) rootNode p n ∧ ∀ q, Leads (buildTree w) rootNode q n → q = p := by
  have hs := buildTree_shaped w hw
  induction n using Nat.strong_decreasing_induction with
  | base => exact ⟨512, fun m hm hm' => absurd hm' (Nat.not_le.2 hm)⟩
  | step n ih =>
    obtain rfl | hlt := Nat.eq_or_lt_of_le hn
    · refine ⟨[], rfl, fun q hq => ?_⟩
      obtain rfl | ⟨q, bit, rfl⟩ := List.eq_nil_or_concat' q
      · rfl
      · exact absurd (hq.concat_lt_root hs) (Nat.lt_irrefl _)
    · obtain ⟨m, hparent, honly⟩ := buildTree_parent hw hlt
      obtain ⟨h1, h2, bit, rfl⟩ := (isChild_iff_child hw).1 hparent
      obtain ⟨p, hp, hpu⟩ := ih m (child_lt hs h1 h2 bit) h2
      refine ⟨p ++ [bit], leads_concat.2 ⟨m, hp, h1, rfl⟩, fun q hq => ?_⟩
      obtain rfl | ⟨q, bit', rfl⟩ := List.eq_nil_or_concat' q
      · exact absurd hlt (Nat.not_lt.2 (Nat.le_of_eq hq))
      · obtain ⟨m', hm', h1', hbit⟩ := leads_concat.1 hq
        obtain rfl := honly m' ((isChild_iff_child hw).2 ⟨h1', hm'.le_root hs, bit', hbit⟩)
        rw [hpu q hm', child_injective hw h1 h2 hbit]

end

/-- Settles O28: the assignment is each node's one path (`exists_path`). -/
theorem codesAreTheTreePaths : Obligations.CodesAreTheTreePaths := by
  intro w hw
  have hcoded := coded_buildTree w hw
  have hpaths (n : Nat) : ∃ p, n ≤ 512 → Leads (buildTree w) rootNode p n ∧ ∀ q, Leads (buildTree w) rootNode q n → q = p := by
    by_cases hn : n ≤ 512
    · exact (exists_path hw hn).imp fun _ hp _ => hp
    · exact ⟨[], fun h => absurd h hn⟩
  choose path hpath using hpaths
  have path_eq {n : Nat} {q : Bits} (hq : Leads (buildTree w) rootNode q n) : path n = q :=
    ((hpath n (hq.le_root hcoded.shaped)).2 q hq).symm
  refine ⟨path, path_eq rfl, fun n a b hi => ?_, hcoded.length, fun x hx => (path_eq (hcoded.leads hx).1).symm⟩
  obtain ⟨h1, h2, ha, hb⟩ := (isInternal_iff hw).1 hi
  have hn := (hpath n h2).1
  exact ⟨path_eq (leads_concat.2 ⟨n, hn, h1, ha⟩), path_eq (leads_concat.2 ⟨n, hn, h1, hb⟩)⟩

/-! ### The code as a whole -/

/-- Settles O29: a code that begins another's leads to the same symbol (`Leads.unique`). -/
theorem codesArePrefixFree : Obligations.CodesArePrefixFree := by
  intro w hw x y hx hy hxy hbegins
  have hcoded := coded_buildTree w hw
  exact hxy ((hcoded.leads hx).1.unique (hcoded.leads hy).1 (by omega) hbegins)

theorem Coded.code_eq_map {node : List Node} {code : List Bits} (h : Coded node code) : code = (List.range 257).map (codeAt code) :=
  List.ext_getElem (by simp [h.length]) fun i hi _ => by simp [codeAt, hi]

/-- Settles O30: the sum over the symbols is the sum over the walk that finds them, which is `walk_kraft` at the root. -/
theorem codesAreBoundedAndComplete : Obligations.CodesAreBoundedAndComplete := by
  intro w hw
  have hcoded := coded_buildTree w hw
  refine ⟨fun x hx => (hcoded.leads hx).2, ?_⟩
  have hkraft := walk_kraft hcoded.shaped 256 nnode rootNode (le_refl _) (Nat.lt_succ_self _) [] (le_refl _)
  rw [(hcoded.walk.map _).sum_eq, List.map_map] at hkraft
  rw [hcoded.code_eq_map, List.map_map]
  exact hkraft

end Sys2Proof.Machine
end

section
/-! PROOF. The Huffman stream (41_huffman.md R141, R143, R145, R146): what the bytes of an encoding read as, what a decoding gives on any bytes, and how
long both are. -/

namespace Sys2Proof.Machine

/-! ### Encodings -/

/-- R141: the bytes of an encoding read as the codes and zero bits after them. -/
theorem streamBits_huffEncode_eq_padBits (o : BitOrder) (code : List Bits) (d : List Byte) :
    streamBits o (huffEncode o code d) = padBits (codeStream code d) :=
  (packBits_spec o _ _ (padBits_length _)).1

theorem getD_padBits (s : Bits) (j : Nat) : (padBits s).getD j false = s.getD j false := by
  by_cases h : j < s.length
  · rw [padBits, List.getD_append _ _ _ _ h]
  · rw [padBits, List.getD_append_right _ _ _ _ (Nat.not_lt.1 h), List.getD_eq_default s _ (Nat.not_lt.1 h), List.getD_eq_getElem?_getD,
      List.getElem?_replicate]
    split <;> rfl

theorem streamBit_huffEncode (o : BitOrder) (code : List Bits) (d : List Byte) {j : Nat} (h : j < 8 * (huffEncode o code d).length) :
    streamBit o (huffEncode o code d) j = (codeStream code d).getD j false := by
  rw [← streamBits_length o] at h
  rw [streamBit_eq_getElem o _ j h, ← getD_padBits, ← streamBits_huffEncode_eq_padBits o, List.getD_eq_getElem _ _ h]

/-- Settles O32: the bits of the encoding begin with the code stream, which decodes whatever follows. -/
theorem huffDecodeOfEncode : Obligations.HuffDecodeOfEncode := by
  intro w o d extra cap hw hcap
  obtain ⟨pad, hbits⟩ := streamBits_huffEncode o (codesOf (buildTree w)) d
  rw [huffDecode, streamBits_append, hbits, List.append_assoc]
  exact huffWalk_codeStream (coded_buildTree w hw) d _ cap hcap

/-- Settles O33: later bytes are later bits, which a decided walk does not read. -/
theorem huffDecodeIgnoresWhatFollows : Obligations.HuffDecodeIgnoresWhatFollows := by
  intro o node bs extra cap h
  rw [huffDecode, streamBits_append]
  exact huffWalk_append node _ _ rootNode cap h

section
variable {node : List Node} {code : List Bits} (h : Coded node code)
include h

theorem Coded.ne_nil : code ≠ [] :=
  List.ne_nil_of_length_pos (by rw [h.length]; decide)

/-- R138: the longest code is some symbol's, so it has no more than MAX_CODE_LEN bits. -/
theorem Coded.longestCode_le : longestCode code ≤ 256 := by
  obtain ⟨_, s, hs, hlen⟩ := longestCode_spec code h.ne_nil
  rw [h.length] at hs
  exact hlen ▸ (h.leads hs).2.2

/-- Every encoding holds the sentinel's code at least. -/
theorem Coded.huffEncode_pos (o : BitOrder) (d : List Byte) : 1 ≤ (huffEncode o code d).length := by
  have hsent : 1 ≤ (codeAt code sentinelSym).length := (h.leads (by decide)).2.1
  simp only [huffEncode_length, bytesFor, codeStream, List.length_append]
  omega

/-- R146: no code is longer than the longest, and there is one more of them than bytes of data. -/
theorem Coded.huffEncode_length_le (o : BitOrder) (d : List Byte) :
    (huffEncode o code d).length ≤ (longestCode code * (d.length + 1) + 7) / 8 := by
  rw [huffEncode_length, bytesFor]
  exact Nat.div_le_div_right (Nat.add_le_add_right (codeStream_length_le code h.ne_nil d) 7)

end

/-- As many bytes as codes of up to `8 * k` bits take. -/
theorem bytesFor_mul_le {m k n : Nat} (h : m ≤ 8 * k) : (m * n + 7) / 8 ≤ k * n := by
  have := Nat.mul_le_mul_right n h
  rw [Nat.mul_assoc] at this
  omega

/-- Settles O34: the code stream has at least the sentinel's code in it and at most the longest code for each symbol. -/
theorem compressedSizeBounds : Obligations.CompressedSizeBounds := by
  intro w o d hw
  have hcoded := coded_buildTree w hw
  exact ⟨hcoded.huffEncode_pos o d, hcoded.huffEncode_length_le o d, bytesFor_mul_le hcoded.longestCode_le⟩

/-! ### Decodings -/

section
variable {node : List Node} {code : List Bits} (h : Coded node code)
include h

/-- R143: the bits that decode to `out`. -/
theorem Coded.huffWalk_eq_ok_iff (bits : Bits) (room : Nat) (out : List Byte) :
    huffWalk node bits rootNode room = .ok out ↔ out.length ≤ room ∧ ∃ tail, bits = dataCodes code out ++ codeAt code 256 ++ tail := by
  constructor
  · intro hok
    obtain ⟨d, tail, hlen, hbits, hw⟩ | ⟨_, _, _, _, hw⟩ | ⟨_, _, _, _, _, _, _, _, _, hw⟩ := huffWalk_cases h bits room
    · cases hw.symm.trans hok
      exact ⟨hlen, tail, hbits⟩
    · cases hw.symm.trans hok
    · cases hw.symm.trans hok
  · rintro ⟨hlen, tail, rfl⟩
    exact huffWalk_codeStream h out tail room hlen

/-- R143: the bits that need more room than there is. -/
theorem Coded.huffWalk_eq_capacityExceeded_iff (bits : Bits) (room : Nat) :
    huffWalk node bits rootNode room = .capacityExceeded ↔ ∃ d tail, d.length = room + 1 ∧ bits = dataCodes code d ++ tail := by
  constructor
  · intro hcap
    obtain ⟨_, _, _, _, hw⟩ | ⟨d, tail, hlen, hbits, _⟩ | ⟨_, _, _, _, _, _, _, _, _, hw⟩ := huffWalk_cases h bits room
    · cases hw.symm.trans hcap
    · exact ⟨d, tail, hlen, hbits⟩
    · cases hw.symm.trans hcap
  · rintro ⟨d, tail, hlen, rfl⟩
    rw [huffWalk_dataCodes h, if_neg (by omega)]

/-- R143: the bits that end inside a code or before one. -/
theorem Coded.huffWalk_eq_truncatedStream_iff (bits : Bits) (room : Nat) :
    huffWalk node bits rootNode room = .truncatedStream ↔ ∃ d tail x, d.length ≤ room ∧ bits = dataCodes code d ++ tail ∧
      x < 257 ∧ tail <+: codeAt code x ∧ tail ≠ codeAt code x := by
  constructor
  · intro htrunc
    obtain ⟨_, _, _, _, hw⟩ | ⟨_, _, _, _, hw⟩ | ⟨d, tail, x, q, hlen, hbits, hx, hq, hcode, _⟩ := huffWalk_cases h bits room
    · cases hw.symm.trans htrunc
    · cases hw.symm.trans htrunc
    · exact ⟨d, tail, x, hlen, hbits, Nat.lt_succ_of_le hx, ⟨q, hcode.symm⟩, fun he => hq (by simpa [he] using hcode)⟩
  · rintro ⟨d, tail, x, hlen, rfl, hx, ⟨q, hcode⟩, hne⟩
    have hq : q ≠ [] := by
      rintro rfl
      exact hne (by simpa using hcode)
    rw [huffWalk_dataCodes h, if_pos hlen, huffWalk_short (hcode ▸ (h.leads hx).1) hq, (foldr_emit d).2]

theorem Coded.code_pos (b : Byte) : 1 ≤ (codeAt code b.toNat).length :=
  (h.leads (b.isLt.trans (by decide))).2.1

theorem Coded.length_le_dataCodes (d : List Byte) : d.length ≤ (dataCodes code d).length := by
  induction d with
  | nil => exact Nat.zero_le _
  | cons b d ih => simpa [dataCodes, Nat.add_comm] using Nat.add_le_add ih (h.code_pos b)

/-- Codes of data that take no more bits than there are bytes have one bit each. -/
theorem Coded.code_length_of_dataCodes_le {d : List Byte} (hle : (dataCodes code d).length ≤ d.length) :
    ∀ b ∈ d, (codeAt code b.toNat).length = 1 := by
  induction d with
  | nil => exact List.forall_mem_nil _
  | cons b d ih =>
    have hb := h.code_pos b
    have hd := h.length_le_dataCodes d
    simp only [dataCodes, List.flatMap_cons, List.length_append, List.length_cons] at hle hd ih
    exact List.forall_mem_cons.2 ⟨by omega, ih (by omega)⟩

/-- R146, log 10: bits that need more room than one byte for each of them but the last are one-bit codes of data and nothing else. -/
theorem Coded.one_bit_codes {bits : Bits} {room : Nat} (hroom : bits.length ≤ room + 1)
    (hcap : huffWalk node bits rootNode room = .capacityExceeded) : ∀ bit ∈ bits, ∃ x, x < 256 ∧ codeAt code x = [bit] := by
  obtain ⟨d, tail, hlen, rfl⟩ := (h.huffWalk_eq_capacityExceeded_iff bits room).1 hcap
  have hd := h.length_le_dataCodes d
  rw [List.length_append] at hroom
  obtain rfl : tail = [] := List.length_eq_zero_iff.1 (by omega)
  intro bit hbit
  rw [List.append_nil] at hbit
  obtain ⟨b, hb, hbit⟩ := List.mem_flatMap.1 hbit
  obtain ⟨y, hy⟩ := List.length_eq_one_iff.1 (h.code_length_of_dataCodes_le (by omega) b hb)
  rw [hy, List.mem_singleton] at hbit
  exact ⟨b.toNat, b.isLt, hbit ▸ hy⟩

end

end Sys2Proof.Machine
end

section
/-! PROOF. R146's bound for HDECOMP against R143 (log 10): a symbol heavier than all others together has a one-bit code, and a stream of such codes
needs one byte of room for every bit. -/

namespace Sys2Proof.Machine

/-- The strictly heaviest node comes first in the sort. -/
theorem sort_eq_cons_of_heavy {l others : List CNode} {x : CNode} (hperm : l.Perm (x :: others)) (hx : ∀ y ∈ others, y.freq < x.freq) :
    ∃ t, stableSortDesc CNode.freq l = x :: t ∧ t.Perm others := by
  have hp := (sort_perm CNode.freq l).trans hperm
  cases hs : stableSortDesc CNode.freq l with
  | nil => simp [hs] at hp
  | cons y t =>
    rw [hs] at hp
    obtain rfl | hy := List.mem_cons.1 (hp.mem_iff.1 List.mem_cons_self)
    · exact ⟨t, rfl, (List.perm_cons y).1 hp⟩
    · have hle : x.freq ≤ y.freq := by
        obtain rfl | hm := List.mem_cons.1 (hp.mem_iff.2 List.mem_cons_self)
        · exact le_refl _
        · exact (List.pairwise_cons.1 (hs ▸ sort_sorted CNode.freq l)).1 x hm
      exact absurd (hx y hy) (Nat.not_lt.2 hle)

/-- A node heavier than all others together is merged in the last pass only, as child1. -/
theorem mergeLoop_heavy (p k : Nat) {l others : List CNode} {x : CNode} (hperm : l.Perm (x :: others))
    (hx : (others.map CNode.freq).sum < x.freq) (hlen : others.length ≤ p) (hne : others ≠ []) :
    ∃ a f, (mergeLoop p k l)[others.length - 1]? = some (.internal a x.id f) := by
  induction p generalizing k l others with
  | zero => exact absurd (List.length_eq_zero_iff.1 (Nat.le_zero.1 hlen)) hne
  | succ p ih =>
    have hl : l.length = others.length + 1 := hperm.length_eq
    have hpos := List.length_pos_iff.2 hne
    obtain ⟨hshort, _⟩ | ⟨a, b, rest, hsort, _, hloop⟩ := mergeLoop_succ p k l
    · omega
    obtain ⟨t, ht, htperm⟩ := sort_eq_cons_of_heavy hperm fun y hy =>
      Nat.lt_of_le_of_lt (List.single_le_sum (fun _ _ => Nat.zero_le _) _ (List.mem_map_of_mem hy)) hx
    have htlen := htperm.length_eq
    have htsum := (htperm.map CNode.freq).sum_eq
    rw [hsort] at ht
    cases rest with
    | nil =>
      obtain ⟨rfl, rfl⟩ : b = x ∧ [a] = t := by simpa using ht
      exact ⟨a.id, _, by rw [hloop, ← htlen]; rfl⟩
    | cons y rest =>
      obtain ⟨rfl, rfl⟩ : y = x ∧ rest ++ [b, a] = t := by simpa using ht
      obtain ⟨c, f, hget⟩ := ih (k + 1) (l := y :: (rest ++ [⟨k, a.freq + b.freq⟩])) (.refl _)
        (by simp at htsum ⊢; omega) (by simp at htlen ⊢; omega) (by simp)
      refine ⟨c, f, ?_⟩
      rw [hloop, ← htlen]
      simpa using hget

/-- Symbol 0 has the code `1` where it outweighs all others together. -/
theorem code_zero_of_heavy {f : Nat} {fs : List Nat} (hw : (f :: fs).length = 257) (hf : fs.sum < f) :
    codeAt (codesOf (buildTree (f :: fs))) 0 = [true] := by
  have hfreqs : (leafList (f :: fs)).tail.map CNode.freq = fs := by rw [List.map_tail, leafList_freqs, List.tail_cons]
  have hlen : (leafList (f :: fs)).tail.length = 256 := by rw [List.length_tail, leafList_length, hw]
  obtain ⟨a, g, hget⟩ := mergeLoop_heavy 257 257 (l := leafList (f :: fs)) (others := (leafList (f :: fs)).tail)
    (x := ⟨0, f⟩) (.refl _) (by rwa [hfreqs]) (by omega) (List.ne_nil_of_length_pos (by omega))
  have hroot : (buildTree (f :: fs))[rootNode]? = some (.internal a 0 g) := by
    rw [← hget, hlen, ← hw, ← buildTree_internal, hw]
    rfl
  have hleads : Leads (buildTree (f :: fs)) rootNode [true] 0 := ⟨by decide, child_internal hroot true⟩
  exact ((coded_buildTree _ hw).eq_code hleads (Nat.zero_le _)).symm

/-- Weight 2 for symbol 0, 1 for the sentinel and 0 for all others. -/
def oneBitWeights : List Nat := 2 :: (List.replicate 255 0 ++ [1])

theorem oneBitWeights_length : oneBitWeights.length = 257 := by
  rw [oneBitWeights, List.length_cons, List.length_append, List.length_replicate, List.length_singleton]

theorem oneBitWeights_code : codeAt (codesOf (buildTree oneBitWeights)) 0 = [true] :=
  code_zero_of_heavy oneBitWeights_length (by rw [List.sum_append, List.sum_replicate]; decide)

theorem dataCodes_replicate {code : List Bits} {b : Byte} {bit : Bool} (h : codeAt code b.toNat = [bit]) (n : Nat) :
    dataCodes code (List.replicate n b) = List.replicate n bit := by
  simp [dataCodes, List.flatMap_replicate, h]

/-- Refutes O36: under `oneBitWeights` the byte FF is eight times the code of symbol 0, and the eighth finds no room after seven bytes. -/
theorem not_decompressionFitsAtTheBoundOfR146 : ¬ Obligations.DecompressionFitsAtTheBoundOfR146 := by
  intro h
  have hstream : streamBits .msbFirst [0xFF] = List.replicate 8 true := by decide
  refine h oneBitWeights .msbFirst [0xFF] 7 oneBitWeights_length (by decide) ?_
  rw [huffDecode, (coded_buildTree _ oneBitWeights_length).huffWalk_eq_capacityExceeded_iff]
  exact ⟨List.replicate 8 0, [], rfl, by rw [hstream, dataCodes_replicate (b := 0) oneBitWeights_code, List.append_nil]⟩

end Sys2Proof.Machine
end

section
/-! PROOF. HINIT (41_huffman.md R131, R139, R140): its weights, its two ends, and that nothing but its weights decides what it installs. -/

namespace Sys2Proof.Machine

theorem execHinit_of_le {sel : TableSel} {s : State} (h : (weights sel s).sum ≤ u32Max) :
    exec (.hinit sel) s = .next { s with
      node := buildTree (weights sel s), code := codesOf (buildTree (weights sel s)), hstate := .ready,
      result := ofLength (longestCode (codesOf (buildTree (weights sel s)))), err := .ok } := by
  obtain ⟨t, ht⟩ := exists_exec_eq_next (.hinit sel) s
  obtain ⟨hlt, _⟩ | ⟨_, rfl⟩ := execHinit_cases ht
  · omega
  · exact ht

theorem execHinit_of_lt {sel : TableSel} {s : State} (h : u32Max < (weights sel s).sum) :
    exec (.hinit sel) s = .next { s with err := .freqOverflow } := by
  obtain ⟨t, ht⟩ := exists_exec_eq_next (.hinit sel) s
  obtain ⟨_, rfl⟩ | ⟨hle, _⟩ := execHinit_cases ht
  · exact ht
  · omega

/-- A HINIT that succeeds is one whose weights pass the check of R132. -/
theorem sum_weights_le_of_ok {sel : TableSel} {s t : State} (h : exec (.hinit sel) s = .next t) (hok : t.err = .ok) :
    (weights sel s).sum ≤ u32Max := by
  obtain ⟨_, rfl⟩ | ⟨hle, _⟩ := execHinit_cases h
  · cases hok
  · exact hle

theorem weights_length (sel : TableSel) (s : State) : (weights sel s).length = 257 := by
  cases sel <;> simp [weights]

theorem weights_sentinel (sel : TableSel) (s : State) : (weights sel s)[256]? = some s.cfg.sentinelFreq.toNat := by
  cases sel <;> simp [weights]

theorem weights_freq_getElem? (s : State) {i : Nat} (h : i < 256) : (weights .freq s)[i]? = some (s.freqAt i).toNat := by
  simp [weights, List.getElem?_append_left, h]

theorem weights_builtin_getElem? (s : State) {i : Nat} (h : i < 256) : (weights .builtin s)[i]? = some (s.cfg.defaultFreq[i]).toNat := by
  simp [weights, List.getElem?_append_left, h]

/-- Settles O37: the two ends of HINIT, and the weights entry by entry. -/
theorem hinitInstallsTheTree : Obligations.HinitInstallsTheTree :=
  ⟨fun s sel => ⟨weights_length sel s, weights_sentinel sel s, fun _ h => ⟨weights_freq_getElem? s h, weights_builtin_getElem? s h⟩⟩,
    fun _ _ => execHinit_of_le, fun _ _ => execHinit_of_lt, by decide⟩

theorem weights_congr {s t : State} (hc : t.cfg = s.cfg) (hf : t.freq = s.freq) (he : t.epoch = s.epoch) (sel : TableSel) :
    weights sel t = weights sel s := by
  cases sel <;> simp only [weights, hc, freqAt_congr hf he]

/-- Settles O38: what a successful HINIT installs is a function of its weights, and it leaves its weights as they were. -/
theorem hinitIsDeterminedByItsWeights : Obligations.HinitIsDeterminedByItsWeights := by
  refine ⟨fun sel sel' s s' t t' hw h h' hok => ?_, fun sel s t h hok => ?_⟩
  · have hle := sum_weights_le_of_ok h hok
    obtain rfl := Host.Outcome.next.inj ((execHinit_of_le hle).symm.trans h)
    obtain rfl := Host.Outcome.next.inj ((execHinit_of_le (hw ▸ hle)).symm.trans h')
    exact ⟨rfl, by simp only [hw], by simp only [hw], by simp only [hw]⟩
  · have hle := sum_weights_le_of_ok h hok
    have ht := Host.Outcome.next.inj (h.symm.trans (execHinit_of_le hle))
    obtain ⟨hcfg, _, hfreq, _, _, _, _, hepoch⟩ := exec_keeps h
    have hw := weights_congr hcfg hfreq hepoch sel
    rw [execHinit_of_le (hw ▸ hle), hw, ht]

end Sys2Proof.Machine
end

section
/-! PROOF. HCOMP and HDECOMP (41_huffman.md R142, R144 to R146): what each answers, what they give one after the other, and capacities that
suffice for them. -/

namespace Sys2Proof.Machine

/-! ### Input and output -/

theorem withInput_of_uninit {s : State} (h : s.hstate = .uninit) (body : State → List Byte → CmdEnd) :
    withInput s body = .raise .notInitialized := by
  rw [withInput, h]

theorem withInput_of_lt {s : State} (h : s.hstate = .ready) (hn : s.cfg.hinCap < s.arg.toNat) (body : State → List Byte → CmdEnd) :
    withInput s body = .raise .capacityExceeded := by
  rw [withInput, h]
  exact if_pos hn

theorem withInput_of_le {s : State} (h : s.hstate = .ready) (hn : s.arg.toNat ≤ s.cfg.hinCap) (body : State → List Byte → CmdEnd) :
    withInput s body = body s (s.hinBytes s.arg.toNat) := by
  rw [withInput, h]
  exact if_neg (Nat.not_lt.2 hn)

theorem hinBytes_length (s : State) (n : Nat) : (s.hinBytes n).length = n := by
  rw [State.hinBytes, List.length_map, List.length_range]

theorem hinBytes_getElem? (s : State) {n a : Nat} (h : a < n) : (s.hinBytes n)[a]? = some (s.hinAt a) := by
  rw [State.hinBytes, List.getElem?_map, List.getElem?_range h, Option.map_some]

/-- Bytes that stand in HIN from entry 0 are the input of their number. -/
theorem hinBytes_eq_of_hinAt {s : State} {b : List Byte} (h : ∀ i (hi : i < b.length), s.hinAt i = b[i]) : s.hinBytes b.length = b :=
  List.ext_getElem (hinBytes_length s _) fun i _ hi => by simpa [State.hinBytes] using h i hi

/-- A state that differs by some bytes in HOUT, their number in RESULT and ERR 0, field by field (R35, R173). -/
theorem exists_commit_setHout {i : Instr} {s : State} {b : List Byte}
    (h : exec i s = .next { s.setHout b with result := ofLength b.length, err := .ok }) :
    ∃ t, exec i s = .next t ∧ t.err = .ok ∧ t.result = BitVec.ofNat 32 b.length ∧ (∀ a, t.houtAt a = (b[a]?).getD (s.houtAt a)) ∧
      t = { s with hout := t.hout, result := t.result, err := .ok } :=
  ⟨_, h, rfl, rfl, houtAt_setHout s b, rfl⟩

/-- The tree and the codes of a READY state are those of installed weights (R31, R32). -/
theorem State.Inv.coded {s : State} (hs : s.Inv) (hr : s.hstate = .ready) : Coded s.node s.code := by
  obtain ⟨w, ⟨hw, _, _⟩, hnode, hcode⟩ := hs.tree hr
  rw [hcode, hnode]
  exact coded_buildTree w hw

/-- Output that HOUT has room for has a length RESULT can hold (R5, R26). -/
theorem State.Inv.ofLength_toNat {s : State} (hs : s.Inv) {b : List Byte} (hb : b.length ≤ s.cfg.houtCap) :
    (ofLength b.length).toNat = b.length := by
  obtain ⟨_, _, ⟨_, hcap⟩, _⟩ := hs.cfg
  exact Machine.ofLength_toNat (by omega)

/-! ### HCOMP -/

/-- The encoding of the input HCOMP is given (R141, R142). -/
abbrev State.encoding (s : State) : List Byte := huffEncode s.cfg.bitOrder s.code (s.hinBytes s.arg.toNat)

theorem execHcomp_eq (s : State) : exec .hcomp s = .next (finish s (withInput s hcompBody)) := rfl

theorem execHcomp_of_uninit {s : State} (h : s.hstate = .uninit) : exec .hcomp s = .next { s with err := .notInitialized } := by
  rw [execHcomp_eq, withInput_of_uninit h, finish]

theorem execHcomp_of_lt {s : State} (h : s.hstate = .ready) (hn : s.cfg.hinCap < s.arg.toNat) :
    exec .hcomp s = .next { s with err := .capacityExceeded } := by
  rw [execHcomp_eq, withInput_of_lt h hn, finish]

theorem execHcomp_of_fits {s : State} (h : s.hstate = .ready) (hn : s.arg.toNat ≤ s.cfg.hinCap) (hb : s.encoding.length ≤ s.cfg.houtCap) :
    exec .hcomp s = .next { s.setHout s.encoding with result := ofLength s.encoding.length, err := .ok } := by
  rw [execHcomp_eq, withInput_of_le h hn, hcompBody, if_neg (Nat.not_lt.2 hb), finish]

theorem execHcomp_of_not_fits {s : State} (h : s.hstate = .ready) (hn : s.arg.toNat ≤ s.cfg.hinCap) (hb : s.cfg.houtCap < s.encoding.length) :
    exec .hcomp s = .next { s with err := .capacityExceeded } := by
  rw [execHcomp_eq, withInput_of_le h hn, hcompBody, if_pos hb, finish]

/-- An HCOMP that succeeds has written its encoding, which fits. -/
theorem execHcomp_ok {s t : State} (h : exec .hcomp s = .next t) (hok : t.err = .ok) :
    s.hstate = .ready ∧ s.encoding.length ≤ s.cfg.houtCap ∧ t = { s.setHout s.encoding with result := ofLength s.encoding.length, err := .ok } := by
  obtain ⟨_, rfl⟩ | ⟨_, _, rfl⟩ | ⟨_, _, _, rfl⟩ | ⟨hr, _, b, rfl, hb, rfl⟩ := execHcomp_cases h
  · cases hok
  · cases hok
  · cases hok
  · exact ⟨hr, hb, rfl⟩

/-- HCOMP runs out of capacity by its input, or by an encoding of it that does not fit (R142). -/
theorem execHcomp_capacityExceeded {s t : State} (h : exec .hcomp s = .next t) (he : t.err = .capacityExceeded) :
    s.cfg.hinCap < s.arg.toNat ∨ (s.hstate = .ready ∧ s.arg.toNat ≤ s.cfg.hinCap ∧ s.cfg.houtCap < s.encoding.length) := by
  obtain ⟨_, rfl⟩ | ⟨_, hn, _⟩ | ⟨hr, hn, hb, _⟩ | ⟨_, _, _, _, _, rfl⟩ := execHcomp_cases h
  · cases he
  · exact .inl hn
  · exact .inr ⟨hr, hn, hb⟩
  · cases he

/-- Settles O40: one outcome of HCOMP for each case of R142, and the bits of an encoding are `streamBit_huffEncode`. -/
theorem hcompWritesTheEncoding : Obligations.HcompWritesTheEncoding := by
  refine ⟨fun s hr hn hb => exists_commit_setHout (execHcomp_of_fits hr hn hb), fun s => execHcomp_of_uninit,
    fun s => execHcomp_of_lt, fun s => execHcomp_of_not_fits, fun s t hs h hok => ?_, by decide, fun o code d stream hstream => ?_⟩
  · obtain ⟨hr, hb, rfl⟩ := execHcomp_ok h hok
    exact ((hs.coded hr).huffEncode_pos _ _).trans_eq (hs.ofLength_toNat hb).symm
  · obtain rfl : stream = codeStream code d := hstream
    exact ⟨huffEncode_length o code d, fun j => streamBit_huffEncode o code d⟩

/-! ### HDECOMP -/

/-- The decoding of the input HDECOMP is given (R143, R144). -/
abbrev State.decoding (s : State) : HuffResult := huffDecode s.cfg.bitOrder s.node (s.hinBytes s.arg.toNat) s.cfg.houtCap

theorem execHdecomp_eq (s : State) : exec .hdecomp s = .next (finish s (withInput s hdecompBody)) := rfl

theorem execHdecomp_of_uninit {s : State} (h : s.hstate = .uninit) : exec .hdecomp s = .next { s with err := .notInitialized } := by
  rw [execHdecomp_eq, withInput_of_uninit h, finish]

theorem execHdecomp_of_lt {s : State} (h : s.hstate = .ready) (hn : s.cfg.hinCap < s.arg.toNat) :
    exec .hdecomp s = .next { s with err := .capacityExceeded } := by
  rw [execHdecomp_eq, withInput_of_lt h hn, finish]

section
variable {s : State} (h : s.hstate = .ready) (hn : s.arg.toNat ≤ s.cfg.hinCap)
include h hn

theorem execHdecomp_of_ok {out : List Byte} (hd : s.decoding = .ok out) :
    exec .hdecomp s = .next { s.setHout out with result := ofLength out.length, err := .ok } := by
  rw [execHdecomp_eq, withInput_of_le h hn, hdecompBody, ← State.decoding, hd, finish]

theorem execHdecomp_of_truncatedStream (hd : s.decoding = .truncatedStream) : exec .hdecomp s = .next { s with err := .truncatedStream } := by
  rw [execHdecomp_eq, withInput_of_le h hn, hdecompBody, ← State.decoding, hd, finish]

theorem execHdecomp_of_capacityExceeded (hd : s.decoding = .capacityExceeded) :
    exec .hdecomp s = .next { s with err := .capacityExceeded } := by
  rw [execHdecomp_eq, withInput_of_le h hn, hdecompBody, ← State.decoding, hd, finish]

end

/-- R144: no input holds no sentinel. -/
theorem execHdecomp_of_arg_zero {s : State} (h : s.hstate = .ready) (hn : s.arg = 0) : exec .hdecomp s = .next { s with err := .truncatedStream } := by
  have hzero : s.arg.toNat = 0 := by rw [hn]; rfl
  exact execHdecomp_of_truncatedStream h (by omega) (by rw [State.decoding, hzero]; rfl)

/-- HDECOMP runs out of capacity by its input, or by output for which its input has more bits than there is room (R144, R146). -/
theorem execHdecomp_capacityExceeded {s t : State} (h : exec .hdecomp s = .next t) (he : t.err = .capacityExceeded) :
    s.cfg.hinCap < s.arg.toNat ∨ (s.arg.toNat ≤ s.cfg.hinCap ∧ s.cfg.houtCap < 8 * s.arg.toNat) := by
  obtain ⟨_, rfl⟩ | ⟨_, hn, _⟩ | ⟨_, _, _, rfl⟩ | ⟨_, hn, hd, _⟩ | ⟨_, _, _, _, rfl⟩ := execHdecomp_cases h
  · cases he
  · exact .inl hn
  · cases he
  · have hlt := (huffWalk_bounds _ _ _ _).2 hd
    rw [streamBits_length, hinBytes_length] at hlt
    exact .inr ⟨hn, hlt⟩
  · cases he

/-- Settles O41: one outcome of HDECOMP for each case of R144, and when a decoding has each outcome is `huffWalk_cases`. -/
theorem hdecompWritesTheDecoding : Obligations.HdecompWritesTheDecoding := by
  refine ⟨fun s out hr hn hd => exists_commit_setHout (execHdecomp_of_ok hr hn hd), fun s => execHdecomp_of_uninit,
    fun s => execHdecomp_of_lt, fun s => execHdecomp_of_truncatedStream, fun s => execHdecomp_of_capacityExceeded,
    fun s => execHdecomp_of_arg_zero, by decide, fun w o bs cap code stream hw hcode hstream => ?_⟩
  have hcoded : Coded (buildTree w) code := hcode ▸ coded_buildTree w hw
  rw [hstream, ← streamBits_eq_map]
  exact ⟨hcoded.huffWalk_eq_ok_iff _ cap, hcoded.huffWalk_eq_capacityExceeded_iff _ cap, hcoded.huffWalk_eq_truncatedStream_iff _ cap⟩

/-! ### The round trip, and the capacities -/

/-- Settles O42: HIN holds the encoding, so HDECOMP decodes it (`huffDecodeOfEncode`) into HOUT. -/
theorem compressCopyDecompressReturnsTheInput : Obligations.CompressCopyDecompressReturnsTheInput := by
  intro s t u hs hr h hok hcfg hru hnode harg hcopy hr_le hn_le
  obtain ⟨_, hb, rfl⟩ := execHcomp_ok h hok
  have hlen := hs.ofLength_toNat hb
  simp only [hlen] at hcopy hr_le
  have hin : u.hinBytes u.arg.toNat = s.encoding := by
    rw [harg, hlen]
    refine hinBytes_eq_of_hinAt fun i hi => (hcopy i hi).trans ((houtAt_setHout s _ i).trans ?_)
    rw [List.getElem?_eq_getElem hi, Option.getD_some]
  have hdec : u.decoding = .ok (s.hinBytes s.arg.toNat) := by
    obtain ⟨w, ⟨hw, _, _⟩, hsnode, hscode⟩ := hs.tree hr
    have := huffDecodeOfEncode w s.cfg.bitOrder (s.hinBytes s.arg.toNat) [] s.cfg.houtCap hw (by rwa [hinBytes_length])
    rw [List.append_nil] at this
    rw [State.decoding, hin, hcfg, hnode, State.encoding, hscode, hsnode, this]
  obtain ⟨v, hv, hverr, hvres, hvout, _⟩ := exists_commit_setHout (execHdecomp_of_ok hru (by rwa [harg, hlen, hcfg]) hdec)
  refine ⟨v, hv, hverr, ?_, fun a ha => ?_⟩
  · rw [hvres, hinBytes_length, BitVec.ofNat_toNat, BitVec.setWidth_eq]
  · rw [hvout, hinBytes_getElem? s ha, Option.getD_some]

/-- The encoding HCOMP computes, by the longest code (R146). -/
theorem State.Inv.encoding_length_le {s : State} (hs : s.Inv) (hr : s.hstate = .ready) :
    s.encoding.length ≤ (longestCode s.code * (s.arg.toNat + 1) + 7) / 8 := by
  simpa only [hinBytes_length] using (hs.coded hr).huffEncode_length_le s.cfg.bitOrder (s.hinBytes s.arg.toNat)

/-- With a byte of HOUT for every bit of HIN, HDECOMP never lacks room for its output (R146, log 10). -/
theorem hinCap_lt_of_execHdecomp {s t : State} (hcap : 8 * s.cfg.hinCap ≤ s.cfg.houtCap) (h : exec .hdecomp s = .next t)
    (he : t.err = .capacityExceeded) : s.cfg.hinCap < s.arg.toNat := by
  obtain hn | ⟨hn, hb⟩ := execHdecomp_capacityExceeded h he <;> omega

/-- Settles O35: a decoding needs a bit for each byte and for the sentinel, and an encoding no more than the longest code for each symbol. -/
theorem decompressedSizeBounds : Obligations.DecompressedSizeBounds := by
  refine ⟨fun o node bs out cap h => ?_, fun s t _ => hinCap_lt_of_execHdecomp, fun s t hs hcap h he => ?_, fun w o bs cap hw hcap h j hj => ?_,
    fun s t _ hin hout h he => hin ▸ hinCap_lt_of_execHdecomp (by omega) h he, fun s t hs hin hout h he => ?_⟩
  · obtain ⟨hcap, hbits⟩ := (huffWalk_bounds _ _ _ _).1 out h
    rw [streamBits_length] at hbits
    exact ⟨by omega, hcap⟩
  · obtain hn | ⟨hr, hn, hb⟩ := execHcomp_capacityExceeded h he
    · exact hn
    · have hle := (hs.encoding_length_le hr).trans (bytesFor_mul_le (k := 32) (hs.coded hr).longestCode_le)
      omega
  · rw [← streamBits_length o] at hj
    rw [streamBit_eq_getElem o bs j hj]
    exact (coded_buildTree w hw).one_bit_codes (by rw [streamBits_length]; omega) h _ (List.getElem_mem hj)
  · obtain hn | ⟨hr, hn, hb⟩ := execHcomp_capacityExceeded h he
    · exact .inl (hin ▸ hn)
    · refine .inr (Nat.lt_of_not_le fun hlong => ?_)
      have hle := hs.encoding_length_le hr
      have hmul := Nat.mul_le_mul hlong (Nat.add_le_add_right hn 1)
      omega

end Sys2Proof.Machine
end

section
/-! PROOF. How commands end (60_exceptions.md R170 to R177): each completes whatever ERR held, an error leaves all but ERR, and what RESULT and ERR
hold after each command; and the second agent, whose access is refused (R181). -/

namespace Sys2Proof.Machine

/-! ### Completion and errors -/

/-- VPUSHB's append, also with a queue longer than the capacity: its test is for equality (R110). -/
theorem execVpushb_of_ne {s : State} (h : s.vq.length ≠ s.cfg.vqCap) :
    exec .vpushb s = .next { s with vq := s.vq ++ [s.argByte], result := ofLength (s.vq.length + 1), err := .ok } := by
  obtain ⟨t, ht⟩ := exists_exec_eq_next .vpushb s
  obtain ⟨heq, _⟩ | ⟨_, rfl⟩ := execVpushb_cases ht
  · exact absurd heq h
  · exact ht

/-- R177: a command answers the same next state whatever ERR held, since no test of its outcomes reads ERR and each of them writes it. -/
theorem exec_setErr {i : Instr} {s t : State} (e : StatusCode) (h : exec i s = .next t) : exec i { s with err := e } = .next t := by
  cases i with
  | vpack =>
    obtain ⟨hlt, rfl⟩ | ⟨hle, rfl⟩ := execVpack_cases h
    · exact execVpack_of_not_fits hlt
    · exact execVpack_of_fits hle
  | vunpack =>
    obtain ⟨hd, rfl⟩ | ⟨hd, rfl⟩ | ⟨v, k, hd, rfl⟩ := execVunpack_cases h
    · exact execVunpack_of_insufficientData hd
    · exact execVunpack_of_varIntOverflow hd
    · exact execVunpack_of_ok hd
  | vclear => exact h
  | vgrow =>
    obtain ⟨hlt, rfl⟩ | ⟨hle, rfl⟩ := execVgrow_cases h
    · exact execVgrow_of_not_fits hlt
    · exact execVgrow_of_fits hle
  | vsize => exact h
  | vpushb =>
    obtain ⟨hfull, rfl⟩ | ⟨hne, rfl⟩ := execVpushb_cases h
    · exact execVpushb_of_full hfull
    · exact execVpushb_of_ne hne
  | hinit sel =>
    have hw : weights sel { s with err := e } = weights sel s := weights_congr rfl rfl rfl sel
    obtain ⟨hlt, rfl⟩ | ⟨hle, rfl⟩ := execHinit_cases h
    · exact execHinit_of_lt (hw ▸ hlt)
    · rw [execHinit_of_le (hw ▸ hle), hw]
  | hcomp =>
    obtain ⟨hu, rfl⟩ | ⟨hr, hn, rfl⟩ | ⟨hr, hn, hb, rfl⟩ | ⟨hr, hn, b, rfl, hb, rfl⟩ := execHcomp_cases h
    · exact execHcomp_of_uninit hu
    · exact execHcomp_of_lt hr hn
    · exact execHcomp_of_not_fits hr hn hb
    · exact execHcomp_of_fits hr hn hb
  | hdecomp =>
    obtain ⟨hu, rfl⟩ | ⟨hr, hn, rfl⟩ | ⟨hr, hn, hd, rfl⟩ | ⟨hr, hn, hd, rfl⟩ | ⟨hr, hn, out, hd, rfl⟩ := execHdecomp_cases h
    · exact execHdecomp_of_uninit hu
    · exact execHdecomp_of_lt hr hn
    · exact execHdecomp_of_truncatedStream hr hn hd
    · exact execHdecomp_of_capacityExceeded hr hn hd
    · exact execHdecomp_of_ok (s := { s with err := e }) hr hn hd

/-- Settles O16: `exec` answers a next state, and by `exec_setErr` the same one under any other code. -/
theorem everyCommandCompletesWhateverErrHeld : Obligations.EveryCommandCompletesWhateverErrHeld := by
  intro i s
  obtain ⟨t, ht⟩ := exists_exec_eq_next i s
  exact ⟨⟨t, ht⟩, fun e => (exec_setErr e ht).trans ht.symm⟩

/-- Settles O17: in every family a command either ends with ERR 0 or differs from the state before in ERR alone. -/
theorem errorChangesOnlyErr : Obligations.ErrorChangesOnlyErr := by
  intro i s t h herr
  obtain hi | ⟨sel, rfl⟩ | hi := instr_family i
  · obtain ⟨_, _, rfl⟩ | ⟨_, _, _, _, rfl⟩ := execVarint_cases hi h
    · rfl
    · exact absurd rfl herr
  · obtain ⟨_, rfl⟩ | ⟨_, rfl⟩ := execHinit_cases h
    · rfl
    · exact absurd rfl herr
  · obtain ⟨_, _, _, rfl⟩ | ⟨_, _, rfl⟩ := execCodec_cases hi h
    · rfl
    · exact absurd rfl herr

/-! ### RESULT after a success -/

/-- A count of bytes that the queue has room for is one RESULT can hold (R5, R27). -/
theorem State.Inv.ofLength_toNat_of_le_vqCap {s : State} (hs : s.Inv) {n : Nat} (hn : n ≤ s.cfg.vqCap) : (ofLength n).toNat = n := by
  obtain ⟨⟨_, hcap⟩, _⟩ := hs.cfg
  exact Machine.ofLength_toNat (by omega)

section
variable {s t : State}

theorem execVpack_result (h : exec .vpack s = .next t) (hok : t.err = .ok) :
    t.result.toNat = t.vq.length - s.vq.length ∧ 1 ≤ t.result.toNat ∧ t.result.toNat ≤ 5 := by
  obtain ⟨_, rfl⟩ | ⟨_, rfl⟩ := execVpack_cases h
  · cases hok
  · have hpos := varintEncode_length_pos s.arg
    have hmax := varintEncode_length_le s.arg
    have hlen : (ofLength (varintEncode s.arg).length).toNat = (varintEncode s.arg).length := ofLength_toNat (by omega)
    simp only [hlen, List.length_append]
    omega

theorem execVunpack_result (h : exec .vunpack s = .next t) (hok : t.err = .ok) :
    ∃ k, varintDecode s.cfg.overlong s.vq = .ok t.result k := by
  obtain ⟨_, rfl⟩ | ⟨_, rfl⟩ | ⟨_, k, hd, rfl⟩ := execVunpack_cases h
  · cases hok
  · cases hok
  · exact ⟨k, hd⟩

theorem execVclear_result (h : exec .vclear s = .next t) : t.result = 0 := by
  obtain rfl := Host.Outcome.next.inj ((execVclear_eq s).symm.trans h)
  rfl

theorem execVgrow_result (hs : s.Inv) (h : exec .vgrow s = .next t) (hok : t.err = .ok) :
    t.result.toNat = s.cfg.vqCap - s.vq.length := by
  obtain ⟨_, rfl⟩ | ⟨_, rfl⟩ := execVgrow_cases h
  · cases hok
  · exact hs.ofLength_toNat_of_le_vqCap (Nat.sub_le _ _)

theorem execVsize_result (hs : s.Inv) (h : exec .vsize s = .next t) : t.result.toNat = s.vq.length := by
  obtain rfl := Host.Outcome.next.inj ((execVsize_eq s).symm.trans h)
  exact hs.ofLength_toNat_of_le_vqCap hs.vq

theorem execVpushb_result (hs : s.Inv) (h : exec .vpushb s = .next t) (hok : t.err = .ok) : t.result.toNat = t.vq.length := by
  obtain ⟨_, rfl⟩ | ⟨hne, rfl⟩ := execVpushb_cases h
  · cases hok
  · rw [List.length_append, List.length_singleton]
    exact hs.ofLength_toNat_of_le_vqCap (Nat.lt_of_le_of_ne hs.vq hne)

/-- R138: the longest code is some symbol's, and every symbol's has 1 to 256 bits. -/
theorem execHinit_result {sel : TableSel} (h : exec (.hinit sel) s = .next t) (hok : t.err = .ok) :
    (∀ x, x < 257 → (codeAt t.code x).length ≤ t.result.toNat) ∧ (∃ x, x < 257 ∧ (codeAt t.code x).length = t.result.toNat) ∧
      1 ≤ t.result.toNat ∧ t.result.toNat ≤ 256 := by
  obtain ⟨_, rfl⟩ | ⟨_, rfl⟩ := execHinit_cases h
  · cases hok
  · have hcoded := coded_buildTree _ (weights_length sel s)
    have hle := hcoded.longestCode_le
    obtain ⟨hmax, x, hx, hlen⟩ := longestCode_spec _ hcoded.ne_nil
    rw [hcoded.length] at hx
    simp only [ofLength_toNat (show longestCode _ < 2 ^ 32 from Nat.lt_of_le_of_lt hle (by decide))]
    exact ⟨fun y _ => hmax y, ⟨x, hx, hlen⟩, hlen ▸ (hcoded.leads hx).2.1, hle⟩

theorem execHcomp_result (hs : s.Inv) (h : exec .hcomp s = .next t) (hok : t.err = .ok) :
    t.result.toNat = s.encoding.length ∧ 1 ≤ t.result.toNat := by
  obtain ⟨hr, hb, rfl⟩ := execHcomp_ok h hok
  have hlen := hs.ofLength_toNat hb
  exact ⟨hlen, ((hs.coded hr).huffEncode_pos _ _).trans_eq hlen.symm⟩

theorem execHdecomp_result (hs : s.Inv) (h : exec .hdecomp s = .next t) (hok : t.err = .ok) :
    ∃ out, s.decoding = .ok out ∧ t.result.toNat = out.length := by
  obtain ⟨_, rfl⟩ | ⟨_, _, rfl⟩ | ⟨_, _, _, rfl⟩ | ⟨_, _, _, rfl⟩ | ⟨_, _, out, hd, rfl⟩ := execHdecomp_cases h
  · cases hok
  · cases hok
  · cases hok
  · cases hok
  · exact ⟨out, hd, hs.ofLength_toNat ((huffWalk_bounds _ _ _ _).1 out hd).1⟩

end

/-- Settles O18: RESULT after each command, row by row of R173. -/
theorem successWritesResult : Obligations.SuccessWritesResult := by
  intro s t hs i h hok
  exact ⟨fun hi => execVpack_result (hi ▸ h) hok,
    fun hi => execVunpack_result (hi ▸ h) hok,
    fun hi => execVclear_result (hi ▸ h),
    fun hi => execVgrow_result hs (hi ▸ h) hok,
    fun hi => execVsize_result hs (hi ▸ h),
    fun hi => execVpushb_result hs (hi ▸ h) hok,
    fun _ hi => execHinit_result (hi ▸ h) hok,
    fun hi => execHcomp_result hs (hi ▸ h) hok,
    fun hi => execHdecomp_result hs (hi ▸ h) hok⟩

/-! ### The status codes of each command -/

/-- VarIntOverflow is FAULT's alone (R102): WRAP keeps the low bits instead. -/
theorem overlong_eq_fault {mode : Overlong} {q : List Byte} (h : varintDecode mode q = .varIntOverflow) : mode = .fault := by
  obtain ⟨_, hoverflow⟩ := varintDecodeErrorsExactlyWhen mode q
  obtain ⟨hfault, _⟩ := hoverflow.1 h
  exact hfault

/-- Settles O19: the codes of each command are those of its outcomes. -/
theorem possibleStatusOfEachCommand : Obligations.PossibleStatusOfEachCommand := by
  refine ⟨fun i s t h => ?_, fun w r s t hw h => ?_⟩
  · cases i with
    | vpack => obtain ⟨_, rfl⟩ | ⟨_, rfl⟩ := execVpack_cases h <;> simp
    | vunpack =>
      obtain ⟨_, rfl⟩ | ⟨hd, rfl⟩ | ⟨_, _, _, rfl⟩ := execVunpack_cases h
      · exact .inl (by simp)
      · exact .inr ⟨rfl, overlong_eq_fault hd⟩
      · exact .inl (by simp)
    | vclear =>
      obtain rfl := Host.Outcome.next.inj ((execVclear_eq s).symm.trans h)
      rfl
    | vgrow => obtain ⟨_, rfl⟩ | ⟨_, rfl⟩ := execVgrow_cases h <;> simp
    | vsize =>
      obtain rfl := Host.Outcome.next.inj ((execVsize_eq s).symm.trans h)
      rfl
    | vpushb => obtain ⟨_, rfl⟩ | ⟨_, rfl⟩ := execVpushb_cases h <;> simp
    | hinit sel => obtain ⟨_, rfl⟩ | ⟨_, rfl⟩ := execHinit_cases h <;> simp
    | hcomp => obtain ⟨_, rfl⟩ | ⟨_, _, rfl⟩ | ⟨_, _, _, rfl⟩ | ⟨_, _, _, _, _, rfl⟩ := execHcomp_cases h <;> simp
    | hdecomp =>
      obtain ⟨_, rfl⟩ | ⟨_, _, rfl⟩ | ⟨_, _, _, rfl⟩ | ⟨_, _, _, rfl⟩ | ⟨_, _, _, _, rfl⟩ := execHdecomp_cases h <;> simp
  · obtain rfl := Host.Outcome.next.inj ((execWord_of_decode_error hw s).symm.trans h)
    rfl

/-! ### The driving agent -/

/-- A step on an access whose agent is not admitted is refused (R181). -/
theorem step_refused {s : State} {a : HostAccess} {rest : List HostEvent} (hp : s.port = .access a :: rest)
    (hd : ¬(s.driver = none ∨ s.driver = some a.agent)) : step s = .refused .secondAgent := by
  rw [← admits_iff] at hd
  rw [step, hp]
  exact if_neg hd

/-- Settles O52: once there is a driver no other agent is admitted. -/
theorem secondAgentIsRefused : Obligations.SecondAgentIsRefused := by
  intro s a rest d hp hd hne
  exact step_refused hp (by simp [hd, hne])

end Sys2Proof.Machine
end

section
/-! PROOF. The VQ_DATA window across commands (70_reset_and_hazards.md R195, with R55): its entries are counted from the current front. -/

namespace Sys2Proof.Machine

/-- Where `k` bytes have gone from the front, entry `i` reads what entry `i + k` read before, and 0 past the end in both (R55). -/
theorem readLoc_vqData_of_drop {s t : State} {k : Nat} (h : t.vq = s.vq.drop k) (i : Nat) :
    readLoc t (.vqData i) = readLoc s (.vqData (i + k)) := by
  have hentry : t.vq.getD i 0 = s.vq.getD (i + k) 0 := by
    rw [h, List.getD_eq_getElem?_getD, List.getD_eq_getElem?_getD, List.getElem?_drop, Nat.add_comm k i]
  rw [readLoc, readLoc, hentry]

theorem readLoc_vqData_of_nil {s : State} (h : s.vq = []) (i : Nat) : readLoc s (.vqData i) = 0 :=
  readLoc_vqData_of_le s (by simp [h])

/-- Settles O15: VUNPACK drops the `k` bytes its value was decoded from, and VCLEAR leaves the empty queue. -/
theorem vqWindowFollowsTheFront : Obligations.VqWindowFollowsTheFront := by
  refine ⟨fun s t v k hd h => ?_, fun s t h => ?_⟩
  · obtain rfl := Host.Outcome.next.inj ((execVunpack_of_ok hd).symm.trans h)
    exact readLoc_vqData_of_drop rfl
  · obtain rfl := Host.Outcome.next.inj ((execVclear_eq s).symm.trans h)
    exact readLoc_vqData_of_nil rfl

end Sys2Proof.Machine
end
